-- ==== Sys2Proof/Word.lean ====
section
/-! DEFINITION. The words of B64P: bytes (00_scope.md R10) and the 16- and 32-bit lanes of a vector register
(10_state.md R35), with the plain conversions between lanes and byte lanes. -/

namespace Sys2Proof

/-- A byte: 8 bits, value 0 to 255 (R10). -/
abbrev Byte := BitVec 8

/-- A 6-bit index, 0 to 63 (R87). -/
abbrev Sextet := BitVec 6

/-- A 16-bit lane of a vector register (R35). -/
abbrev Lane16 := BitVec 16

/-- A 32-bit lane of a vector register (R35). -/
abbrev Lane32 := BitVec 32

end Sys2Proof
end

