-- ==== Sys2Proof/Config.lean ====
section
/-! DEFINITION. The implementation parameters of B64P (00_scope.md R7, R8; 10_state.md R21) and the free values:
what the spec leaves unspecified, as constants without a body (93_implementation_defined.md part 1). -/

namespace Sys2Proof

/-- What DEC does when characters follow a padded group inside the tail window: the OPEN parameter
POST_PAD_POLICY (R8, 41_scalar_kernel.md R158). -/
inductive PostPadPolicy
  | terminateOk
  | reject
  deriving DecidableEq, Repr

/-- The implementation parameters of one block, every one an argument of the model (R7, R8). -/
structure Params where
  /-- LENW: width of ILEN and OCAP. -/
  lenw : Nat
  /-- CAPS: the optional tiers present, bit 0 V128, bit 1 V256, bit 2 V512 (R29). -/
  caps : BitVec 3
  /-- MINLEN_V128. -/
  minlen128 : Nat
  /-- MINLEN_V256. -/
  minlen256 : Nat
  /-- MINLEN_V512. -/
  minlen512 : Nat
  /-- VDEC_MARGIN. -/
  vdecMargin : Nat
  /-- POST_PAD_POLICY. -/
  postPad : PostPadPolicy
  /-- INVALID: the decode table's sentinel byte. -/
  invalid : Byte
  deriving DecidableEq, Repr

/-- The reference values of R8. -/
def Params.reference : Params where
  lenw := 64
  caps := 0b111#3
  minlen128 := 16
  minlen256 := 32
  minlen512 := 64
  vdecMargin := 4
  postPad := .terminateOk
  invalid := 0xFF#8

/-- The host-level parameters of the parallel chunker (R8, 44_parallel_chunker.md R240, R241). -/
structure ParParams where
  /-- PAR_THRESHOLD. -/
  threshold : Nat
  /-- PAR_CHUNK_ENC. -/
  chunkEnc : Nat
  /-- PAR_CHUNK_DEC. -/
  chunkDec : Nat
  deriving DecidableEq, Repr

/-- Free value (log 5): the byte an `unspecified` store or an `unspecified` host read yields, by draw number
and address (R62, R257, R291; U1, U2, U3). -/
opaque Config.freeByte : Nat → Nat → Byte

/-- Free value (log 12): a lane of a vector working register that a step leaves unspecified, by draw number, register
and lane (R35, R183, R204; U6). -/
opaque Config.freeLane : Nat → Nat → Nat → Byte

/-- Free value (log 9): which of the bytes that IN held at an address an engine read returns after a host write
while BUSY, by draw number and address (R291; U4). -/
opaque Config.freeIndex : Nat → Nat → Nat

/-- Free value (log 4): what a location of IN holds after reset number `epoch`, by address (R39, R280; U5). -/
opaque Config.powerOnIn : Nat → Nat → Byte

/-- Free value (log 4): what a location of OUT holds after reset number `epoch`, by address (R39, R280; U5). -/
opaque Config.powerOnOut : Nat → Nat → Byte

end Sys2Proof
end

