-- ==== Sys2Proof/Syntax.lean ====
section
/-! DEFINITION. The commands of B64P, one constructor per row of spec/opcode_table.json (30_encoding.md R85), and
the events of the outside: the host directives of R101, the blocking command of R100, a turn of the engine
(43_dispatcher.md R226) and the external reset (70_reset_and_hazards.md R280). -/

namespace Sys2Proof

/-- The four operations, `CMD[1:0]` (R80, R81). -/
inductive Op
  | enclen
  | decest
  | enc
  | dec
  deriving DecidableEq, Repr

/-- The sixteen commands: operation, then `S` standard or `U` URL-safe, then `N` not padded or `P` padded
(R85, R100). A command has no operand field (R84). -/
inductive Instr
  | enclenSN
  | decestSN
  | encSN
  | decSN
  | enclenUN
  | decestUN
  | encUN
  | decUN
  | enclenSP
  | decestSP
  | encSP
  | decSP
  | enclenUP
  | decestUP
  | encUP
  | decUP
  deriving DecidableEq, Repr

/-- What the outside does next (log 8). -/
inductive Event
  /-- The blocking command of R100: the host writes the word to CMD and waits until DONE, as one step (R291). -/
  | command (w : Byte)
  /-- `WR reg, value`: a host write of one register (R30, R101); a write of CMD only launches (R28). -/
  | write (reg value : Nat)
  /-- `RD reg`: a host read of one register (R30, R101). -/
  | read (reg : Nat)
  /-- `FILL IN`: the host writes bytes to `IN[a..)` (R37, R101, which has a = 0). -/
  | fillIn (a : Nat) (bytes : List Byte)
  /-- `READ OUT`: the host reads `OUT[a..a+k)` (R37, R101, which has a = 0). -/
  | readOut (a k : Nat)
  /-- `WAIT`: the host polls until `STATUS.STATE = DONE` (R101). -/
  | wait
  /-- The engine takes a step before the host's next access (R226). -/
  | engine
  /-- The external reset (R280). -/
  | reset
  deriving DecidableEq, Repr

end Sys2Proof
end

