-- ==== Sys2Proof/WellFormed.lean ====
section
/-! DEFINITION. Well-formedness: the constraints of 00_scope.md R8 on the parameters, and what a host may say at
all (register values of the register's width, 10_state.md R30; buffer addresses that exist, R37). A command has no
operands (30_encoding.md R84) and all sixteen are legal (R82), so every `Instr` is well formed. -/

namespace Sys2Proof

/-- Every command is legal (R82). -/
def Instr.wf : Instr → Bool := fun _ => true

/-- A byte with bits 7 and 6 both set, as the sentinel INVALID must be (R8, R91). -/
def Params.invalidMarked (p : Params) : Bool := decide (p.invalid &&& 0xC0#8 = 0xC0#8)

/-- The constraints of the parameter table (R8). -/
def Params.wf (p : Params) : Bool :=
  decide (8 ≤ p.lenw) && decide (16 ≤ p.minlen128) && decide (32 ≤ p.minlen256) && decide (64 ≤ p.minlen512)
    && decide (4 ≤ p.vdecMargin) && p.invalidMarked

/-- The constraints on the chunker's parameters (R8, R241). -/
def ParParams.wf (q : ParParams) : Bool :=
  decide (0 < q.chunkEnc) && decide (q.chunkEnc % 3 = 0) && decide (0 < q.chunkDec) && decide (q.chunkDec % 8 = 0)

/-- The width in bits of a register, by number (R30); 0 for a number that names no register. -/
def Params.regWidth (p : Params) : Nat → Nat
  | 0 => 4
  | 1 => 4
  | 2 => p.lenw
  | 3 => p.lenw
  | 4 => p.lenw + 1
  | 5 => 3
  | _ => 0

/-- An event a host of this block can produce: a command word of four bits (R80), a register value that fits the
register (R30), buffer locations that exist (R37). -/
def Event.wf (p : Params) : Event → Bool
  | .command w => decide (w.toNat < 16)
  | .write reg v => decide (6 ≤ reg) || decide (v < 2 ^ p.regWidth reg)
  | .read _ => true
  | .fillIn a bytes => decide (a + bytes.length ≤ 2 ^ p.lenw)
  | .readOut a k => decide (a + k ≤ 2 ^ p.lenw)
  | .wait => true
  | .engine => true
  | .reset => true

end Sys2Proof
end

