-- ==== Sys2Proof/Decode.lean ====
section
/-! DEFINITION. The command format CMD4 (30_encoding.md R80) and the opcode map (R85): fields, decoder, encoder,
mnemonics (R100). -/

namespace Sys2Proof

/-- `OP = CMD[1:0]` (R80). -/
def Op.ofBits (b : BitVec 2) : Op :=
  if b = 0b00#2 then .enclen else if b = 0b01#2 then .decest else if b = 0b10#2 then .enc else .dec

/-- The field `OP` of a command word (R80). -/
def cmdOp (w : BitVec 4) : Op := Op.ofBits (w.extractLsb' 0 2)

/-- The field `URL` of a command word (R80): true selects the URL-safe alphabet. -/
def cmdUrl (w : BitVec 4) : Bool := w.getLsbD 2

/-- The field `PAD` of a command word (R80): true asks for padding. -/
def cmdPad (w : BitVec 4) : Bool := w.getLsbD 3

/-- The command with given fields: operation, URL, PAD (R84, R85). -/
def Instr.ofFields : Op → Bool → Bool → Instr
  | .enclen, false, false => .enclenSN
  | .decest, false, false => .decestSN
  | .enc, false, false => .encSN
  | .dec, false, false => .decSN
  | .enclen, true, false => .enclenUN
  | .decest, true, false => .decestUN
  | .enc, true, false => .encUN
  | .dec, true, false => .decUN
  | .enclen, false, true => .enclenSP
  | .decest, false, true => .decestSP
  | .enc, false, true => .encSP
  | .dec, false, true => .decSP
  | .enclen, true, true => .enclenUP
  | .decest, true, true => .decestUP
  | .enc, true, true => .encUP
  | .dec, true, true => .decUP

/-- The decoder of CMD4: total, no reserved value (R82). -/
def decode (w : BitVec 4) : Instr := Instr.ofFields (cmdOp w) (cmdUrl w) (cmdPad w)

/-- Why a byte is no command. -/
inductive DecodeReject
  /-- A command is 4 bits (R80): a byte with a bit above bit 3 set is none (log 22). -/
  | widerThanCmd4 (w : Byte)
  deriving DecidableEq, Repr

/-- The decoder on bytes: total, rejecting by name. -/
def decodeByte (b : Byte) : Except DecodeReject Instr :=
  if b.toNat < 16 then .ok (decode (b.setWidth 4)) else .error (.widerThanCmd4 b)

/-- The encoder: the opcode map, row by row (R85). -/
def encode : Instr → BitVec 4
  | .enclenSN => 0b0000#4
  | .decestSN => 0b0001#4
  | .encSN => 0b0010#4
  | .decSN => 0b0011#4
  | .enclenUN => 0b0100#4
  | .decestUN => 0b0101#4
  | .encUN => 0b0110#4
  | .decUN => 0b0111#4
  | .enclenSP => 0b1000#4
  | .decestSP => 0b1001#4
  | .encSP => 0b1010#4
  | .decSP => 0b1011#4
  | .enclenUP => 0b1100#4
  | .decestUP => 0b1101#4
  | .encUP => 0b1110#4
  | .decUP => 0b1111#4

/-- The operation a command names. -/
def Instr.op (i : Instr) : Op := cmdOp (encode i)

/-- Whether a command selects the URL-safe alphabet. -/
def Instr.url (i : Instr) : Bool := cmdUrl (encode i)

/-- Whether a command asks for padding. -/
def Instr.pad (i : Instr) : Bool := cmdPad (encode i)

/-- The operation's part of a mnemonic (R100). -/
def Op.mnemonic : Op → String
  | .enclen => "ENCLEN"
  | .decest => "DECEST"
  | .enc => "ENC"
  | .dec => "DEC"

/-- The mnemonic `<OP>.<A><P>` (R100). -/
def Instr.mnemonic (i : Instr) : String :=
  i.op.mnemonic ++ "." ++ (if i.url then "U" else "S") ++ (if i.pad then "P" else "N")

/-- The byte that carries a command: its word, the bits above bit 3 zero. -/
def Instr.byte (i : Instr) : Byte := (encode i).setWidth 8

/-- The instruction the decoder reads from a table word of `nbits` bits (bit 0 least significant). -/
def decodeTableWord (nbits w : Nat) : Option Instr :=
  (decodeByte (BitVec.ofNat 8 (w % 2 ^ nbits))).toOption

end Sys2Proof
end

