-- ==== Sys2Proof/Machine/Alphabet.lean ====
section
/-! DEFINITION. The constant tables: the two alphabets (30_encoding.md R88 to R90), the padding character (R86) and
the two decode tables (R91 to R93). -/

namespace Sys2Proof.Machine

/-- The padding character `=`, byte 0x3D (R86). -/
def padChar : Byte := 0x3D#8

/-- Indices 0 to 15 of both alphabets, `A` to `P` (R90). -/
def alphaAtoP : List Byte :=
  [0x41, 0x42, 0x43, 0x44, 0x45, 0x46, 0x47, 0x48, 0x49, 0x4A, 0x4B, 0x4C, 0x4D, 0x4E, 0x4F, 0x50]

/-- Indices 16 to 31 of both alphabets, `Q` to `Z` and `a` to `f` (R90). -/
def alphaQtoF : List Byte :=
  [0x51, 0x52, 0x53, 0x54, 0x55, 0x56, 0x57, 0x58, 0x59, 0x5A, 0x61, 0x62, 0x63, 0x64, 0x65, 0x66]

/-- Indices 32 to 47 of both alphabets, `g` to `v` (R90). -/
def alphaGtoV : List Byte :=
  [0x67, 0x68, 0x69, 0x6A, 0x6B, 0x6C, 0x6D, 0x6E, 0x6F, 0x70, 0x71, 0x72, 0x73, 0x74, 0x75, 0x76]

/-- Indices 48 to 61 of both alphabets, `w` to `z` and `0` to `9` (R90). -/
def alphaWto9 : List Byte :=
  [0x77, 0x78, 0x79, 0x7A, 0x30, 0x31, 0x32, 0x33, 0x34, 0x35, 0x36, 0x37, 0x38, 0x39]

/-- Symbol 62: `+` or, URL-safe, `-` (R88, R89). -/
def sym62 (url : Bool) : Byte := if url then 0x2D#8 else 0x2B#8

/-- Symbol 63: `/` or, URL-safe, `_` (R88, R89). -/
def sym63 (url : Bool) : Byte := if url then 0x5F#8 else 0x2F#8

/-- The alphabet `ALPHA(url)` as a sequence of 64 bytes (R88, R89, R90). -/
def alphabet (url : Bool) : List Byte :=
  alphaAtoP ++ alphaQtoF ++ alphaGtoV ++ alphaWto9 ++ [sym62 url, sym63 url]

/-- `ALPHA(url)[i]` (R88, R89). -/
def alpha (url : Bool) (i : Sextet) : Byte := (alphabet url).getD i.toNat 0#8

/-- `DT(url)[c]`, in the closed form of R93, with the sentinel `invalid` (R91); the entry of `=` is the sentinel
(R92). -/
def dt (invalid : Byte) (url : Bool) (c : Byte) : Byte :=
  if 0x41#8 ≤ c ∧ c ≤ 0x5A#8 then c - 65#8
  else if 0x61#8 ≤ c ∧ c ≤ 0x7A#8 then c - 71#8
  else if 0x30#8 ≤ c ∧ c ≤ 0x39#8 then c + 4#8
  else if c = sym62 url then 62#8
  else if c = sym63 url then 63#8
  else invalid

end Sys2Proof.Machine
end

