-- ==== Sys2Proof/Machine/State.lean ====
section
/-! DEFINITION. The state of a B64P block (10_state.md R20 to R39), as plain data, its stops, and the state after
reset. INVENTORY.md, '## State', lists every field with its rule, width and reset value. -/

namespace Sys2Proof.Machine

/-- The four tiers (R32; 00_scope.md R2). -/
inductive Tier
  | scalar
  | v128
  | v256
  | v512
  deriving DecidableEq, Repr

/-- Where an operation stands (R33). The codes 6 and 7 do not exist (log 17). -/
inductive Phase
  | idle
  | check
  | vloop
  | sloop
  | tail
  | done
  deriving DecidableEq, Repr

/-- The closed set of error results (60_exceptions.md R250). -/
inductive ErrorKind
  | invalidLength
  | invalidCharacter
  | bufferTooSmall
  deriving DecidableEq, Repr

/-- The working registers of one vector tier, by byte lanes, lane 0 first: each `V` lanes of one chunk (R35; log 12).
The class masks are one register a class (R198). No rule reads any of them across steps. -/
structure VecRegs where
  loaded : List Byte
  shuffled : List Byte
  product1 : List Byte
  product2 : List Byte
  index : List Byte
  maskUpper : List Byte
  maskLower : List Byte
  maskDigit : List Byte
  maskSym62 : List Byte
  maskSym63 : List Byte
  result : List Byte
  deriving DecidableEq, Repr

/-- The working registers of the three vector tiers (R2, R35). -/
structure VecUnits where
  v128 : VecRegs
  v256 : VecRegs
  v512 : VecRegs
  deriving DecidableEq, Repr

/-- A byte memory: the locations written since reset with their bytes, addresses strictly rising. A location not
listed holds an unspecified byte (log 4). -/
abbrev Memory := List Host.Cell

/-- The two byte buffers (R37). -/
inductive Buffer
  | bufIn
  | bufOut
  deriving DecidableEq, Repr

/-- What a host access returned (R101; log 27). -/
inductive Obs
  | reg (number value : Nat)
  | out (a : Nat) (bytes : List Byte)
  deriving DecidableEq, Repr

/-- The state of one block (R20), the parameters of its build (R21), and the model's own fields. Lengths and
positions are natural numbers bounded by the register widths (R10, R112; `Safety.lean` states the bounds). -/
structure State where
  /-- The parameters (R8, R21), CAPS among them (R29). -/
  cfg : Params
  /-- CMD (R28). -/
  cmd : BitVec 4
  /-- STATUS.ERR (R24); STATUS.STATE is a function of `phase` (R33). -/
  err : Option ErrorKind
  /-- ILEN (R22). -/
  ilen : Nat
  /-- OCAP (R23). -/
  ocap : Nat
  /-- RLEN (R25). -/
  rlen : Nat
  /-- L_OP (R31). -/
  lOp : Op
  /-- L_URL (R31). -/
  lUrl : Bool
  /-- L_PAD (R31). -/
  lPad : Bool
  /-- L_N (R31). -/
  lN : Nat
  /-- L_CAP (R31). -/
  lCap : Nat
  /-- TIER (R32). -/
  tier : Tier
  /-- PHASE (R33). -/
  phase : Phase
  /-- IPOS (R27). -/
  ipos : Nat
  /-- OPOS (R27). -/
  opos : Nat
  /-- ACC (R34). -/
  acc : Byte
  /-- The vector working registers, tier by tier (R35). -/
  vec : VecUnits
  /-- IN (R37). -/
  inMem : Memory
  /-- OUT (R37). -/
  outMem : Memory
  /-- Model's own (log 9): bytes of IN that a host overwrote while BUSY, newest first (R291). -/
  inRace : List Host.Cell
  /-- Model's own (log 14): how many resets there have been. -/
  epoch : Nat
  /-- Model's own (log 18): the number of the next draw of free values. -/
  draws : Nat
  /-- Model's own (log 8): what the outside does next. -/
  events : List Event
  /-- Model's own (log 27): what the host has read, oldest first. -/
  obs : List Obs
  deriving DecidableEq, Repr

/-- The model's only faults. B64P itself never faults (93_implementation_defined.md, part 1). -/
inductive Fault
  /-- Raised by a host access (`fillIn`, `readOut`) to a location outside `0 .. 2^LENW - 1`, which does not exist
  (R37, 20_memory.md R50). Safe: the machine stops (log 15). -/
  | noSuchLocation (buffer : Buffer) (a : Nat)
  deriving DecidableEq, Repr

/-- The model's refusals. -/
inductive Refusal
  /-- Raised by an arm of `exec` that has no meaning yet; no arm does. Safe. -/
  | notModelled (mnemonic : String)
  /-- Raised by `step` when the byte given as a command is no CMD4 word (30_encoding.md R80). Safe (log 22). -/
  | notACommand (w : Byte)
  deriving DecidableEq, Repr

/-- The working registers of a tier of `n` byte lanes after reset: the spec says unspecified; DESIGN CHOICE zero lanes
(log 12). -/
def VecRegs.zero (n : Nat) : VecRegs :=
  let z := List.replicate n 0#8
  { loaded := z, shuffled := z, product1 := z, product2 := z, index := z, maskUpper := z, maskLower := z, maskDigit := z
    maskSym62 := z, maskSym63 := z, result := z }

/-- The state after reset (R39, 70_reset_and_hazards.md R280), with the reference parameters (R8; log 2). -/
def State.reset : State where
  cfg := Params.reference
  cmd := 0#4
  err := none
  ilen := 0
  ocap := 0
  rlen := 0
  lOp := .enclen
  lUrl := false
  lPad := false
  lN := 0
  lCap := 0
  tier := .scalar
  phase := .idle
  ipos := 0
  opos := 0
  acc := 0#8
  vec := { v128 := VecRegs.zero 16, v256 := VecRegs.zero 32, v512 := VecRegs.zero 64 }
  inMem := []
  outMem := []
  inRace := []
  epoch := 0
  draws := 0
  events := []
  obs := []

end Sys2Proof.Machine
end

