-- ==== Sys2Proof/Machine/Flags.lean ====
section
/-! DEFINITION. The flag computations: the fields of STATUS (10_state.md R24, R33), the codes of PHASE and TIER
(R32, R33), and the OR-accumulator test of the decode table (R34; 41_scalar_kernel.md R150). -/

namespace Sys2Proof.Machine

/-- `code(E)` (60_exceptions.md R256). -/
def ErrorKind.code : ErrorKind → BitVec 2
  | .invalidLength => 1#2
  | .invalidCharacter => 2#2
  | .bufferTooSmall => 3#2

/-- The code of `STATUS.ERR`, 0 for none (R24). -/
def errCode : Option ErrorKind → BitVec 2
  | none => 0#2
  | some e => e.code

/-- The code of PHASE (R33). -/
def Phase.code : Phase → BitVec 3
  | .idle => 0#3
  | .check => 1#3
  | .vloop => 2#3
  | .sloop => 3#3
  | .tail => 4#3
  | .done => 5#3

/-- The code of TIER (R32). -/
def Tier.code : Tier → BitVec 2
  | .scalar => 0#2
  | .v128 => 1#2
  | .v256 => 2#2
  | .v512 => 3#2

/-- The code of L_OP (R28). -/
def opCode : Op → BitVec 2
  | .enclen => 0#2
  | .decest => 1#2
  | .enc => 2#2
  | .dec => 3#2

/-- `STATUS.STATE` as a function of PHASE: IDLE 0, BUSY 1, DONE 2 (R24, R33). -/
def Phase.stateCode : Phase → BitVec 2
  | .idle => 0#2
  | .check => 1#2
  | .vloop => 1#2
  | .sloop => 1#2
  | .tail => 1#2
  | .done => 2#2

/-- Whether an operation is in progress: `STATUS.STATE = BUSY` (R24, R33). -/
def Phase.busy (p : Phase) : Bool := decide (p.stateCode = 1#2)

/-- `STATUS.STATE = BUSY`. -/
def State.busy (s : State) : Bool := s.phase.busy

/-- The register STATUS: ERR in bits 3:2, STATE in bits 1:0 (R24). -/
def State.status (s : State) : BitVec 4 := errCode s.err ++ s.phase.stateCode

/-- The OR of decode-table results (R34, R150). -/
def orAll : List Byte → Byte
  | [] => 0#8
  | v :: vs => v ||| orAll vs

/-- `bad(v, …)`: a set of lookups is not valid, `((v | …) & 0xC0) ≠ 0` (R34, R91, R150, R160). -/
def bad (vs : List Byte) : Bool := decide (orAll vs &&& 0xC0#8 ≠ 0#8)

end Sys2Proof.Machine
end

