-- ==== Sys2Proof/Machine/Shuffle.lean ====
section
/-! DEFINITION. The reference transformation: the 6-bit shuffle and the two whole-buffer functions ENC_REF and
DEC_REF of 41_scalar_kernel.md (R141 to R162), and the length functions of 40_engine_ops.md (R113, R116). -/

namespace Sys2Proof.Machine

/-- `encoded_len(pad, n)` (R113). -/
def encodedLen (pad : Bool) (n : Nat) : Nat :=
  if pad then (n + 2) / 3 * 4 else (4 * n + 2) / 3

/-- `estimate_decoded_len(n)` (R116). -/
def estimateDecodedLen (n : Nat) : Nat := (n / 4 + 1) * 3

/-- `SPLIT3`: the four 6-bit fields of the 24-bit number formed by three bytes, the first most significant (R141). -/
def split3 (b0 b1 b2 : Byte) : Sextet × Sextet × Sextet × Sextet :=
  let t := b0 ++ b1 ++ b2
  (t.extractLsb' 18 6, t.extractLsb' 12 6, t.extractLsb' 6 6, t.extractLsb' 0 6)

/-- `JOIN4`: the three bytes of the 24-bit number formed by four 6-bit values (R152). -/
def join4 (v0 v1 v2 v3 : Sextet) : List Byte :=
  let t := v0 ++ v1 ++ v2 ++ v3
  [t.extractLsb' 16 8, t.extractLsb' 8 8, t.extractLsb' 0 8]

/-- `JOIN2`: one byte from two values, the low four bits of the second discarded (R153). -/
def join2 (v0 v1 : Sextet) : List Byte :=
  let t := v0 ++ v1
  [t.extractLsb' 4 8]

/-- `JOIN3`: two bytes from three values, the low two bits of the third discarded (R153). -/
def join3 (v0 v1 v2 : Sextet) : List Byte :=
  let t := v0 ++ v1 ++ v2
  [t.extractLsb' 10 8, t.extractLsb' 2 8]

/-- `ENC_GROUP` (R142). -/
def encGroup (url : Bool) (b0 b1 b2 : Byte) : List Byte :=
  let (i0, i1, i2, i3) := split3 b0 b1 b2
  [alpha url i0, alpha url i1, alpha url i2, alpha url i3]

/-- `ENC_REM1`: a final single byte, the missing bits zero (R143). -/
def encRem1 (url pad : Bool) (b0 : Byte) : List Byte :=
  let (i0, i1, _, _) := split3 b0 0#8 0#8
  [alpha url i0, alpha url i1] ++ (if pad then [padChar, padChar] else [])

/-- `ENC_REM2`: a final pair of bytes, the missing bits zero (R144). -/
def encRem2 (url pad : Bool) (b0 b1 : Byte) : List Byte :=
  let (i0, i1, i2, _) := split3 b0 b1 0#8
  [alpha url i0, alpha url i1, alpha url i2] ++ (if pad then [padChar] else [])

/-- `ENC_REF` (R146). -/
def encRef (url pad : Bool) : List Byte → List Byte
  | [] => []
  | [b0] => encRem1 url pad b0
  | [b0, b1] => encRem2 url pad b0 b1
  | b0 :: b1 :: b2 :: rest => encGroup url b0 b1 b2 ++ encRef url pad rest

/-- A decode-table value as a 6-bit value (a valid entry has bits 7 and 6 clear, R91). -/
def sextet (v : Byte) : Sextet := v.setWidth 6

/-- `TAILSTART(n)` (R155). -/
def tailStart (n : Nat) : Nat := if 4 ≤ n then 8 * ((n - 4) / 8) else 0

/-- Decoding of one strict 4-character group: four lookups, all valid, three bytes (R156; R157, `c3 ≠ '='`). -/
def decStrictGroup (p : Params) (url : Bool) (c0 c1 c2 c3 : Byte) : Except ErrorKind (List Byte) :=
  let v0 := dt p.invalid url c0
  let v1 := dt p.invalid url c1
  let v2 := dt p.invalid url c2
  let v3 := dt p.invalid url c3
  if bad [v0, v1, v2, v3] then .error .invalidCharacter
  else .ok (join4 (sextet v0) (sextet v1) (sextet v2) (sextet v3))

/-- Two characters to one byte: the last group `xx==` and the remainder of two (R157, R159). -/
def decPair (p : Params) (url : Bool) (c0 c1 : Byte) : Except ErrorKind (List Byte) :=
  let v0 := dt p.invalid url c0
  let v1 := dt p.invalid url c1
  if bad [v0, v1] then .error .invalidCharacter
  else .ok (join2 (sextet v0) (sextet v1))

/-- Three characters to two bytes: the last group `xxx=` and the remainder of three (R157, R159). -/
def decTriple (p : Params) (url : Bool) (c0 c1 c2 : Byte) : Except ErrorKind (List Byte) :=
  let v0 := dt p.invalid url c0
  let v1 := dt p.invalid url c1
  let v2 := dt p.invalid url c2
  if bad [v0, v1, v2] then .error .invalidCharacter
  else .ok (join3 (sextet v0) (sextet v1) (sextet v2))

/-- A padded group, `c3 = '='`: `xx==` or `xxx=` (R157). -/
def decPaddedGroup (p : Params) (url : Bool) (c0 c1 c2 : Byte) : Except ErrorKind (List Byte) :=
  if c2 = padChar then decPair p url c0 c1 else decTriple p url c0 c1 c2

/-- What follows a padded group: nothing, or what POST_PAD_POLICY says (R158). -/
def afterPad (p : Params) (more : Bool) (out : List Byte) : Except ErrorKind (List Byte) :=
  if more && decide (p.postPad = .reject) then .error .invalidCharacter else .ok out

/-- The bulk of `DEC_REF`: strict groups (R156, R160 first loop). A list whose length is no multiple of 4 keeps
its rest undecoded; the bulk never has one (R155). -/
def decBulk (p : Params) (url : Bool) : List Byte → Except ErrorKind (List Byte)
  | c0 :: c1 :: c2 :: c3 :: rest => do
    let g ← decStrictGroup p url c0 c1 c2 c3
    let out ← decBulk p url rest
    return g ++ out
  | _ => .ok []

/-- The tail of `DEC_REF`: full groups, a padded group that ends it, the short remainder (R157, R158, R159, R160
second loop and after). -/
def decTail (p : Params) (url pad : Bool) : List Byte → Except ErrorKind (List Byte)
  | [] => .ok []
  | [_] => .error .invalidLength
  | [c0, c1] => if pad then .error .invalidLength else decPair p url c0 c1
  | [c0, c1, c2] => if pad then .error .invalidLength else decTriple p url c0 c1 c2
  | c0 :: c1 :: c2 :: c3 :: rest =>
    if c3 = padChar then do
      let g ← decPaddedGroup p url c0 c1 c2
      afterPad p (!rest.isEmpty) g
    else do
      let g ← decStrictGroup p url c0 c1 c2 c3
      let out ← decTail p url pad rest
      return g ++ out

/-- `DEC_REF` with the tail window starting at `t` (R160, R161 (b)). -/
def decRefAt (p : Params) (url pad : Bool) (t : Nat) (input : List Byte) : Except ErrorKind (List Byte) := do
  let a ← decBulk p url (input.take t)
  let b ← decTail p url pad (input.drop t)
  return a ++ b

/-- `DEC_REF` (R160). -/
def decRef (p : Params) (url pad : Bool) (input : List Byte) : Except ErrorKind (List Byte) :=
  decRefAt p url pad (tailStart input.length) input

end Sys2Proof.Machine
end

