-- ==== Sys2Proof/Machine/Ops.lean ====
section
/-! DEFINITION. The named operations over memory and registers: byte memories (20_memory.md R57), the launch
(10_state.md R28), the two completions Ok and raise (60_exceptions.md R255, R256; the block's only exception entry,
R262, with no return, R263), stream positions (R27). -/

namespace Sys2Proof.Machine

/-! ### Byte memories -/

/-- The canonical form of a memory: addresses strictly rising. -/
abbrev Memory.wf (m : Memory) : Prop := m.Pairwise fun x y => x.1 < y.1

/-- The byte written at an address since reset, if any. An address not listed reads as none (log 4). -/
def Memory.get : Memory → Nat → Option Byte
  | [], _ => none
  | (k, b) :: rest, a => if k = a then some b else Memory.get rest a

/-- One byte written, the form kept. -/
def Memory.put : Memory → Nat → Byte → Memory
  | [], a, b => [(a, b)]
  | (k, c) :: rest, a, b =>
    if a < k then (a, b) :: (k, c) :: rest
    else if a = k then (a, b) :: rest
    else (k, c) :: Memory.put rest a b

/-- `MemWrite`: the bytes of a sequence at ascending addresses (R12, R57). -/
def Memory.store : Memory → Nat → List Byte → Memory
  | m, _, [] => m
  | m, a, b :: bs => Memory.store (m.put a b) (a + 1) bs

/-! ### OUT -/

/-- `MemWrite(OUT, a, …)` (R12, R57). -/
def State.writeOut (s : State) (a : Nat) (bytes : List Byte) : State :=
  { s with outMem := s.outMem.store a bytes }

/-- `k` free bytes at address `a` in the present draw (log 5). -/
def State.freeBytes (s : State) (a k : Nat) : List Byte :=
  (List.range k).map fun i => Config.freeByte s.draws (a + i)

/-- The free lanes of the present draw, by register and lane (log 12). -/
def State.freeLane (s : State) : Nat → Nat → Byte := Config.freeLane s.draws

/-- `OUT[a..a+k) <- unspecified` (R62, R257; logs 5, 6). -/
def State.freeOut (s : State) (a k : Nat) : State := s.writeOut a (s.freeBytes a k)

/-! ### Registers of the engine -/

/-- `IPOS <- IPOS + i; OPOS <- OPOS + o` (R27). -/
def State.advance (s : State) (i o : Nat) : State :=
  { s with ipos := s.ipos + i, opos := s.opos + o }

/-- `PHASE <- p` (R33). -/
def State.setPhase (s : State) (p : Phase) : State := { s with phase := p }

/-- `TIER <- t` (R221). -/
def State.setTier (s : State) (t : Tier) : State := { s with tier := t }

/-- `ACC <- v` (R34). -/
def State.setAcc (s : State) (v : Byte) : State := { s with acc := v }

/-- The vector working registers (R35). -/
def State.setVec (s : State) (v : VecUnits) : State := { s with vec := v }

/-- The next draw of free values (log 18). -/
def State.nextDraw (s : State) : State := { s with draws := s.draws + 1 }

/-- The rest of what the outside does (log 8). -/
def State.setEvents (s : State) (es : List Event) : State := { s with events := es }

/-- A host read recorded (log 27). -/
def State.observe (s : State) (o : Obs) : State := { s with obs := s.obs ++ [o] }

/-- `Ok(m)`: successful completion (R255). -/
def State.ok (s : State) (m : Nat) : State := { s with rlen := m, err := none, phase := .done }

/-- `raise E`: completion with an error (R256). Nothing else is saved and control goes nowhere (R262). -/
def State.raise (s : State) (e : ErrorKind) : State := { s with rlen := 0, err := some e, phase := .done }

/-- The launch: CMD takes the word and the operands are latched (R28). -/
def State.launch (s : State) (w : BitVec 4) : State :=
  { s with
    cmd := w
    lOp := cmdOp w
    lUrl := cmdUrl w
    lPad := cmdPad w
    lN := s.ilen
    lCap := s.ocap
    ipos := 0
    opos := 0
    acc := 0#8
    phase := .check
    err := none
    rlen := 0
    inRace := [] }

end Sys2Proof.Machine
end

