-- ==== Sys2Proof/Machine/Operands.lean ====
section
/-! DEFINITION. The operands of a command, all implicit (30_encoding.md R84): the input bytes read from IN
(00_scope.md R12; 20_memory.md R59), and the capacity an operation requires (40_engine_ops.md R121, R127). -/

namespace Sys2Proof.Machine

/-- The byte `IN[a]` holds: the one written since reset, else the unspecified power-on byte (R37, R39; log 4). -/
def State.inCell (s : State) (a : Nat) : Byte := (s.inMem.get a).getD (Config.powerOnIn s.epoch a)

/-- The byte `OUT[a]` holds (R37, R39; log 4). -/
def State.outCell (s : State) (a : Nat) : Byte := (s.outMem.get a).getD (Config.powerOnOut s.epoch a)

/-- The bytes that host writes while BUSY replaced at an address (R291; log 9). -/
def staleAt (race : List Host.Cell) (a : Nat) : List Byte :=
  (race.filter fun c => decide (c.1 = a)).map fun c => c.2

/-- An engine read of `IN[a]`: the byte there, or, after host writes while BUSY, by free choice that byte or one it
replaced (R291; log 9). -/
def State.inByte (s : State) (a : Nat) : Byte :=
  match staleAt s.inRace a with
  | [] => s.inCell a
  | old :: olds =>
    let held := s.inCell a :: old :: olds
    held.getD (Config.freeIndex s.draws a % held.length) (s.inCell a)

/-- `MemRead(IN, a, k)` (R12). -/
def State.readIn (s : State) (a k : Nat) : List Byte := (List.range k).map fun i => s.inByte (a + i)

/-- The input of an operation, `IN[0..n)`, as the host left it (R11). -/
def State.input (s : State) (n : Nat) : List Byte := (List.range n).map s.inCell

/-- The first `k` bytes of OUT. -/
def State.output (s : State) (k : Nat) : List Byte := (List.range k).map s.outCell

/-- `required`: the capacity the latched operation needs (R121, R127, 43_dispatcher.md R225). -/
def State.required (s : State) : Nat :=
  match s.lOp with
  | .enclen => 0
  | .decest => 0
  | .enc => encodedLen s.lPad s.lN
  | .dec => estimateDecodedLen s.lN

end Sys2Proof.Machine
end

