-- ==== Sys2Proof/Machine/VectorUnit.lean ====
section
/-! DEFINITION. The vector datapath, stage by stage, on one 128-bit sub-lane (42_vector_kernels.md R182 to R207):
the concrete realisation the spec gives, with its constants (log 16). The normative function of a chunk is R181;
`Laws/Vector.lean` proves that the realisation computes it. -/

namespace Sys2Proof.Machine

/-! ### Lanes -/

/-- The 32-bit lane of four byte lanes, lowest byte lane least significant (R35). -/
def lane32 (b0 b1 b2 b3 : Byte) : Lane32 := b3 ++ b2 ++ b1 ++ b0

/-- The four byte lanes of a 32-bit lane (R35). -/
def bytes32 (l : Lane32) : List Byte :=
  [l.extractLsb' 0 8, l.extractLsb' 8 8, l.extractLsb' 16 8, l.extractLsb' 24 8]

/-- The two byte lanes of a 16-bit lane (R35). -/
def bytes16 (l : Lane16) : List Byte := [l.extractLsb' 0 8, l.extractLsb' 8 8]

/-- The 32-bit lanes of a sequence of byte lanes (R35). -/
def lanes32 : List Byte → List Lane32
  | b0 :: b1 :: b2 :: b3 :: rest => lane32 b0 b1 b2 b3 :: lanes32 rest
  | _ => []

/-- A byte shuffle: destination lane `k` takes source lane `pattern[k]`. -/
def shuffleBytes (pattern : List Nat) (src : List Byte) : List Byte :=
  pattern.map fun k => src.getD k 0#8

/-! ### Encode stages -/

/-- The encode shuffle pattern (R183). -/
def encPattern : List Nat := [1, 0, 2, 1, 4, 3, 5, 4, 7, 6, 8, 7, 10, 9, 11, 10]

/-- `mulhi_u16` on one 16-bit lane: the high half of the unsigned product (R186, 40_engine_ops.md R134). -/
def mulhiLane (a m : Lane16) : Lane16 := ((a.setWidth 32 * m.setWidth 32) >>> 16).setWidth 16

/-- `mullo_u16` on one 16-bit lane: the low half of the product (R186, R134). -/
def mulloLane (a m : Lane16) : Lane16 := a * m

/-- `mulhi_u16` on the two halves of a 32-bit lane (R186). -/
def mulhiU16 (a m : Lane32) : Lane32 :=
  mulhiLane (a.extractLsb' 16 16) (m.extractLsb' 16 16) ++ mulhiLane (a.extractLsb' 0 16) (m.extractLsb' 0 16)

/-- `mullo_u16` on the two halves of a 32-bit lane (R186). -/
def mulloU16 (a m : Lane32) : Lane32 :=
  mulloLane (a.extractLsb' 16 16) (m.extractLsb' 16 16) ++ mulloLane (a.extractLsb' 0 16) (m.extractLsb' 0 16)

/-- The multiply-high product of the index extraction (R186, `t1`). -/
def encProductHigh (l : Lane32) : Lane32 := mulhiU16 (l &&& 0x0FC0FC00#32) 0x04000040#32

/-- The multiply-low product of the index extraction (R186, `t3`). -/
def encProductLow (l : Lane32) : Lane32 := mulloU16 (l &&& 0x003F03F0#32) 0x01000010#32

/-- The constant `K62` (R188): −15, or −13 URL-safe. -/
def k62 (url : Bool) : Byte := if url then 243#8 else 241#8

/-- The constant `K63` (R188): −12, or +36 URL-safe. -/
def k63 (url : Bool) : Byte := if url then 36#8 else 244#8

/-- The comparison-mask-and-add chain of the alphabet lookup, additions modulo 256 (R187, R188). -/
def translateIndex (url : Bool) (i : Byte) : Byte :=
  let c := i + 65#8
  let c := if 25#8 < i then c + 6#8 else c
  let c := if 51#8 < i then c + 181#8 else c
  let c := if i = 62#8 then c + k62 url else c
  if i = 63#8 then c + k63 url else c

/-- `n` lanes of register `r` from lane `k` on that a stage leaves unspecified, as free lanes `g` gives them (log 12).
Registers are numbered in the order of `VecRegs`, from 0. -/
def freeLanes (g : Nat → Nat → Byte) (r k n : Nat) : List Byte := (List.range n).map fun i => g r (k + i)

/-- The working registers one encode sub-lane leaves, its 12 input bytes given (R182 to R189). Lanes 12 to 15 of the
load are not used (R183), and an encode classifies nothing: free lanes. -/
def encSubLane (url : Bool) (g : Nat → Nat → Byte) (x : List Byte) : VecRegs :=
  let shuffled := shuffleBytes encPattern x
  let lanes := lanes32 shuffled
  let high := lanes.map encProductHigh
  let low := lanes.map encProductLow
  let index := (List.zipWith (fun a b => a ||| b) high low).flatMap bytes32
  { loaded := x ++ freeLanes g 0 12 4, shuffled := shuffled, product1 := high.flatMap bytes32
    product2 := low.flatMap bytes32, index := index, maskUpper := freeLanes g 5 0 16, maskLower := freeLanes g 6 0 16
    maskDigit := freeLanes g 7 0 16, maskSym62 := freeLanes g 8 0 16, maskSym63 := freeLanes g 9 0 16
    result := index.map (translateIndex url) }

/-! ### Decode stages -/

/-- The five classes of a character (R198). -/
inductive CharClass
  | upper
  | lower
  | digit
  | sym62
  | sym63
  deriving DecidableEq, Repr

/-- Classification by unsigned range and equality comparisons (R198). -/
def classify (url : Bool) (c : Byte) : Option CharClass :=
  if 0x41#8 ≤ c ∧ c ≤ 0x5A#8 then some .upper
  else if 0x61#8 ≤ c ∧ c ≤ 0x7A#8 then some .lower
  else if 0x30#8 ≤ c ∧ c ≤ 0x39#8 then some .digit
  else if c = alpha url 62#6 then some .sym62
  else if c = alpha url 63#6 then some .sym63
  else none

/-- The mask of one class at one byte lane: all ones when the byte is of the class, else all zeros (R198, R208). -/
def classMask (url : Bool) (k : CharClass) (c : Byte) : Byte := if classify url c = some k then 0xFF#8 else 0#8

/-- The index of a classified byte: a class-specific delta or a fixed value (R200). -/
def classValue (c : Byte) : CharClass → Byte
  | .upper => c - 65#8
  | .lower => c - 71#8
  | .digit => c + 4#8
  | .sym62 => 62#8
  | .sym63 => 63#8

/-- The index of a byte; an unclassified byte fails the chunk before its index is used (R199), here 0. -/
def charIndex (url : Bool) (c : Byte) : Byte :=
  match classify url c with
  | some k => classValue c k
  | none => 0#8

/-- An exact sum narrowed to a signed 16-bit lane with saturation (R203, R134). -/
def saturate16 (x : Int) : Lane16 := BitVec.ofInt 16 (max (-32768) (min 32767 x))

/-- The first multiply-add on one 16-bit lane: unsigned bytes by signed bytes 0x40 and 0x01 (R203). -/
def multiplyAddBytes (v0 v1 : Byte) : Lane16 :=
  saturate16 ((v0.toNat : Int) * (0x40#8).toInt + (v1.toNat : Int) * (0x01#8).toInt)

/-- The second multiply-add on one 32-bit lane: signed 16-bit lanes by 0x1000 and 0x0001 (R204). -/
def multiplyAddWords (m0 m1 : Lane16) : Lane32 :=
  BitVec.ofInt 32 (m0.toInt * (0x1000#16).toInt + m1.toInt * (0x0001#16).toInt)

/-- The first multiply-add on all byte lanes (R203). -/
def pairLanes : List Byte → List Lane16
  | v0 :: v1 :: rest => multiplyAddBytes v0 v1 :: pairLanes rest
  | _ => []

/-- The second multiply-add on all 16-bit lanes (R204). -/
def quadLanes : List Lane16 → List Lane32
  | m0 :: m1 :: rest => multiplyAddWords m0 m1 :: quadLanes rest
  | _ => []

/-- The pack shuffle's destination lanes 0 to 11 (R204); lanes 12 to 15 are garbage. -/
def packPattern : List Nat := [2, 1, 0, 6, 5, 4, 10, 9, 8, 14, 13, 12]

/-- The working registers one decode sub-lane leaves, its 16 characters given (R195 to R204). Lanes 12 to 15 of the
pack shuffle are garbage (R201, R204), and a decode shuffles nothing after its load: free lanes. -/
def decSubLane (url : Bool) (g : Nat → Nat → Byte) (c : List Byte) : VecRegs :=
  let index := c.map (charIndex url)
  let m1 := pairLanes index
  let m2 := quadLanes m1
  { loaded := c, shuffled := freeLanes g 1 0 16, product1 := m1.flatMap bytes16, product2 := m2.flatMap bytes32
    index := index, maskUpper := c.map (classMask url .upper), maskLower := c.map (classMask url .lower)
    maskDigit := c.map (classMask url .digit), maskSym62 := c.map (classMask url .sym62)
    maskSym63 := c.map (classMask url .sym63)
    result := shuffleBytes packPattern (m2.flatMap bytes32) ++ freeLanes g 10 12 4 }

/-! ### Wider tiers: independent sub-lanes (R207) -/

/-- The registers of a whole chunk from those of its sub-lanes, lowest sub-lane first (R207). -/
def VecRegs.append (a b : VecRegs) : VecRegs where
  loaded := a.loaded ++ b.loaded
  shuffled := a.shuffled ++ b.shuffled
  product1 := a.product1 ++ b.product1
  product2 := a.product2 ++ b.product2
  index := a.index ++ b.index
  maskUpper := a.maskUpper ++ b.maskUpper
  maskLower := a.maskLower ++ b.maskLower
  maskDigit := a.maskDigit ++ b.maskDigit
  maskSym62 := a.maskSym62 ++ b.maskSym62
  maskSym63 := a.maskSym63 ++ b.maskSym63
  result := a.result ++ b.result

/-- Registers with no lanes. -/
def VecRegs.empty : VecRegs := VecRegs.zero 0

/-- One function on every sub-lane of a chunk, `sub` input bytes and 16 lanes each (R207). -/
def onSubLanes (f : (Nat → Nat → Byte) → List Byte → VecRegs) (sub : Nat) :
    Nat → (Nat → Nat → Byte) → List Byte → VecRegs
  | 0, _, _ => VecRegs.empty
  | k + 1, g, x => (f g (x.take sub)).append (onSubLanes f sub k (fun r i => g r (16 + i)) (x.drop sub))

/-- An encode chunk of `subs` sub-lanes: 12 input bytes each (R185, R207). -/
def encChunk (url : Bool) (subs : Nat) (g : Nat → Nat → Byte) (x : List Byte) : VecRegs :=
  onSubLanes (encSubLane url) 12 subs g x

/-- A decode chunk of `subs` sub-lanes: 16 characters each (R196, R207). -/
def decChunk (url : Bool) (subs : Nat) (g : Nat → Nat → Byte) (c : List Byte) : VecRegs :=
  onSubLanes (decSubLane url) 16 subs g c

/-- The OR of two registers, byte lane by byte lane. -/
def orLanes (a b : List Byte) : List Byte := List.zipWith (fun x y => x ||| y) a b

/-- The OR of the class masks (R199). -/
def VecRegs.classified (v : VecRegs) : List Byte :=
  orLanes (orLanes (orLanes (orLanes v.maskUpper v.maskLower) v.maskDigit) v.maskSym62) v.maskSym63

/-- Whether some byte of a chunk is unclassified: the ORed class masks are not all ones (R199). -/
def chunkFails (v : VecRegs) : Bool := v.classified.any fun m => decide (m ≠ 0xFF#8)

/-- A chunk that fails reaches no stage after the classification: the registers of the later stages, `n` lanes each, are
free lanes (R199; log 12). -/
def VecRegs.failed (v : VecRegs) (g : Nat → Nat → Byte) (n : Nat) : VecRegs :=
  { v with
    product1 := freeLanes g 2 0 n
    product2 := freeLanes g 3 0 n
    index := freeLanes g 4 0 n
    result := freeLanes g 10 0 n }

/-! ### The registers of the tiers (R35) -/

/-- The working registers of a tier; the scalar tier has none. -/
def VecUnits.regs (u : VecUnits) : Tier → VecRegs
  | .scalar => VecRegs.empty
  | .v128 => u.v128
  | .v256 => u.v256
  | .v512 => u.v512

/-- The working registers of one tier replaced. -/
def VecUnits.update (u : VecUnits) (t : Tier) (v : VecRegs) : VecUnits :=
  match t with
  | .scalar => u
  | .v128 => { u with v128 := v }
  | .v256 => { u with v256 := v }
  | .v512 => { u with v512 := v }

/-! ### Geometry (R180) -/

/-- `S`: the number of 128-bit sub-lanes of a tier (R180); none for the scalar tier. -/
def Tier.subs : Tier → Nat
  | .scalar => 0
  | .v128 => 1
  | .v256 => 2
  | .v512 => 4

/-- `V`: the byte width of a vector tier (R180). -/
def Tier.bytes (t : Tier) : Nat := 16 * t.subs

/-- `CIN = 3V/4`: the input bytes of an encode chunk, and the output bytes of a decode chunk (R180). -/
def Tier.chunkIn (t : Tier) : Nat := 12 * t.subs

end Sys2Proof.Machine
end

