-- ==== Sys2Proof/Machine/Engine.lean ====
section
/-! DEFINITION. The engine: tier selection (43_dispatcher.md R221), the phase machine of R225 row by row, with the
scalar steps of 41_scalar_kernel.md (R170 to R173) and the vector chunk steps of 42_vector_kernels.md (R185, R196),
and an operation run from its launch to its completion (40_engine_ops.md R110). -/

namespace Sys2Proof.Machine

/-! ### Completion of a DEC -/

/-- A DEC ends well: `OUT[OPOS..required) <- unspecified; Ok(OPOS)` (R126, 20_memory.md R62; log 5). -/
def State.decOk (s : State) : State :=
  (s.freeOut s.opos (estimateDecodedLen s.lN - s.opos)).ok s.opos

/-- A DEC ends in an error found by a kernel: `OUT[0..required) <- unspecified; raise E` (R126, R257; log 6). -/
def State.decRaise (s : State) (e : ErrorKind) : State :=
  (s.freeOut 0 (estimateDecodedLen s.lN)).raise e

/-! ### P_CHECK -/

/-- Tier selection: the widest tier present whose MINLEN the input length meets (R220, R221, R224 (a)). -/
def selectTier (p : Params) (n : Nat) : Tier :=
  if p.caps.getLsbD 2 && decide (p.minlen512 ≤ n) then .v512
  else if p.caps.getLsbD 1 && decide (p.minlen256 ≤ n) then .v256
  else if p.caps.getLsbD 0 && decide (p.minlen128 ≤ n) then .v128
  else .scalar

/-- Dispatch after the size check has passed (R221, R225). -/
def State.dispatch (s : State) : State :=
  let t := selectTier s.cfg s.lN
  (s.setTier t).setPhase (if t = .scalar then .sloop else .vloop)

/-- The rows of P_CHECK, in their order of evaluation (R225; R114, R117, R121, R122, R127). -/
def checkRow (s : State) : State :=
  match s.lOp with
  | .enclen => s.ok (encodedLen s.lPad s.lN)
  | .decest => s.ok (estimateDecodedLen s.lN)
  | .enc =>
    if s.lCap < s.required then s.raise .bufferTooSmall
    else if s.lN = 0 then s.ok 0
    else s.dispatch
  | .dec =>
    if s.lCap < s.required then s.raise .bufferTooSmall
    else s.dispatch

/-! ### P_VLOOP -/

/-- The vector encode chunk step (R185): stages 1 to 3 on every sub-lane, then the store (R189). -/
def vectorEncodeChunk (s : State) : State :=
  let v := encChunk s.lUrl s.tier.subs s.freeLane (s.readIn s.ipos s.tier.chunkIn)
  ((s.setVec (s.vec.update s.tier v)).writeOut s.opos v.result).advance s.tier.chunkIn s.tier.bytes

/-- The stores of a decode chunk: sub-lane `j` writes its 16 byte lanes, 12 result bytes and 4 garbage bytes, at
`o + 12 j`, in ascending order (R205). -/
def storeSubLanes (s : State) (o : Nat) : Nat → List Byte → State
  | 0, _ => s
  | k + 1, w => storeSubLanes (s.writeOut o (w.take 16)) (o + 12) k (w.drop 16)

/-- The vector decode chunk step (R196): classification, all-or-nothing failure (R199), packing, stores (R205). -/
def vectorDecodeChunk (s : State) : State :=
  let v := decChunk s.lUrl s.tier.subs s.freeLane (s.readIn s.ipos s.tier.bytes)
  if chunkFails v then
    (s.setVec (s.vec.update s.tier (v.failed s.freeLane s.tier.bytes))).decRaise .invalidCharacter
  else (storeSubLanes (s.setVec (s.vec.update s.tier v)) s.opos s.tier.subs v.result).advance s.tier.bytes s.tier.chunkIn

/-- The rows of P_VLOOP (R225). A scalar TIER in P_VLOOP is unreachable (R225; log 17): no row. DESIGN CHOICE (log 36): a
TIER whose CAPS bit is 0 is unreachable and has no meaning (R222); the rows do not look at CAPS and run that tier's chunk
step. -/
def vloopRow (s : State) : State :=
  match s.tier, s.lOp with
  | .scalar, _ => s
  | _, .enc =>
    if s.ipos + s.tier.chunkIn ≤ s.lN then vectorEncodeChunk s else s.setPhase .sloop
  | _, .dec =>
    if s.ipos + s.tier.bytes + s.cfg.vdecMargin ≤ s.lN then vectorDecodeChunk s else s.setPhase .sloop
  | _, .enclen => s
  | _, .decest => s

/-! ### P_SLOOP -/

/-- The scalar encode fast step: 6 bytes to 8 characters (R170). -/
def scalarEncodeStep (s : State) : State :=
  let b := fun i => s.inByte (s.ipos + i)
  (s.writeOut s.opos (encGroup s.lUrl (b 0) (b 1) (b 2) ++ encGroup s.lUrl (b 3) (b 4) (b 5))).advance 6 8

/-- The stores of a scalar decode fast step, from its eight lookups: two overlapping 4-byte stores whose fourth byte is
garbage (R171). -/
def storeEight (s : State) (v : List Byte) : State :=
  let x := fun k => sextet (v.getD k 0#8)
  let lo := join4 (x 0) (x 1) (x 2) (x 3)
  let hi := join4 (x 4) (x 5) (x 6) (x 7)
  let s1 := s.writeOut s.opos (lo ++ s.freeBytes (s.opos + 3) 1)
  let s2 := s1.writeOut (s.opos + 3) (hi ++ s.freeBytes (s.opos + 6) 1)
  s2.advance 8 6

/-- The scalar decode fast step: 8 characters to 6 bytes, one test of the OR-accumulator (R171, R34). -/
def scalarDecodeStep (s : State) : State :=
  let v := (s.readIn s.ipos 8).map (dt s.cfg.invalid s.lUrl)
  let s' := s.setAcc (orAll v)
  if s'.acc &&& 0xC0#8 ≠ 0#8 then s'.decRaise .invalidCharacter else storeEight s' v

/-- The rows of P_SLOOP (R225). -/
def sloopRow (s : State) : State :=
  match s.lOp with
  | .enc => if s.ipos + 6 ≤ s.lN then scalarEncodeStep s else s.setPhase .tail
  | .dec => if s.ipos + 12 ≤ s.lN then scalarDecodeStep s else s.setPhase .tail
  | .enclen => s
  | .decest => s

/-! ### P_TAIL -/

/-- The full group of the encode tail, if three bytes are left (R172, first part). -/
def encodeTailGroup (s : State) : State :=
  if s.ipos + 3 ≤ s.lN then
    let b := fun i => s.inByte (s.ipos + i)
    (s.writeOut s.opos (encGroup s.lUrl (b 0) (b 1) (b 2))).advance 3 4
  else s

/-- The remainder of the encode tail, 0, 1 or 2 bytes (R172, second part). -/
def encodeTailRem (s : State) : State :=
  if s.ipos + 1 = s.lN then
    let e := encRem1 s.lUrl s.lPad (s.inByte s.ipos)
    (s.writeOut s.opos e).advance 1 e.length
  else if s.ipos + 2 = s.lN then
    let e := encRem2 s.lUrl s.lPad (s.inByte s.ipos) (s.inByte (s.ipos + 1))
    (s.writeOut s.opos e).advance 2 e.length
  else s

/-- The scalar encode tail (R172). -/
def encodeTail (s : State) : State :=
  let s' := encodeTailRem (encodeTailGroup s)
  s'.ok s'.opos

/-- A tail group or remainder of `k` characters decoded to the bytes given: they are written at exact width and the
positions advance (R173; log 13). -/
def State.emit (s : State) (k : Nat) (out : List Byte) : State := (s.writeOut s.opos out).advance k out.length

/-- The short remainder of the decode tail (R159, R173). -/
def decodeTailRem (s : State) : State :=
  let c := fun i => s.inByte (s.ipos + i)
  if s.lN ≤ s.ipos then s.decOk
  else if s.lPad || decide (s.ipos + 1 = s.lN) then s.decRaise .invalidLength
  else if s.ipos + 2 = s.lN then
    match decPair s.cfg s.lUrl (c 0) (c 1) with
    | .error e => s.decRaise e
    | .ok out => (s.emit 2 out).decOk
  else
    match decTriple s.cfg s.lUrl (c 0) (c 1) (c 2) with
    | .error e => s.decRaise e
    | .ok out => (s.emit 3 out).decOk

/-- The scalar decode tail (R173): full groups, a padded group that ends it (R157, R158), the short remainder. The
first argument bounds the number of full groups. -/
def decodeTail : Nat → State → State
  | 0, s => decodeTailRem s
  | fuel + 1, s =>
    if s.ipos + 4 ≤ s.lN then
      let c := fun i => s.inByte (s.ipos + i)
      if c 3 = padChar then
        match decPaddedGroup s.cfg s.lUrl (c 0) (c 1) (c 2) with
        | .error e => s.decRaise e
        | .ok out =>
          let s' := s.emit 4 out
          match afterPad s.cfg (decide (s'.ipos < s'.lN)) out with
          | .error e => s'.decRaise e
          | .ok _ => s'.decOk
      else
        match decStrictGroup s.cfg s.lUrl (c 0) (c 1) (c 2) (c 3) with
        | .error e => s.decRaise e
        | .ok out => decodeTail fuel (s.emit 4 out)
    else decodeTailRem s

/-- The rows of P_TAIL: the whole tail is one step (R225; log 19). -/
def tailRow (s : State) : State :=
  match s.lOp with
  | .enc => encodeTail s
  | .dec => decodeTail ((s.lN - s.ipos) / 4 + 1) s
  | .enclen => s
  | .decest => s

/-! ### The step relation and a whole operation -/

/-- The one enabled row of R225 (R226). -/
def engineRow (s : State) : State :=
  match s.phase with
  | .idle => s
  | .done => s
  | .check => checkRow s
  | .vloop => vloopRow s
  | .sloop => sloopRow s
  | .tail => tailRow s

/-- One engine step; no step unless an operation is in progress (R226). Every step draws its free values anew
(log 18). -/
def engineStep (s : State) : State := if s.busy then (engineRow s).nextDraw else s

/-- At most `fuel` engine steps, until the operation has ended. -/
def runEngine : Nat → State → State
  | 0, s => s
  | fuel + 1, s => if s.busy then runEngine fuel (engineStep s) else s

/-- The bound on the number of engine steps of an operation on `n` bytes (70_reset_and_hazards.md R296). -/
def stepBound (op : Op) (n : Nat) : Nat :=
  match op with
  | .enclen => 1
  | .decest => 1
  | .enc => n / 6 + 6
  | .dec => n / 8 + 6

/-- An operation in progress run to its completion (R110, R296). -/
def State.complete (s : State) : State := runEngine (stepBound s.lOp s.lN) s

/-- A command: ignored while BUSY (R28), else launched and run to completion as one step (R110, R291; log 7). -/
def runCommand (w : BitVec 4) (s : State) : Host.Outcome State Fault Refusal :=
  if s.busy then .next s else .next (s.launch w).complete

end Sys2Proof.Machine
end

