-- ==== Sys2Proof/Machine/DecodeCommands.lean ====
section
/-! DEFINITION. Commands: the meanings of DEC (40_engine_ops.md R126 to R128). Each is the shared operation `runCommand` on the
command's word (30_encoding.md R85): launch, size check, dispatch, vector loop, scalar loop, tail (43_dispatcher.md
R225). -/

namespace Sys2Proof.Machine

/-- DEC.SN: standard alphabet, not padded (R126, R85). -/
def execDecSN (s : State) : Host.Outcome State Fault Refusal := runCommand 0b0011#4 s

/-- DEC.UN: URL-safe alphabet, not padded (R126, R85). -/
def execDecUN (s : State) : Host.Outcome State Fault Refusal := runCommand 0b0111#4 s

/-- DEC.SP: standard alphabet, padded (R126, R85). -/
def execDecSP (s : State) : Host.Outcome State Fault Refusal := runCommand 0b1011#4 s

/-- DEC.UP: URL-safe alphabet, padded (R126, R85). -/
def execDecUP (s : State) : Host.Outcome State Fault Refusal := runCommand 0b1111#4 s

end Sys2Proof.Machine
end

