-- ==== Sys2Proof/Machine/EncodeCommands.lean ====
section
/-! DEFINITION. Commands: the meanings of ENC (40_engine_ops.md R120 to R123). Each is the shared operation `runCommand` on the
command's word (30_encoding.md R85): launch, size check, dispatch, vector loop, scalar loop, tail (43_dispatcher.md
R225). -/

namespace Sys2Proof.Machine

/-- ENC.SN: standard alphabet, not padded (R120, R85). -/
def execEncSN (s : State) : Host.Outcome State Fault Refusal := runCommand 0b0010#4 s

/-- ENC.UN: URL-safe alphabet, not padded (R120, R85). -/
def execEncUN (s : State) : Host.Outcome State Fault Refusal := runCommand 0b0110#4 s

/-- ENC.SP: standard alphabet, padded (R120, R85). -/
def execEncSP (s : State) : Host.Outcome State Fault Refusal := runCommand 0b1010#4 s

/-- ENC.UP: URL-safe alphabet, padded (R120, R85). -/
def execEncUP (s : State) : Host.Outcome State Fault Refusal := runCommand 0b1110#4 s

end Sys2Proof.Machine
end

