-- ==== Sys2Proof/Machine/LengthCommands.lean ====
section
/-! DEFINITION. Commands: the meanings of ENCLEN (40_engine_ops.md R113, R114) and DECEST (R116, R117). Each is the shared operation
`runCommand` on the command's word (30_encoding.md R85): launch, then the P_CHECK row that ends it (43_dispatcher.md
R225). -/

namespace Sys2Proof.Machine

/-- ENCLEN.SN: standard alphabet, not padded (R114, R85). -/
def execEnclenSN (s : State) : Host.Outcome State Fault Refusal := runCommand 0b0000#4 s

/-- ENCLEN.UN: URL-safe alphabet, not padded (R114, R85). -/
def execEnclenUN (s : State) : Host.Outcome State Fault Refusal := runCommand 0b0100#4 s

/-- ENCLEN.SP: standard alphabet, padded (R114, R85). -/
def execEnclenSP (s : State) : Host.Outcome State Fault Refusal := runCommand 0b1000#4 s

/-- ENCLEN.UP: URL-safe alphabet, padded (R114, R85). -/
def execEnclenUP (s : State) : Host.Outcome State Fault Refusal := runCommand 0b1100#4 s

/-- DECEST.SN: standard alphabet, not padded (R117, R85). -/
def execDecestSN (s : State) : Host.Outcome State Fault Refusal := runCommand 0b0001#4 s

/-- DECEST.UN: URL-safe alphabet, not padded (R117, R85). -/
def execDecestUN (s : State) : Host.Outcome State Fault Refusal := runCommand 0b0101#4 s

/-- DECEST.SP: standard alphabet, padded (R117, R85). -/
def execDecestSP (s : State) : Host.Outcome State Fault Refusal := runCommand 0b1001#4 s

/-- DECEST.UP: URL-safe alphabet, padded (R117, R85). -/
def execDecestUP (s : State) : Host.Outcome State Fault Refusal := runCommand 0b1101#4 s

end Sys2Proof.Machine
end

