-- ==== Sys2Proof/Machine/Dispatch.lean ====
section
/-! DEFINITION. The dispatch: one arm per command of spec/opcode_table.json. -/

namespace Sys2Proof.Machine

def exec (i : Instr) (s : State) : Host.Outcome State Fault Refusal :=
  match i with
  | .enclenSN => Sys2Proof.Machine.execEnclenSN s
  | .decestSN => Sys2Proof.Machine.execDecestSN s
  | .encSN => Sys2Proof.Machine.execEncSN s
  | .decSN => Sys2Proof.Machine.execDecSN s
  | .enclenUN => Sys2Proof.Machine.execEnclenUN s
  | .decestUN => Sys2Proof.Machine.execDecestUN s
  | .encUN => Sys2Proof.Machine.execEncUN s
  | .decUN => Sys2Proof.Machine.execDecUN s
  | .enclenSP => Sys2Proof.Machine.execEnclenSP s
  | .decestSP => Sys2Proof.Machine.execDecestSP s
  | .encSP => Sys2Proof.Machine.execEncSP s
  | .decSP => Sys2Proof.Machine.execDecSP s
  | .enclenUP => Sys2Proof.Machine.execEnclenUP s
  | .decestUP => Sys2Proof.Machine.execDecestUP s
  | .encUP => Sys2Proof.Machine.execEncUP s
  | .decUP => Sys2Proof.Machine.execDecUP s

end Sys2Proof.Machine
end

