-- ==== Sys2Proof/Machine/HostAccess.lean ====
section
/-! DEFINITION. What the host and the outside do to the block, one operation per event: register accesses
(10_state.md R30), FILL IN and READ OUT (R37; 30_encoding.md R101; 70_reset_and_hazards.md R291, R292), WAIT (R101),
the external reset (R280). -/

namespace Sys2Proof.Machine

/-- A host write of a register, by number (R30): CMD launches, ILEN and OCAP take the value, each only while not
BUSY (R28, R292); every other number ignores it. A value wider than the register keeps its low bits (log 3). -/
def hostWrite (reg v : Nat) (s : State) : State :=
  match reg with
  | 0 => if s.busy then s else s.launch (BitVec.ofNat 4 v)
  | 2 => if s.busy then s else { s with ilen := v % 2 ^ s.cfg.lenw }
  | 3 => if s.busy then s else { s with ocap := v % 2 ^ s.cfg.lenw }
  | _ => s

/-- The value a host read of a register returns, by number (R30): 0 where no register is. -/
def State.regValue (s : State) : Nat → Nat
  | 0 => s.cmd.toNat
  | 1 => s.status.toNat
  | 2 => s.ilen
  | 3 => s.ocap
  | 4 => s.rlen
  | 5 => s.cfg.caps.toNat
  | _ => 0

/-- A host read of a register (R30); it changes nothing but what the host knows. -/
def hostRead (reg : Nat) (s : State) : State := s.observe (.reg reg (s.regValue reg))

/-- Whether the `k` locations from `a` on all exist (R37). -/
def State.located (s : State) (a k : Nat) : Bool := decide (k = 0) || decide (a + k ≤ 2 ^ s.cfg.lenw)

/-- The bytes of `IN[0..L_N)` that a host write of `k` bytes at `a` replaces (R291). -/
def State.replaced (s : State) (a k : Nat) : List Host.Cell :=
  (((List.range k).map fun i => a + i).filter fun x => decide (x < s.lN)).map fun x => (x, s.inCell x)

/-- The host writes bytes to IN; while BUSY the replaced bytes of the operation's input are remembered, since the
engine may still read them (R291; logs 9, 10). -/
def State.fill (s : State) (a : Nat) (bytes : List Byte) : State :=
  { s with
    inMem := s.inMem.store a bytes
    inRace := if s.busy then s.replaced a bytes.length ++ s.inRace else s.inRace }

/-- FILL IN (R37, R101). A location outside the buffer does not exist (log 15). -/
def hostFillIn (a : Nat) (bytes : List Byte) (s : State) : Host.Outcome State Fault Refusal :=
  if s.located a bytes.length then .next (s.fill a bytes)
  else .fault (.noSuchLocation .bufIn (max a (2 ^ s.cfg.lenw)))

/-- READ OUT (R37, R101). While BUSY the bytes returned are unspecified (R291; log 11). -/
def hostReadOut (a k : Nat) (s : State) : Host.Outcome State Fault Refusal :=
  if s.located a k then
    if s.busy then .next (s.observe (.out a (s.freeBytes a k))).nextDraw
    else .next (s.observe (.out a ((List.range k).map fun i => s.outCell (a + i))))
  else .fault (.noSuchLocation .bufOut (max a (2 ^ s.cfg.lenw)))

/-- WAIT, with what the outside does after it: the host polls until DONE, the engine takes its steps meanwhile
(R101, R296; log 8). DESIGN CHOICE (log 31): R101 leaves open how many polls of STATUS a WAIT makes and when; they
change nothing of the block, and the model records none of them in `obs`. -/
def hostWait (rest : List Event) (s : State) : State :=
  if s.phase = .done then s.setEvents rest else (engineStep s).setEvents (.wait :: rest)

/-- The external reset: every element takes its reset value, the contents of the buffers are unspecified anew, an
operation in progress is abandoned (R280, R39; log 14). -/
def externalReset (s : State) : State :=
  { State.reset with
    cfg := s.cfg
    epoch := s.epoch + 1
    draws := s.draws
    events := s.events
    obs := s.obs }

end Sys2Proof.Machine
end

