-- ==== Sys2Proof/Machine/Step.lean ====
section
/-! DEFINITION. One step of the block and its outside: the next event, or, when the outside does nothing more, an
engine step (43_dispatcher.md R226; 70_reset_and_hazards.md R280, R296; log 8). -/

namespace Sys2Proof.Machine

/-- A command byte decoded and run (30_encoding.md R82, R100). -/
def runFetched (w : Byte) (s : State) : Host.Outcome State Fault Refusal :=
  match decodeByte w with
  | .ok i => exec i s
  | .error _ => .refused (.notACommand w)

/-- One step (log 8). -/
def step (s : State) : Host.Outcome State Fault Refusal :=
  match s.events with
  | [] => .next (engineStep s)
  | .command w :: rest => runFetched w (s.setEvents rest)
  | .write reg v :: rest => .next (hostWrite reg v (s.setEvents rest))
  | .read reg :: rest => .next (hostRead reg (s.setEvents rest))
  | .fillIn a bytes :: rest => hostFillIn a bytes (s.setEvents rest)
  | .readOut a k :: rest => hostReadOut a k (s.setEvents rest)
  | .wait :: rest => .next (hostWait rest s)
  | .engine :: rest => .next (engineStep (s.setEvents rest))
  | .reset :: rest => .next (externalReset (s.setEvents rest))

/-- The state with a command word placed where `step` takes its next one: first of the events, the block ready for
a launch (R28; log 20). -/
def State.withFetchWord (s : State) (nbits w : Nat) : State :=
  { s with
    events := .command (BitVec.ofNat 8 (w % 2 ^ nbits)) :: s.events
    phase := if s.busy then .idle else s.phase }

end Sys2Proof.Machine
end

