-- ==== Sys2Proof/Machine/HostCalls.lean ====
section
/-! DEFINITION. The source's public operations as host programs over one block: the expansions of 30_encoding.md
R102 to R105. They run the host accesses of `HostAccess.lean` and the commands of `exec`, and nothing else. -/

namespace Sys2Proof.Machine

/-- The next state of an outcome, if it is one. -/
def nextState : Host.Outcome State Fault Refusal → Option State
  | .next s => some s
  | .fault _ => none
  | .refused _ => none

/-- WAIT in a host program: the engine takes its steps until STATE is DONE (R101, 70_reset_and_hazards.md R296; logs 8,
31). There is no state after a WAIT that never sees DONE: on an idle block (log 21), or in a state no run reaches (log 17). -/
def State.waitDone (s : State) : Option State :=
  let t := s.complete
  if t.phase = .done then some t else none

/-- `<command>; WAIT` (R102, R103). On a BUSY block the command is ignored (10_state.md R28; log 26) and the WAIT is for
the operation in progress (log 33). -/
def commandAndWait (i : Instr) (s : State) : Option State := do
  let t ← nextState (exec i s)
  t.waitDone

/-- `WR ILEN, n; <command>; WAIT; RD RLEN` (R102). -/
def callLength (op : Op) (url pad : Bool) (n : Nat) (s : State) : Option (Nat × State) := do
  let t ← commandAndWait (Instr.ofFields op url pad) (hostWrite 2 n s)
  return (t.regValue 4, t)

/-- What a host makes of a completed operation: the bytes `OUT[0..RLEN)`, or the error that `STATUS.ERR` names
(R103, 00_scope.md R18). DESIGN CHOICE (log 34): with RLEN above `2^LENW`, which only the length command of a BUSY block can
leave, the bytes at locations that do not exist are free values. -/
def State.result (s : State) : Except ErrorKind (List Byte) :=
  match s.err with
  | none => .ok (s.output s.rlen)
  | some e => .error e

/-- `encode_into` and `decode_into`: `FILL IN, input; WR ILEN; WR OCAP; <command>; WAIT; RD STATUS`, then, without error,
`RD RLEN; READ OUT` (R103). -/
def callInto (op : Op) (url pad : Bool) (input : List Byte) (cap : Nat) (s : State) :
    Option (Except ErrorKind (List Byte) × State) := do
  let s1 ← nextState (hostFillIn 0 input s)
  let t ← commandAndWait (Instr.ofFields op url pad) (hostWrite 3 cap (hostWrite 2 input.length s1))
  return (t.result, t)

/-- The allocating `encode`: the exact length first, then `encode_into` with that capacity (R104). -/
def callEncode (url pad : Bool) (input : List Byte) (s : State) : Option (Except ErrorKind (List Byte) × State) := do
  let (len, s1) ← callLength .enclen url pad input.length s
  callInto .enc url pad input len s1

/-- The allocating `decode`: the estimate first, then `decode_into` with that capacity (R105). -/
def callDecode (url pad : Bool) (input : List Byte) (s : State) : Option (Except ErrorKind (List Byte) × State) := do
  let (len, s1) ← callLength .decest url pad input.length s
  callInto .dec url pad input len s1

end Sys2Proof.Machine
end

