-- ==== Sys2Proof/Machine/Chunker.lean ====
section
/-! DEFINITION. The parallel chunker, a host that drives one block per chunk (44_parallel_chunker.md R240 to R249).
It is outside the block (00_scope.md R6): functions over whole operations, chunk `k` on the block `block k` (R244;
log 24). -/

namespace Sys2Proof.Machine

/-- The plain split into chunks of `size`, the last one shorter or equal (R241). The first argument bounds the
number of chunks. -/
def splitPlain (size : Nat) : Nat → List Byte → List (List Byte)
  | 0, xs => [xs]
  | fuel + 1, xs => if xs.length ≤ size then [xs] else xs.take size :: splitPlain size fuel (xs.drop size)

/-- The split for decode: a last chunk of 1, 2 or 3 characters is joined to the one before it (R241). -/
def splitDecode (size : Nat) : Nat → List Byte → List (List Byte)
  | 0, xs => [xs]
  | fuel + 1, xs =>
    if xs.length < size + 4 then [xs] else xs.take size :: splitDecode size fuel (xs.drop size)

/-- The chunks of an encode input: one below the threshold (R240, R241). -/
def encodeChunks (q : ParParams) (xs : List Byte) : List (List Byte) :=
  if xs.length ≤ q.threshold then [xs] else splitPlain q.chunkEnc xs.length xs

/-- The chunks of a decode input: one below the threshold (R240, R241). -/
def decodeChunks (q : ParParams) (xs : List Byte) : List (List Byte) :=
  if xs.length ≤ q.threshold then [xs] else splitDecode q.chunkDec xs.length xs

/-- One chunk's operation on its block, with the capacity the operation requires; `none` if the block stops. -/
def chunkResult (op : Op) (url pad : Bool) (x : List Byte) (block : State) : Option (Except ErrorKind (List Byte)) :=
  let cap := if op = .enc then encodedLen pad x.length else estimateDecodedLen x.length
  (callInto op url pad x cap block).map fun r => r.1

/-- The results of an encode's chunks placed one after another (R242). DESIGN CHOICE (log 35): after an error no further
chunk is launched. -/
def combineEncode (url pad : Bool) (block : Nat → State) :
    Nat → List (List Byte) → Option (Except ErrorKind (List Byte))
  | _, [] => some (.ok [])
  | k, x :: xs => do
    match ← chunkResult .enc url pad x (block k) with
    | .error e => return .error e
    | .ok out =>
      match ← combineEncode url pad block (k + 1) xs with
      | .error e => return .error e
      | .ok rest => return .ok (out ++ rest)

/-- Chunked encode: the capacity checked once for the whole output, then the chunks (R242). -/
def chunkedEncode (q : ParParams) (url pad : Bool) (block : Nat → State) (cap : Nat) (xs : List Byte) :
    Option (Except ErrorKind (List Byte)) :=
  if cap < encodedLen pad xs.length then some (.error .bufferTooSmall)
  else combineEncode url pad block 0 (encodeChunks q xs)

/-- The results of a decode's chunks combined in chunk order: the first error, or a chunk before the last that is
shorter than its characters (R243, R245). DESIGN CHOICE (log 35): R248 lets the host stop launching chunks after the first
error or let all run; this host stops. -/
def combineDecode (url pad : Bool) (block : Nat → State) :
    Nat → List (List Byte) → Option (Except ErrorKind (List Byte))
  | _, [] => some (.ok [])
  | k, x :: xs => do
    match ← chunkResult .dec url pad x (block k) with
    | .error e => return .error e
    | .ok out =>
      if !xs.isEmpty && decide (out.length ≠ 3 * x.length / 4) then return .error .invalidCharacter
      else
        match ← combineDecode url pad block (k + 1) xs with
        | .error e => return .error e
        | .ok rest => return .ok (out ++ rest)

/-- Chunked decode: the capacity checked once against the estimate of the whole input, as `decode_into` asks (R240,
40_engine_ops.md R126, R127; log 32), then the chunks (R243). -/
def chunkedDecode (q : ParParams) (url pad : Bool) (block : Nat → State) (cap : Nat) (xs : List Byte) :
    Option (Except ErrorKind (List Byte)) :=
  if cap < estimateDecodedLen xs.length then some (.error .bufferTooSmall)
  else combineDecode url pad block 0 (decodeChunks q xs)

end Sys2Proof.Machine
end

