-- ==== Sys2Proof/Safety.lean ====
section
/-! DEFINITION. What claims mean by a good state and a well-behaved host: the register widths (10_state.md R22 to
R33), the position invariants (43_dispatcher.md R227), what BUSY and DONE imply (R24, R25, R292), and the host's
obligations (70_reset_and_hazards.md R291). -/

namespace Sys2Proof.Machine

/-- Phases in which a kernel runs (R33). -/
def Phase.kernel (p : Phase) : Bool := decide (p = .vloop) || decide (p = .sloop) || decide (p = .tail)

/-- Whether a tier is present (R29, R222). -/
def tierPresent (p : Params) : Tier → Bool
  | .scalar => true
  | .v128 => p.caps.getLsbD 0
  | .v256 => p.caps.getLsbD 1
  | .v512 => p.caps.getLsbD 2

/-- The buffers keep their canonical form and list only locations that exist (R37). -/
structure State.MemoryOk (s : State) : Prop where
  inWf : s.inMem.wf
  outWf : s.outMem.wf
  inBound : ∀ c ∈ s.inMem, c.1 < 2 ^ s.cfg.lenw
  outBound : ∀ c ∈ s.outMem, c.1 < 2 ^ s.cfg.lenw

/-- The registers hold values of their widths (R22, R23, R25, R27, R31). -/
structure State.WidthsOk (s : State) : Prop where
  ilen : s.ilen < 2 ^ s.cfg.lenw
  ocap : s.ocap < 2 ^ s.cfg.lenw
  rlen : s.rlen < 2 ^ (s.cfg.lenw + 1)
  lN : s.lN < 2 ^ s.cfg.lenw
  lCap : s.lCap < 2 ^ s.cfg.lenw
  ipos : s.ipos ≤ s.lN
  opos : s.opos ≤ s.lCap

/-- The error field: set only when DONE, and then RLEN is 0 (R24, R25). -/
structure State.StatusOk (s : State) : Prop where
  errDone : s.err ≠ none → s.phase = .done
  errRlen : s.err ≠ none → s.rlen = 0
  busyRlen : s.busy → s.rlen = 0

/-- While BUSY the host-visible operands equal the latches (R292). -/
structure State.LatchOk (s : State) : Prop where
  op : s.busy → s.lOp = cmdOp s.cmd
  url : s.busy → s.lUrl = cmdUrl s.cmd
  pad : s.busy → s.lPad = cmdPad s.cmd
  n : s.busy → s.lN = s.ilen
  cap : s.busy → s.lCap = s.ocap

/-- A kernel runs only for ENC and DEC, after the size check (R258), on a tier that is present (R222). -/
structure State.KernelOk (s : State) : Prop where
  op : s.phase.kernel → s.lOp = .enc ∨ s.lOp = .dec
  room : s.phase.kernel → s.required ≤ s.lCap
  tierPresent : tierPresent s.cfg s.tier
  vloopTier : s.phase = .vloop → s.tier ≠ .scalar

/-- The position invariants (R227, R228). -/
structure State.PositionsOk (s : State) : Prop where
  check : s.phase = .check → s.ipos = 0 ∧ s.opos = 0
  enc : s.phase.kernel → s.lOp = .enc → s.ipos % 3 = 0 ∧ 3 * s.opos = 4 * s.ipos ∧ s.ipos ≤ s.lN
  dec : s.phase.kernel → s.lOp = .dec → s.ipos % 8 = 0 ∧ 4 * s.opos = 3 * s.ipos ∧ s.ipos ≤ tailStart s.lN
  tail : s.phase = .tail → s.lOp = .dec → s.ipos = tailStart s.lN

/-- The invariant of every step. -/
structure State.Inv (s : State) : Prop where
  params : s.cfg.wf = true
  memory : s.MemoryOk
  widths : s.WidthsOk
  status : s.StatusOk
  latch : s.LatchOk
  kernel : s.KernelOk
  positions : s.PositionsOk

/-- All working registers of a tier, in the order of `VecRegs` (R35). -/
def VecRegs.registers (v : VecRegs) : List (List Byte) :=
  [v.loaded, v.shuffled, v.product1, v.product2, v.index, v.maskUpper, v.maskLower, v.maskDigit, v.maskSym62,
    v.maskSym63, v.result]

/-- Every working register of a tier has the tier's width: 16, 32 or 64 byte lanes (R35). -/
structure State.VectorsOk (s : State) : Prop where
  v128 : ∀ r ∈ s.vec.v128.registers, r.length = 16
  v256 : ∀ r ∈ s.vec.v256.registers, r.length = 32
  v512 : ∀ r ∈ s.vec.v512.registers, r.length = 64

/-- The data invariants of an operation in progress: what OUT holds so far is what the reference transformation makes of
the input so far (R227). An ENC enters its tail with fewer than six bytes left (R225). -/
structure State.DataOk (s : State) : Prop where
  enc : s.phase.kernel → s.lOp = .enc → s.output s.opos = encRef s.lUrl s.lPad ((s.input s.lN).take s.ipos)
  encTail : s.phase = .tail → s.lOp = .enc → s.lN < s.ipos + 6
  dec : s.phase.kernel → s.lOp = .dec → decBulk s.cfg s.lUrl ((s.input s.lN).take s.ipos) = .ok (s.output s.opos)
  decValid : s.phase.kernel → s.lOp = .dec → ∀ c ∈ (s.input s.lN).take s.ipos, ∃ i, alpha s.lUrl i = c

/-- What a completed command leaves: CMD holds its word and the latches the launch's copies (10_state.md R28, R31);
the host's registers ILEN and OCAP, the parameters (CAPS among them), IN, and the outside are unchanged (60_exceptions.md
R255, R256); STATUS.STATE is DONE. STATUS.ERR, RLEN, the dead registers IPOS, OPOS, ACC, TIER and the vector registers,
and OUT are what the operation's own rule says. -/
structure CommandFrame (i : Instr) (s t : State) : Prop where
  done : t.phase = .done
  cmd : t.cmd = encode i
  lOp : t.lOp = i.op
  lUrl : t.lUrl = i.url
  lPad : t.lPad = i.pad
  lN : t.lN = s.ilen
  lCap : t.lCap = s.ocap
  cfg : t.cfg = s.cfg
  ilen : t.ilen = s.ilen
  ocap : t.ocap = s.ocap
  inMem : t.inMem = s.inMem
  inRace : t.inRace = []
  epoch : t.epoch = s.epoch
  events : t.events = s.events
  obs : t.obs = s.obs

/-- The state after `k` steps of the whole machine, if none of them stops. -/
def stepMany : Nat → State → Option State
  | 0, s => some s
  | k + 1, s =>
    match step s with
    | .next t => stepMany k t
    | .fault _ => none
    | .refused _ => none

/-- The host's obligation on its next access: it neither reads OUT nor writes IN while BUSY (R291). -/
def State.hostObliges (s : State) : Prop :=
  match s.events with
  | .fillIn _ _ :: _ => s.busy = false
  | .readOut _ _ :: _ => s.busy = false
  | _ => True

end Sys2Proof.Machine
end

