-- ==== Sys2Proof/Certificates/Slice0/Obligations.lean ====
section
/-! DEFINITION. The statements for the provers, from the numbered rules of the spec. Each docstring names the rule a
statement formalises, or says what it is derived from. -/

open Sys2Proof Sys2Proof.Machine

/-! ### Command encoding -/

/-- R85: all sixteen command words, with their mnemonics (R100). -/
def Obligations.OpcodeMapOfAllWords : Prop :=
  [decode 0b0000#4, decode 0b0001#4, decode 0b0010#4, decode 0b0011#4,
   decode 0b0100#4, decode 0b0101#4, decode 0b0110#4, decode 0b0111#4,
   decode 0b1000#4, decode 0b1001#4, decode 0b1010#4, decode 0b1011#4,
   decode 0b1100#4, decode 0b1101#4, decode 0b1110#4, decode 0b1111#4]
    = [.enclenSN, .decestSN, .encSN, .decSN, .enclenUN, .decestUN, .encUN, .decUN,
       .enclenSP, .decestSP, .encSP, .decSP, .enclenUP, .decestUP, .encUP, .decUP] ∧
  [Instr.enclenSN, .decestSN, .encSN, .decSN, .enclenUN, .decestUN, .encUN, .decUN,
   .enclenSP, .decestSP, .encSP, .decSP, .enclenUP, .decestUP, .encUP, .decUP].map Instr.mnemonic
    = ["ENCLEN.SN", "DECEST.SN", "ENC.SN", "DEC.SN", "ENCLEN.UN", "DECEST.UN", "ENC.UN", "DEC.UN",
       "ENCLEN.SP", "DECEST.SP", "ENC.SP", "DEC.SP", "ENCLEN.UP", "DECEST.UP", "ENC.UP", "DEC.UP"]

/-- R80: the fields `OP`, `URL` and `PAD` of every command word, as numbers of its bits. -/
def Obligations.CommandFieldsAreTheBits : Prop :=
  ∀ w : BitVec 4,
    ((decode w).op = .enclen ↔ w.toNat % 4 = 0) ∧ ((decode w).op = .decest ↔ w.toNat % 4 = 1) ∧
    ((decode w).op = .enc ↔ w.toNat % 4 = 2) ∧ ((decode w).op = .dec ↔ w.toNat % 4 = 3) ∧
    ((decode w).url = true ↔ w.toNat / 4 % 2 = 1) ∧ ((decode w).pad = true ↔ w.toNat / 8 = 1)

/-- R80, R82, R85: the decoder and the encoder are inverse to each other, the decoder is total on command words, and
a byte with a bit above bit 3 is no command (the last clause is the model's choice, log 22). -/
def Obligations.DecodeAndEncodeAgree : Prop :=
  (∀ i : Instr, decode (encode i) = i) ∧ (∀ w : BitVec 4, encode (decode w) = w) ∧
  (∀ i : Instr, decodeByte i.byte = .ok i) ∧
  (∀ b : Byte, 16 ≤ b.toNat → decodeByte b = .error (.widerThanCmd4 b))

/-- R82, R100, R101, with the model's own conventions: a step whose event is a command runs the instruction its byte
decodes to, on the state whose events are the rest (the list of events is the model's choice, log 8). A byte that is no
command is refused: R82 refuses no command word, and that a command stands in a byte at all is the model's choice (log 22).
A word placed by `withFetchWord` in a state that is not BUSY is run by the very next step (logs 8, 20). -/
def Obligations.StepRunsTheDecodedCommand : Prop :=
  (∀ (s : State) (w : Byte) (rest : List Event), s.events = .command w :: rest →
    (∀ i, decodeByte w = .ok i → step s = exec i (s.setEvents rest)) ∧
    (∀ e, decodeByte w = .error e → step s = .refused (.notACommand w))) ∧
  ∀ (s : State) (i : Instr), s.busy = false → step (s.withFetchWord 8 (encode i).toNat) = exec i s

/-! ### Data encoding -/

/-- R90: the alphabets in closed form; they are injective, below 0x80 and without `=`. -/
def Obligations.AlphabetClosedForm : Prop :=
  (∀ (url : Bool) (i : Sextet), (alpha url i).toNat
    = if i.toNat ≤ 25 then i.toNat + 65 else if i.toNat ≤ 51 then i.toNat + 71
      else if i.toNat ≤ 61 then i.toNat - 4
      else if i.toNat = 62 then (if url then 0x2D else 0x2B) else (if url then 0x5F else 0x2F)) ∧
  (∀ (url : Bool) (i j : Sextet), alpha url i = alpha url j → i = j) ∧
  ∀ (url : Bool) (i : Sextet), (alpha url i).toNat < 0x80 ∧ alpha url i ≠ 0x3D#8

/-- R91: the decode table is the inverse of the alphabet and the sentinel elsewhere; 64 entries are valid and 192 are
INVALID; entries from 0x80 on are INVALID; a set of lookups has a bit 7 or 6 exactly when one of them is INVALID. -/
def Obligations.DecodeTableInvertsAlphabet : Prop :=
  ∀ (p : Params) (url : Bool), p.invalidMarked = true →
    (∀ (c : Byte) (i : Sextet), alpha url i = c → dt p.invalid url c = i.setWidth 8) ∧
    (∀ c : Byte, (∀ i : Sextet, alpha url i ≠ c) → dt p.invalid url c = p.invalid) ∧
    (List.range 256).countP (fun c => decide (dt p.invalid url (BitVec.ofNat 8 c) = p.invalid)) = 192 ∧
    (List.range 256).countP (fun c => decide (dt p.invalid url (BitVec.ofNat 8 c) &&& 0xC0#8 = 0#8)) = 64 ∧
    (∀ c : Byte, 0x80 ≤ c.toNat → dt p.invalid url c = p.invalid) ∧
    ∀ cs : List Byte, bad (cs.map (dt p.invalid url)) = true ↔ ∃ c ∈ cs, dt p.invalid url c = p.invalid

/-- R141: the four indices of three bytes, as the fields of the 24-bit number and by the shift formulas. -/
def Obligations.SplitGivesTheFourIndices : Prop :=
  ∀ b0 b1 b2 : Byte, ∃ i0 i1 i2 i3 : Sextet, split3 b0 b1 b2 = (i0, i1, i2, i3) ∧
    b0.toNat * 65536 + b1.toNat * 256 + b2.toNat
      = i0.toNat * 262144 + i1.toNat * 4096 + i2.toNat * 64 + i3.toNat ∧
    i0.setWidth 8 = b0 >>> 2 ∧ i1.setWidth 8 = ((b0 &&& 0x03#8) <<< 4) ||| (b1 >>> 4) ∧
    i2.setWidth 8 = ((b1 &&& 0x0F#8) <<< 2) ||| (b2 >>> 6) ∧ i3.setWidth 8 = b2 &&& 0x3F#8

/-- R152: JOIN4 is the three bytes of the 24-bit number, by the shift formulas, and the inverse of SPLIT3 both ways. -/
def Obligations.JoinInvertsSplit : Prop :=
  (∀ b0 b1 b2 : Byte,
    join4 (split3 b0 b1 b2).1 (split3 b0 b1 b2).2.1 (split3 b0 b1 b2).2.2.1 (split3 b0 b1 b2).2.2.2 = [b0, b1, b2]) ∧
  ∀ v0 v1 v2 v3 : Sextet, ∃ o0 o1 o2 : Byte, join4 v0 v1 v2 v3 = [o0, o1, o2] ∧
    split3 o0 o1 o2 = (v0, v1, v2, v3) ∧
    o0.toNat * 65536 + o1.toNat * 256 + o2.toNat
      = v0.toNat * 262144 + v1.toNat * 4096 + v2.toNat * 64 + v3.toNat ∧
    o0 = (v0.setWidth 8 <<< 2) ||| (v1.setWidth 8 >>> 4) ∧
    o1 = ((v1.setWidth 8 &&& 0x0F#8) <<< 4) ||| (v2.setWidth 8 >>> 2) ∧
    o2 = ((v2.setWidth 8 &&& 0x03#8) <<< 6) ||| v3.setWidth 8

/-- R147: at a multiple of three bytes encodings compose; the first part has no `=` and is the same for both padding
policies. -/
def Obligations.EncodingsComposeAtGroups : Prop :=
  ∀ (url pad : Bool) (x y : List Byte), x.length % 3 = 0 →
    encRef url pad (x ++ y) = encRef url pad x ++ encRef url pad y ∧
    0x3D#8 ∉ encRef url pad x ∧ encRef url true x = encRef url false x

/-- R113: the forms of the encoded length, its monotonicity, and the two policies compared. -/
def Obligations.EncodedLengthForms : Prop :=
  (∀ n, encodedLen true n = (n + 2) / 3 * 4 ∧ encodedLen false n = (4 * n + 2) / 3 ∧
    encodedLen true n = 4 * (n / 3) + (if n % 3 = 0 then 0 else 4) ∧
    encodedLen false n = 4 * (n / 3) + (if n % 3 = 0 then 0 else if n % 3 = 1 then 2 else 3)) ∧
  (∀ pad m n, m ≤ n → encodedLen pad m ≤ encodedLen pad n) ∧
  ∀ n, encodedLen false n ≤ encodedLen true n ∧ (encodedLen false n = encodedLen true n ↔ n % 3 = 0)

/-- R143, R144 (and R142, R146): the encoding of one group and of the two remainders, by the shift formulas: the missing
bits are zero, and `=` is written only when padding is asked for. -/
def Obligations.EncodedGroupsByTheShiftFormulas : Prop :=
  ∀ (url pad : Bool) (b0 b1 b2 : Byte), ∃ i0 i1 i2 i3 r1 r2 : Sextet,
    i0.setWidth 8 = b0 >>> 2 ∧ i1.setWidth 8 = ((b0 &&& 0x03#8) <<< 4) ||| (b1 >>> 4) ∧
    i2.setWidth 8 = ((b1 &&& 0x0F#8) <<< 2) ||| (b2 >>> 6) ∧ i3.setWidth 8 = b2 &&& 0x3F#8 ∧
    r1.setWidth 8 = (b0 &&& 0x03#8) <<< 4 ∧ r1.toNat % 16 = 0 ∧
    r2.setWidth 8 = (b1 &&& 0x0F#8) <<< 2 ∧ r2.toNat % 4 = 0 ∧
    encRem1 url pad b0 = [alpha url i0, alpha url r1] ++ (if pad then [0x3D#8, 0x3D#8] else []) ∧
    encRem2 url pad b0 b1 = [alpha url i0, alpha url i1, alpha url r2] ++ (if pad then [0x3D#8] else []) ∧
    encRef url pad [b0] = encRem1 url pad b0 ∧ encRef url pad [b0, b1] = encRem2 url pad b0 b1 ∧
    encRef url pad [b0, b1, b2] = [alpha url i0, alpha url i1, alpha url i2, alpha url i3]

/-- R153 (and R152, R156, R157, R159): the bytes of a padded group and of a short remainder, by the shift formulas; the
low four bits of the second value, or the low two of the third, are discarded unexamined; a short remainder is an error
when padding is required, one character always. -/
def Obligations.DecodedGroupsByTheShiftFormulas : Prop :=
  ∀ (p : Params) (url pad : Bool) (v0 v1 v2 v3 : Sextet), p.invalidMarked = true →
    let o0 := (v0.setWidth 8 <<< 2) ||| (v1.setWidth 8 >>> 4)
    let o1 := ((v1.setWidth 8 &&& 0x0F#8) <<< 4) ||| (v2.setWidth 8 >>> 2)
    let o2 := ((v2.setWidth 8 &&& 0x03#8) <<< 6) ||| v3.setWidth 8
    let a := alpha url
    join2 v0 v1 = [o0] ∧ join3 v0 v1 v2 = [o0, o1] ∧
    (∀ w : Sextet, w >>> 4 = v1 >>> 4 → join2 v0 w = join2 v0 v1) ∧
    (∀ w : Sextet, w >>> 2 = v2 >>> 2 → join3 v0 v1 w = join3 v0 v1 v2) ∧
    decRef p url pad [a v0, a v1, a v2, a v3] = .ok [o0, o1, o2] ∧
    decRef p url pad [a v0, a v1, a v2, 0x3D#8] = .ok [o0, o1] ∧
    decRef p url pad [a v0, a v1, 0x3D#8, 0x3D#8] = .ok [o0] ∧
    decRef p url pad [a v0, a v1, a v2] = (if pad then .error .invalidLength else .ok [o0, o1]) ∧
    decRef p url pad [a v0, a v1] = (if pad then .error .invalidLength else .ok [o0]) ∧
    decRef p url pad [a v0] = .error .invalidLength

/-! ### Reset -/

/-- R39: the state after reset, as the host reads it and inside. The reference parameters (log 2) and the free
contents of IN and OUT (log 4) are the model's. -/
def Obligations.ResetLeavesTheTableValues : Prop :=
  State.reset.cmd = 0#4 ∧ State.reset.status = 0b0000#4 ∧ State.reset.ilen = 0 ∧ State.reset.ocap = 0 ∧
  State.reset.rlen = 0 ∧ State.reset.regValue 5 = 7 ∧ opCode State.reset.lOp = 0#2 ∧ State.reset.lUrl = false ∧
  State.reset.lPad = false ∧ State.reset.lN = 0 ∧ State.reset.lCap = 0 ∧ State.reset.tier.code = 0#2 ∧
  State.reset.phase = .idle ∧ State.reset.ipos = 0 ∧ State.reset.opos = 0 ∧ State.reset.acc = 0#8 ∧
  (∀ a, State.reset.inCell a = Config.powerOnIn 0 a) ∧ ∀ a, State.reset.outCell a = Config.powerOnOut 0 a

/-- R227, R228, R292, R35: what `StepKeepsTheInvariant`, `StepKeepsTheVectorWidths` and `StepKeepsTheData` say that a step
keeps holds after reset. -/
def Obligations.ResetMeetsTheInvariant : Prop := State.reset.Inv ∧ State.reset.VectorsOk ∧ State.reset.DataOk

/-- R280, R39, R282: the external reset, whatever the block was doing: every register takes its reset value, an
operation in progress is abandoned (no engine step changes anything), the contents of IN and OUT are unspecified anew
(log 14), the parameters stay. -/
def Obligations.ExternalResetAbandonsTheOperation : Prop :=
  ∀ (s : State) (rest : List Event), s.events = .reset :: rest →
    ∃ t, step s = .next t ∧
      t.cmd = 0#4 ∧ t.status = 0#4 ∧ t.ilen = 0 ∧ t.ocap = 0 ∧ t.rlen = 0 ∧
      t.lOp = .enclen ∧ t.lUrl = false ∧ t.lPad = false ∧ t.lN = 0 ∧ t.lCap = 0 ∧
      t.tier = .scalar ∧ t.phase = .idle ∧ t.ipos = 0 ∧ t.opos = 0 ∧ t.acc = 0#8 ∧
      t.cfg = s.cfg ∧ t.regValue 5 = s.regValue 5 ∧ t.events = rest ∧ t.obs = s.obs ∧
      (∀ a, t.inCell a = Config.powerOnIn (s.epoch + 1) a) ∧
      (∀ a, t.outCell a = Config.powerOnOut (s.epoch + 1) a) ∧ engineStep t = t

/-! ### The host's accesses -/

/-- R30, R24, R25, R28, R292: a host read, at any time, returns the register's value and changes nothing of the
block; STATUS is STATE in bits 1:0 and ERR in bits 3:2; numbers from 6 on read 0. -/
def Obligations.HostReadsReturnTheRegister : Prop :=
  ∀ (s : State) (reg : Nat) (rest : List Event), s.events = .read reg :: rest →
    ∃ v, step s = .next { s with events := rest, obs := s.obs ++ [.reg reg v] } ∧
      (reg = 0 → v = s.cmd.toNat) ∧
      (reg = 1 → v = 4 * (match s.err with
          | none => 0 | some .invalidLength => 1 | some .invalidCharacter => 2 | some .bufferTooSmall => 3)
        + (match s.phase with | .idle => 0 | .check => 1 | .vloop => 1 | .sloop => 1 | .tail => 1 | .done => 2)) ∧
      (reg = 2 → v = s.ilen) ∧ (reg = 3 → v = s.ocap) ∧ (reg = 4 → v = s.rlen) ∧
      (reg = 5 → v = s.cfg.caps.toNat) ∧ (6 ≤ reg → v = 0)

/-- R30, R22, R23, R292: host writes of registers. While BUSY none is accepted; otherwise ILEN and OCAP take a value
of their width; STATUS, RLEN, CAPS and the numbers from 6 on ignore every write. -/
def Obligations.HostWritesFollowTheAccessTable : Prop :=
  ∀ (s : State) (reg v : Nat) (rest : List Event), s.events = .write reg v :: rest →
    (s.busy = true → step s = .next { s with events := rest }) ∧
    (s.busy = false → reg = 2 → v < 2 ^ s.cfg.lenw → step s = .next { s with events := rest, ilen := v }) ∧
    (s.busy = false → reg = 3 → v < 2 ^ s.cfg.lenw → step s = .next { s with events := rest, ocap := v }) ∧
    (reg = 1 ∨ reg = 4 ∨ reg = 5 ∨ 6 ≤ reg → step s = .next { s with events := rest })

/-- R28: a host write of CMD while not BUSY is the launch: the fields are latched, the positions, ACC, ERR and RLEN
are cleared, STATE becomes BUSY. Nothing else changes. (`inRace` is the model's own record of writes while BUSY, log 9.)
-/
def Obligations.WritingCmdLaunches : Prop :=
  ∀ (s : State) (w : BitVec 4) (rest : List Event), s.events = .write 0 w.toNat :: rest → s.busy = false →
    step s = .next
      { s with
        events := rest
        cmd := w
        lOp := if w.toNat % 4 = 0 then .enclen else if w.toNat % 4 = 1 then .decest
          else if w.toNat % 4 = 2 then .enc else .dec
        lUrl := decide (w.toNat / 4 % 2 = 1)
        lPad := decide (w.toNat / 8 = 1)
        lN := s.ilen
        lCap := s.ocap
        ipos := 0
        opos := 0
        acc := 0#8
        phase := .check
        err := none
        rlen := 0
        inRace := [] }

/-- R37, R101, R286: FILL IN while not BUSY writes its bytes to IN and changes no other byte of IN, no byte of OUT and
no register. A location that R37 does not give faults, by the model's choice (log 15). -/
def Obligations.FillInWritesItsBytesOnly : Prop :=
  ∀ (s : State) (a : Nat) (bytes : List Byte) (rest : List Event), s.events = .fillIn a bytes :: rest →
    (a + bytes.length ≤ 2 ^ s.cfg.lenw → s.busy = false →
      ∃ t, step s = .next t ∧ t = { s with events := rest, inMem := t.inMem } ∧
        (∀ i, i < bytes.length → t.inCell (a + i) = bytes.getD i 0#8) ∧
        (∀ x, x < a ∨ a + bytes.length ≤ x → t.inCell x = s.inCell x) ∧
        ∀ x, t.outCell x = s.outCell x) ∧
    (bytes ≠ [] → 2 ^ s.cfg.lenw < a + bytes.length → ∃ x, step s = .fault (.noSuchLocation .bufIn x) ∧
      2 ^ s.cfg.lenw ≤ x ∧ a ≤ x ∧ x < a + bytes.length)

/-- R37, R101, R291: READ OUT while not BUSY returns the bytes OUT holds; while BUSY it returns bytes the spec leaves
unspecified (log 11), and disturbs nothing. A location that R37 does not give faults, by the model's choice (log 15). -/
def Obligations.ReadOutReturnsOut : Prop :=
  ∀ (s : State) (a k : Nat) (rest : List Event), s.events = .readOut a k :: rest →
    (a + k ≤ 2 ^ s.cfg.lenw → s.busy = false →
      ∃ bytes : List Byte, step s = .next { s with events := rest, obs := s.obs ++ [.out a bytes] } ∧
        bytes.length = k ∧ ∀ i, i < k → bytes.getD i 0#8 = s.outCell (a + i)) ∧
    (a + k ≤ 2 ^ s.cfg.lenw → s.busy = true →
      ∃ bytes : List Byte, bytes.length = k ∧
        step s = .next { s with events := rest, obs := s.obs ++ [.out a bytes], draws := s.draws + 1 }) ∧
    (k ≠ 0 → 2 ^ s.cfg.lenw < a + k → ∃ x, step s = .fault (.noSuchLocation .bufOut x) ∧
      2 ^ s.cfg.lenw ≤ x ∧ a ≤ x ∧ x < a + k)

/-- R291: after a host write to IN while BUSY, an engine read of a byte of the operation's input returns the old byte
or the new one; a write outside `IN[0..L_N)` changes no engine read inside it; CMD, ILEN, OCAP, the latches and OUT do
not change. -/
def Obligations.InWriteWhileBusyIsOldOrNew : Prop :=
  ∀ (s : State) (a : Nat) (bytes : List Byte) (rest : List Event), s.events = .fillIn a bytes :: rest →
    s.busy = true → s.inRace = [] → a + bytes.length ≤ 2 ^ s.cfg.lenw →
    ∃ t, step s = .next t ∧ t = { s with events := rest, inMem := t.inMem, inRace := t.inRace } ∧
      (∀ x, x < s.lN → t.inByte x = s.inByte x ∨
        ∃ i, i < bytes.length ∧ x = a + i ∧ t.inByte x = bytes.getD i 0#8) ∧
      (s.lN ≤ a → ∀ x, x < s.lN → t.inByte x = s.inByte x)

/-- R291: with a host that meets its obligation (it neither writes IN nor reads OUT while BUSY), no engine read ever
has a choice: the record of overwritten input bytes stays empty at every step that does not stop. -/
def Obligations.WellBehavedHostNeverRaces : Prop :=
  ∀ s t : State, s.inRace = [] → s.hostObliges → step s = .next t → t.inRace = [] ∧ ∀ a, t.inByte a = t.inCell a

/-! ### ENCLEN and DECEST -/

/-- R114: ENCLEN.SN, ENCLEN.UN, ENCLEN.SP and ENCLEN.UP end Ok with the encoded length, for any operand and any
buffer contents; every other field is the launch's or unchanged. (`draws` and `inRace` are the model's own.) -/
def Obligations.EnclenLeavesTheLength : Prop :=
  ∀ (i : Instr) (s : State), i.op = .enclen → s.busy = false →
    exec i s = .next
      { s with
        cmd := encode i, lOp := .enclen, lUrl := i.url, lPad := i.pad, lN := s.ilen, lCap := s.ocap
        ipos := 0, opos := 0, acc := 0#8, phase := .done, err := none
        rlen := if i.pad then (s.ilen + 2) / 3 * 4 else (4 * s.ilen + 2) / 3
        inRace := [], draws := s.draws + 1 }

/-- R117, R116: DECEST.SN, DECEST.UN, DECEST.SP and DECEST.UP end Ok with the estimate; every other field is the
launch's or unchanged. (`draws` and `inRace` are the model's own.) -/
def Obligations.DecestLeavesTheEstimate : Prop :=
  ∀ (i : Instr) (s : State), i.op = .decest → s.busy = false →
    exec i s = .next
      { s with
        cmd := encode i, lOp := .decest, lUrl := i.url, lPad := i.pad, lN := s.ilen, lCap := s.ocap
        ipos := 0, opos := 0, acc := 0#8, phase := .done, err := none
        rlen := (s.ilen / 4 + 1) * 3
        inRace := [], draws := s.draws + 1 }

/-! ### ENC -/

/-- R61 (and R120): ENC.SN, ENC.UN, ENC.SP and ENC.UP, with capacity for the encoded length, end Ok: RLEN is the
encoded length, `OUT[0..RLEN)` the encoding of the input, every other byte of OUT unchanged, ACC 0 as launched; the frame is
`CommandFrame`. -/
def Obligations.EncCompletesWithTheEncoding : Prop :=
  ∀ (i : Instr) (s : State), i.op = .enc → s.busy = false → encodedLen i.pad s.ilen ≤ s.ocap →
    ∃ t, exec i s = .next t ∧ CommandFrame i s t ∧ t.err = none ∧ t.rlen = encodedLen i.pad s.ilen ∧
      t.ipos = s.ilen ∧ t.opos = t.rlen ∧ t.acc = 0#8 ∧ t.output t.rlen = encRef i.url i.pad (s.input s.ilen) ∧
      (∀ x, t.rlen ≤ x → t.outCell x = s.outCell x) ∧ (s.ilen = 0 → t.outMem = s.outMem)

/-- R121, R253: ENC.SN, ENC.UN, ENC.SP and ENC.UP with a capacity below the encoded length end with BufferTooSmall,
whatever IN holds; no byte of OUT is written. -/
def Obligations.EncWithShortCapacityIsRefused : Prop :=
  ∀ (i : Instr) (s : State), i.op = .enc → s.busy = false → s.ocap < encodedLen i.pad s.ilen →
    exec i s = .next
      { s with
        cmd := encode i, lOp := .enc, lUrl := i.url, lPad := i.pad, lN := s.ilen, lCap := s.ocap
        ipos := 0, opos := 0, acc := 0#8, phase := .done, err := some .bufferTooSmall, rlen := 0
        inRace := [], draws := s.draws + 1 }

/-- R122: ENC of the empty input ends Ok(0) for every capacity, with no byte of OUT written. -/
def Obligations.EncOfNothingWritesNothing : Prop :=
  ∀ (i : Instr) (s : State), i.op = .enc → s.busy = false → s.ilen = 0 →
    exec i s = .next
      { s with
        cmd := encode i, lOp := .enc, lUrl := i.url, lPad := i.pad, lN := 0, lCap := s.ocap
        ipos := 0, opos := 0, acc := 0#8, phase := .done, err := none, rlen := 0
        inRace := [], draws := s.draws + 1 }

/-! ### DEC -/

/-- R62 (and R126, R27): DEC.SN, DEC.UN, DEC.SP and DEC.UP, with capacity for the estimate and an input that DEC_REF
accepts, end Ok: RLEN is the number of bytes, `OUT[0..RLEN)` the bytes, every byte of OUT from the estimate on
unchanged; nothing is said of the bytes between (log 5); the frame is `CommandFrame`. -/
def Obligations.DecCompletesWithTheBytes : Prop :=
  ∀ (i : Instr) (s : State) (out : List Byte), i.op = .dec → s.busy = false → s.cfg.wf = true →
    estimateDecodedLen s.ilen ≤ s.ocap → decRef s.cfg i.url i.pad (s.input s.ilen) = .ok out →
    ∃ t, exec i s = .next t ∧ CommandFrame i s t ∧ t.err = none ∧ t.rlen = out.length ∧ t.opos = t.rlen ∧
      t.output t.rlen = out ∧ t.rlen < estimateDecodedLen s.ilen ∧
      ∀ x, estimateDecodedLen s.ilen ≤ x → t.outCell x = s.outCell x

/-- R257 (and R126, R127, R256): how a DEC that fails ends. With a short capacity: BufferTooSmall, whatever IN holds,
OUT unchanged. With an input that DEC_REF rejects: its error in STATUS.ERR, RLEN 0, every byte of OUT from the estimate
on unchanged; nothing is said of the bytes below it (log 6). -/
def Obligations.DecEndsWithTheError : Prop :=
  (∀ (i : Instr) (s : State), i.op = .dec → s.busy = false → s.ocap < estimateDecodedLen s.ilen →
    exec i s = .next
      { s with
        cmd := encode i, lOp := .dec, lUrl := i.url, lPad := i.pad, lN := s.ilen, lCap := s.ocap
        ipos := 0, opos := 0, acc := 0#8, phase := .done, err := some .bufferTooSmall, rlen := 0
        inRace := [], draws := s.draws + 1 }) ∧
  ∀ (i : Instr) (s : State) (e : ErrorKind), i.op = .dec → s.busy = false → s.cfg.wf = true →
    estimateDecodedLen s.ilen ≤ s.ocap → decRef s.cfg i.url i.pad (s.input s.ilen) = .error e →
    ∃ t, exec i s = .next t ∧ CommandFrame i s t ∧ t.err = some e ∧ t.rlen = 0 ∧
      ∀ x, estimateDecodedLen s.ilen ≤ x → t.outCell x = s.outCell x

/-! ### All commands -/

/-- R28, R292: a command while BUSY is dropped: nothing changes. -/
def Obligations.CommandWhileBusyIsIgnored : Prop :=
  ∀ (i : Instr) (s : State), s.busy = true → exec i s = .next s

/-- R254: which operation can end in which way, complete. -/
def Obligations.WaysAnOperationEnds : Prop :=
  ∀ (i : Instr) (s : State), s.busy = false → s.cfg.wf = true →
    ∃ t, exec i s = .next t ∧ t.phase = .done ∧
      (i.op = .enclen ∨ i.op = .decest → t.err = none) ∧
      (i.op = .enc → t.err = if s.ocap < encodedLen i.pad s.ilen then some .bufferTooSmall else none) ∧
      (i.op = .dec → t.err = if s.ocap < estimateDecodedLen s.ilen then some .bufferTooSmall
        else match decRef s.cfg i.url i.pad (s.input s.ilen) with
          | .ok _ => none
          | .error e => some e) ∧
      (i.op = .dec → estimateDecodedLen s.ilen ≤ s.ocap → t.err ≠ some .bufferTooSmall)

/-- R255, R256: the two completions. -/
def Obligations.OkAndRaiseWriteThreeRegisters : Prop :=
  (∀ (s : State) (m : Nat), s.ok m = { s with rlen := m, err := none, phase := .done } ∧
    (s.ok m).status = 0b0010#4) ∧
  ∀ (s : State) (e : ErrorKind), s.raise e = { s with rlen := 0, err := some e, phase := .done } ∧
    (s.raise e).status = (match e with
      | .invalidLength => 0b0110#4 | .invalidCharacter => 0b1010#4 | .bufferTooSmall => 0b1110#4)

/-- R17, R110, R296: the command as one step is the launch followed by engine steps, at most the bound of R296, of
which only the last ends the operation. -/
def Obligations.CommandIsLaunchThenSteps : Prop :=
  ∀ (i : Instr) (s : State), s.busy = false → s.cfg.wf = true →
    ∃ k, k ≤ stepBound i.op s.ilen ∧ exec i s = .next (engineStep^[k] (s.launch (encode i))) ∧
      (engineStep^[k] (s.launch (encode i))).phase = .done ∧
      ∀ j, j < k → (engineStep^[j] (s.launch (encode i))).busy = true

/-- R38, R110: an operation's result depends on nothing but the command, ILEN, OCAP, the input bytes and the
parameters: two blocks that agree on these agree on STATUS.ERR, RLEN and, on success of ENC or DEC, on
`OUT[0..RLEN)`. -/
def Obligations.NoHiddenState : Prop :=
  ∀ (i : Instr) (s s' : State), s.busy = false → s'.busy = false → s.cfg.wf = true → s'.cfg = s.cfg →
    s'.ilen = s.ilen → s'.ocap = s.ocap → s'.input s.ilen = s.input s.ilen →
    ∃ t t', exec i s = .next t ∧ exec i s' = .next t' ∧ t'.err = t.err ∧ t'.rlen = t.rlen ∧
      (t.err = none → i.op = .enc ∨ i.op = .dec → t'.output t'.rlen = t.output t.rlen)

/-- R229: tier equivalence. CAPS, the three MINLEN and VDEC_MARGIN, within their ranges, change neither STATUS.ERR nor
RLEN nor, on success, `OUT[0..RLEN)`. -/
def Obligations.TiersAreEquivalent : Prop :=
  ∀ (i : Instr) (s : State) (caps : BitVec 3) (m128 m256 m512 margin : Nat), s.busy = false → s.cfg.wf = true →
    16 ≤ m128 → 32 ≤ m256 → 64 ≤ m512 → 4 ≤ margin →
    ∃ t t', exec i s = .next t ∧
      exec i { s with cfg := { s.cfg with
        caps := caps, minlen128 := m128, minlen256 := m256, minlen512 := m512, vdecMargin := margin } } = .next t' ∧
      t'.err = t.err ∧ t'.rlen = t.rlen ∧ (t.err = none → t'.output t'.rlen = t.output t.rlen)

/-- R130: round trip. DEC_REF of ENC_REF gives the input back; and at the registers, an ENC followed by a DEC, under
the same URL and PAD, of the RLEN bytes it produced, ends Ok with the input. -/
def Obligations.DecodeOfEncodeIsTheInput : Prop :=
  (∀ (p : Params) (url pad : Bool) (x : List Byte), p.invalidMarked = true →
    decRef p url pad (encRef url pad x) = .ok x) ∧
  ∀ (i j : Instr) (s : State) (cap : Nat), i.op = .enc → j.op = .dec → j.url = i.url → j.pad = i.pad →
    s.busy = false → s.cfg.wf = true → s.ilen < 2 ^ s.cfg.lenw → encodedLen i.pad s.ilen < 2 ^ s.cfg.lenw →
    encodedLen i.pad s.ilen ≤ s.ocap → cap < 2 ^ s.cfg.lenw → estimateDecodedLen (encodedLen i.pad s.ilen) ≤ cap →
    ∃ t u v, exec i s = .next t ∧ hostFillIn 0 (t.output t.rlen) t = .next u ∧
      exec j (hostWrite 3 cap (hostWrite 2 t.rlen u)) = .next v ∧
      v.err = none ∧ v.rlen = s.ilen ∧ v.output v.rlen = s.input s.ilen

/-! ### The engine's steps -/

/-- R221, R222: tier selection in P_CHECK after the size check, for all eight values of CAPS; no other step writes
TIER. -/
def Obligations.TheWidestPresentTierIsSelected : Prop :=
  (∀ s : State, s.phase = .check → (s.lOp = .enc ∧ s.lN ≠ 0) ∨ s.lOp = .dec → s.required ≤ s.lCap →
    let t := engineStep s
    let fits512 := s.cfg.caps.getLsbD 2 = true ∧ s.cfg.minlen512 ≤ s.lN
    let fits256 := s.cfg.caps.getLsbD 1 = true ∧ s.cfg.minlen256 ≤ s.lN
    let fits128 := s.cfg.caps.getLsbD 0 = true ∧ s.cfg.minlen128 ≤ s.lN
    t = { s with tier := t.tier, phase := t.phase, draws := s.draws + 1 } ∧
    (fits512 → t.tier = .v512 ∧ t.phase = .vloop) ∧
    (¬fits512 → fits256 → t.tier = .v256 ∧ t.phase = .vloop) ∧
    (¬fits512 → ¬fits256 → fits128 → t.tier = .v128 ∧ t.phase = .vloop) ∧
    (¬fits512 → ¬fits256 → ¬fits128 → t.tier = .scalar ∧ t.phase = .sloop)) ∧
  ∀ s : State, s.phase ≠ .check → (engineStep s).tier = s.tier

/-- R27, R31, R32, R34, R37, R225, R255, R256: what one engine step may change, and in which phase. TIER changes
only in P_CHECK; ACC only in P_SLOOP of a DEC; the vector registers only in P_VLOOP; the positions and OUT only in a
kernel phase; ERR and RLEN only when the operation ends. The host's registers, the latches, IN, the parameters and the
outside never change. That the vector registers change only in P_VLOOP is the model's choice (log 12: R35 leaves them
unspecified between steps). (`draws` is the model's own, log 18.) -/
def Obligations.EngineStepChangesOnlyItsRegisters : Prop :=
  ∀ s : State,
    let t := engineStep s
    t = { s with
      tier := t.tier, phase := t.phase, ipos := t.ipos, opos := t.opos, acc := t.acc, vec := t.vec
      outMem := t.outMem, err := t.err, rlen := t.rlen, draws := t.draws } ∧
    (t.tier ≠ s.tier → s.phase = .check) ∧
    (t.acc ≠ s.acc → s.phase = .sloop ∧ s.lOp = .dec) ∧
    (t.vec ≠ s.vec → s.phase = .vloop) ∧
    (t.ipos ≠ s.ipos ∨ t.opos ≠ s.opos ∨ t.outMem ≠ s.outMem → s.phase.kernel = true) ∧
    (t.err ≠ s.err ∨ t.rlen ≠ s.rlen → t.phase = .done) ∧
    (s.busy = false → t = s)

/-- R181: what a vector tier owes on one chunk, with the geometry of R180 (R9, R27) in numbers: a chunk of V128, V256, V512
takes 12, 24, 48 bytes to 16, 32, 64 characters, or 16, 32, 64 characters to 12, 24, 48 bytes. Encode: the characters of the
chunk's groups at OPOS, nothing else of OUT. Decode: InvalidCharacter exactly when some lookup is INVALID; otherwise the
bytes of its groups at OPOS, at most four bytes of garbage after them, nothing else of OUT. For a TIER whose CAPS bit is 0,
which no run reaches, this is the model's choice (log 36). -/
def Obligations.VectorChunkDoesWhatATierOwes : Prop :=
  (Tier.v128.chunkIn = 12 ∧ Tier.v128.bytes = 16 ∧ Tier.v256.chunkIn = 24 ∧ Tier.v256.bytes = 32 ∧
    Tier.v512.chunkIn = 48 ∧ Tier.v512.bytes = 64) ∧
  ∀ s : State, s.phase = .vloop → s.tier ≠ .scalar → s.inRace = [] → s.cfg.wf = true →
    (s.lOp = .enc → s.ipos + s.tier.chunkIn ≤ s.lN →
      let t := engineStep s
      t.phase = .vloop ∧ t.ipos = s.ipos + s.tier.chunkIn ∧ t.opos = s.opos + s.tier.bytes ∧
      ((List.range s.tier.bytes).map fun k => t.outCell (s.opos + k))
        = encRef s.lUrl s.lPad (s.readIn s.ipos s.tier.chunkIn) ∧
      ∀ x, x < s.opos ∨ s.opos + s.tier.bytes ≤ x → t.outCell x = s.outCell x) ∧
    (s.lOp = .dec → s.ipos + s.tier.bytes + s.cfg.vdecMargin ≤ s.lN →
      let t := engineStep s
      let c := s.readIn s.ipos s.tier.bytes
      ((∃ x ∈ c, dt s.cfg.invalid s.lUrl x = s.cfg.invalid) ↔
        t.phase = .done ∧ t.err = some .invalidCharacter ∧ t.rlen = 0) ∧
      ((∀ x ∈ c, dt s.cfg.invalid s.lUrl x ≠ s.cfg.invalid) →
        t.phase = .vloop ∧ t.ipos = s.ipos + s.tier.bytes ∧ t.opos = s.opos + s.tier.chunkIn ∧
        .ok ((List.range s.tier.chunkIn).map fun k => t.outCell (s.opos + k)) = decBulk s.cfg s.lUrl c ∧
        ∀ x, x < s.opos ∨ s.opos + s.tier.chunkIn + 4 ≤ x → t.outCell x = s.outCell x))

/-- R182 to R204: the stages of a vector chunk, in the working registers of its tier. Encode: the load, and for every group
the shuffle (R182, R183), the two products, the four indices of SPLIT3 (R184, R186); the characters of the indices (R187).
Decode: the load (R195); the five class masks (R198); when every character is in the alphabet, the decode-table values
(R200), the two products of every group (R203, R204) and, in lanes 0 to 11 of each sub-lane, the bytes of its groups
(R201). Every register of the tier has its `V` lanes (R35). That the registers hold these values after the step, and those
of the other tiers keep theirs, is the model's choice (log 12: the spec leaves them unspecified between steps); the
shuffle and the products are the realisation's (log 16). For a TIER whose CAPS bit is 0, which no run reaches, all this is
the model's choice (log 36). -/
def Obligations.VectorStagesComputeTheirFunctions : Prop :=
  ∀ s : State, s.phase = .vloop → s.tier ≠ .scalar → s.cfg.wf = true →
    let v := (engineStep s).vec.regs s.tier
    (s.lOp = .enc → s.ipos + s.tier.chunkIn ≤ s.lN →
      let x := s.readIn s.ipos s.tier.chunkIn
      (∀ r ∈ v.registers, r.length = s.tier.bytes) ∧
      (∀ t, t ≠ s.tier → (engineStep s).vec.regs t = s.vec.regs t) ∧
      (∀ j, j < s.tier.subs → (v.loaded.drop (16 * j)).take 12 = (x.drop (12 * j)).take 12) ∧
      (∀ g, 4 * g < s.tier.bytes →
        let b := fun k => x.getD (3 * g + k) 0#8
        let i := split3 (b 0) (b 1) (b 2)
        (v.shuffled.drop (4 * g)).take 4 = [b 1, b 0, b 2, b 1] ∧
        (v.product1.drop (4 * g)).take 4 = [i.1.setWidth 8, 0#8, i.2.2.1.setWidth 8, 0#8] ∧
        (v.product2.drop (4 * g)).take 4 = [0#8, i.2.1.setWidth 8, 0#8, i.2.2.2.setWidth 8] ∧
        (v.index.drop (4 * g)).take 4
          = [i.1.setWidth 8, i.2.1.setWidth 8, i.2.2.1.setWidth 8, i.2.2.2.setWidth 8]) ∧
      v.result = v.index.map fun i => alpha s.lUrl (i.setWidth 6)) ∧
    (s.lOp = .dec → s.ipos + s.tier.bytes + s.cfg.vdecMargin ≤ s.lN →
      let c := s.readIn s.ipos s.tier.bytes
      (∀ r ∈ v.registers, r.length = s.tier.bytes) ∧
      (∀ t, t ≠ s.tier → (engineStep s).vec.regs t = s.vec.regs t) ∧
      v.loaded = c ∧
      (∀ k, k < s.tier.bytes →
        let x := c.getD k 0#8
        v.maskUpper.getD k 0#8 = (if 0x41 ≤ x.toNat ∧ x.toNat ≤ 0x5A then 0xFF#8 else 0x00#8) ∧
        v.maskLower.getD k 0#8 = (if 0x61 ≤ x.toNat ∧ x.toNat ≤ 0x7A then 0xFF#8 else 0x00#8) ∧
        v.maskDigit.getD k 0#8 = (if 0x30 ≤ x.toNat ∧ x.toNat ≤ 0x39 then 0xFF#8 else 0x00#8) ∧
        v.maskSym62.getD k 0#8 = (if x = alpha s.lUrl 62#6 then 0xFF#8 else 0x00#8) ∧
        v.maskSym63.getD k 0#8 = (if x = alpha s.lUrl 63#6 then 0xFF#8 else 0x00#8)) ∧
      ((∀ x ∈ c, ∃ j, alpha s.lUrl j = x) →
        v.index = c.map (dt s.cfg.invalid s.lUrl) ∧
        (∀ g, 4 * g < s.tier.bytes →
          let i := fun k => sextet (v.index.getD (4 * g + k) 0#8)
          let m := fun k => BitVec.ofNat 16 (64 * (i k).toNat + (i (k + 1)).toNat)
          (v.product1.drop (4 * g)).take 4 = bytes16 (m 0) ++ bytes16 (m 2) ∧
          ∃ o0 o1 o2, join4 (i 0) (i 1) (i 2) (i 3) = [o0, o1, o2] ∧
            (v.product2.drop (4 * g)).take 4 = [o2, o1, o0, 0#8]) ∧
        decBulk s.cfg s.lUrl c
          = .ok ((List.range s.tier.subs).flatMap fun j => (v.result.drop (16 * j)).take 12)))

/-- R170, R171: the scalar fast steps. Encode: six bytes to eight characters at OPOS. Decode: InvalidCharacter exactly
when some of the eight lookups is INVALID (ACC is their OR); otherwise six bytes at OPOS and one byte of garbage. -/
def Obligations.ScalarFastStepsMoveSixAndEight : Prop :=
  ∀ s : State, s.phase = .sloop → s.inRace = [] → s.cfg.wf = true →
    (s.lOp = .enc → s.ipos + 6 ≤ s.lN →
      let t := engineStep s
      t.phase = .sloop ∧ t.ipos = s.ipos + 6 ∧ t.opos = s.opos + 8 ∧
      ((List.range 8).map fun k => t.outCell (s.opos + k))
        = encGroup s.lUrl (s.inCell s.ipos) (s.inCell (s.ipos + 1)) (s.inCell (s.ipos + 2))
          ++ encGroup s.lUrl (s.inCell (s.ipos + 3)) (s.inCell (s.ipos + 4)) (s.inCell (s.ipos + 5)) ∧
      ∀ x, x < s.opos ∨ s.opos + 8 ≤ x → t.outCell x = s.outCell x) ∧
    (s.lOp = .dec → s.ipos + 12 ≤ s.lN →
      let t := engineStep s
      let c := s.readIn s.ipos 8
      t.acc = (c.map (dt s.cfg.invalid s.lUrl)).foldl (fun a v => a ||| v) 0#8 ∧
      ((∃ x ∈ c, dt s.cfg.invalid s.lUrl x = s.cfg.invalid) ↔
        t.phase = .done ∧ t.err = some .invalidCharacter ∧ t.rlen = 0) ∧
      ((∀ x ∈ c, dt s.cfg.invalid s.lUrl x ≠ s.cfg.invalid) →
        t.phase = .sloop ∧ t.ipos = s.ipos + 8 ∧ t.opos = s.opos + 6 ∧
        .ok ((List.range 6).map fun k => t.outCell (s.opos + k)) = decBulk s.cfg s.lUrl c ∧
        ∀ x, x < s.opos ∨ s.opos + 7 ≤ x → t.outCell x = s.outCell x))

/-- R227: the position and data invariants at every step boundary of a running ENC, and of a DEC in its kernel phases. -/
def Obligations.PositionsAndDataAtEveryStep : Prop :=
  ∀ (i : Instr) (s : State) (k : Nat), s.busy = false → s.cfg.wf = true →
    let u := engineStep^[k] (s.launch (encode i))
    (i.op = .enc → u.busy = true →
      u.ipos % 3 = 0 ∧ 3 * u.opos = 4 * u.ipos ∧ u.ipos ≤ s.ilen ∧
      u.output u.opos = encRef i.url i.pad ((s.input s.ilen).take u.ipos)) ∧
    (i.op = .dec → u.phase.kernel = true →
      u.ipos % 8 = 0 ∧ 4 * u.opos = 3 * u.ipos ∧ u.ipos ≤ s.ilen - 4 ∧ u.ipos ≤ tailStart s.ilen ∧
      (∀ c ∈ (s.input s.ilen).take u.ipos, ∃ j, alpha i.url j = c) ∧
      decBulk s.cfg i.url ((s.input s.ilen).take u.ipos) = .ok (u.output u.opos)) ∧
    (i.op = .dec → u.phase = .tail → u.ipos = tailStart s.ilen)

/-- R59: the engine reads no byte of IN at or beyond L_N: replacing IN by contents that agree below L_N changes
nothing of an engine step but the contents themselves. -/
def Obligations.EngineReadsInsideTheInput : Prop :=
  ∀ (s : State) (m : Memory), (∀ a, a < s.lN → ({ s with inMem := m } : State).inCell a = s.inCell a) →
    engineStep { s with inMem := m } = { engineStep s with inMem := m }

/-- R60: the engine writes no byte of OUT at or beyond `required`, nor at or beyond L_CAP, and no byte of IN. -/
def Obligations.EngineWritesInsideTheOutput : Prop :=
  ∀ s : State, s.Inv → s.busy = true →
    (∀ x, s.required ≤ x → (engineStep s).outCell x = s.outCell x) ∧
    (∀ x, s.lCap ≤ x → (engineStep s).outCell x = s.outCell x) ∧ (engineStep s).inMem = s.inMem

/-- R296: every operation in progress ends after finitely many engine steps: ENCLEN and DECEST in one, ENC in at most
`n div 6 + 6`, DEC in at most `n div 8 + 6`, from any state of the invariant, and whatever the host wrote while BUSY. -/
def Obligations.EveryOperationEndsInTime : Prop :=
  ∀ s : State, s.Inv → s.busy = true →
    ∃ k, 1 ≤ k ∧
      k ≤ (match s.lOp with | .enclen => 1 | .decest => 1 | .enc => s.lN / 6 + 6 | .dec => s.lN / 8 + 6) ∧
      (engineStep^[k] s).phase = .done

/-- R101, R296, under the model's schedule, in which the engine takes a step whenever the host waits (log 8, the fairness
assumption of R296; the number of polls is left out, log 31): a host that waits sees DONE. From any state of the
invariant, in at most the bound of R296 and one more step the machine has taken the WAIT off its events with the operation
ended. -/
def Obligations.WaitSeesDone : Prop :=
  ∀ (s : State) (rest : List Event), s.Inv → s.phase ≠ .idle → s.events = .wait :: rest →
    ∃ k t, k ≤ s.lN / 6 + 7 ∧ stepMany k s = some t ∧ t.phase = .done ∧ t.events = rest ∧ t.obs = s.obs

/-- R37, R22 to R25, R227, R258, R292: every step of the whole machine keeps the invariant: the parameters stay in
their ranges, the buffers canonical and inside the address space, the registers inside their widths, ERR set only when
DONE and then RLEN 0, the latches equal to the host's registers while BUSY, a kernel running only after the size check
and on a present tier, the positions as R227 says. -/
def Obligations.StepKeepsTheInvariant : Prop := ∀ s t : State, s.Inv → step s = .next t → t.Inv

/-- R35: every step of the whole machine keeps every vector working register of each tier at the tier's width, 16, 32 or 64
byte lanes. -/
def Obligations.StepKeepsTheVectorWidths : Prop := ∀ s t : State, s.VectorsOk → step s = .next t → t.VectorsOk

/-- R227, as a step lemma: from a state of the invariant whose data are as R227 says and whose host meets its obligation
(R291), a step of the whole machine leaves the data as R227 says: for an ENC, OUT up to OPOS is the encoding of the input up
to IPOS; for a DEC, it is the decoding of the groups up to IPOS, all of whose characters are in the alphabet. -/
def Obligations.StepKeepsTheData : Prop :=
  ∀ s t : State, s.Inv → s.inRace = [] → s.hostObliges → s.DataOk → step s = .next t → t.DataOk

/-! ### The whole machine -/

/-- R30, R31, R37, R50, R52, R28 (log 7 for the blocking command): who writes what, over every step of the machine.
IN changes only by the host's FILL IN or a reset; OUT only by the engine, so only while BUSY or inside a command; ILEN
and OCAP only by the host's write of that register while not BUSY; CMD and the latches only by a launch; the parameters,
CAPS among them, never; and each reset apart. -/
def Obligations.EachElementHasItsWriters : Prop :=
  ∀ s t : State, step s = .next t → (∀ rest, s.events ≠ .reset :: rest) →
    let launched := s.busy = false ∧ ∃ rest, (∃ v, s.events = .write 0 v :: rest) ∨ ∃ w, s.events = .command w :: rest
    t.cfg = s.cfg ∧
    (t.inMem ≠ s.inMem → ∃ a bytes rest, s.events = .fillIn a bytes :: rest) ∧
    (t.outMem ≠ s.outMem → s.busy = true ∨ ∃ w rest, s.events = .command w :: rest) ∧
    (t.ilen ≠ s.ilen → s.busy = false ∧ ∃ v rest, s.events = .write 2 v :: rest) ∧
    (t.ocap ≠ s.ocap → s.busy = false ∧ ∃ v rest, s.events = .write 3 v :: rest) ∧
    (t.cmd ≠ s.cmd ∨ t.lOp ≠ s.lOp ∨ t.lUrl ≠ s.lUrl ∨ t.lPad ≠ s.lPad ∨ t.lN ≠ s.lN ∨ t.lCap ≠ s.lCap → launched)

/-- R24, R25, R28, R255, R256, R282: STATUS changes, and RLEN takes a new value, only when a launch is accepted (a
write of CMD leaves STATUS busy without error and RLEN 0), when an operation ends, or by the external reset. -/
def Obligations.StatusChangesAtLaunchAndCompletion : Prop :=
  ∀ s t : State, s.Inv → step s = .next t → t.status ≠ s.status ∨ t.rlen ≠ s.rlen →
    (∃ rest, s.events = .reset :: rest ∧ t.status = 0b0000#4 ∧ t.rlen = 0) ∨
    (s.busy = false ∧ (∃ v rest, s.events = .write 0 v :: rest) ∧ t.status = 0b0001#4 ∧ t.rlen = 0) ∨
    (s.busy = false ∧ (∃ w rest, s.events = .command w :: rest) ∧ t.phase = .done) ∨
    (s.busy = true ∧ t.phase = .done)

/-! ### Properties of DEC_REF -/

/-- R161 (a): the acceptance set of DEC_REF. -/
def Obligations.DecodeAcceptsExactlyTheseInputs : Prop :=
  ∀ (p : Params) (url pad : Bool) (x : List Byte), p.invalidMarked = true →
    let valid := fun c : Byte => ∃ j, alpha url j = c
    let padded := fun g : List Byte => ∃ c0 c1 c2, g = [c0, c1, c2, 0x3D#8] ∧ valid c0 ∧ valid c1 ∧
      (c2 = 0x3D#8 ∨ valid c2)
    ((∃ out, decRef p url pad x = .ok out) ↔
      (x.length % 4 = 0 ∧ ∀ c ∈ x, valid c) ∨
      (x.length % 4 = 0 ∧ 4 ≤ x.length ∧ padded (x.drop (x.length - 4)) ∧ ∀ c ∈ x.take (x.length - 4), valid c) ∨
      (pad = false ∧ (x.length % 4 = 2 ∨ x.length % 4 = 3) ∧ ∀ c ∈ x, valid c) ∨
      (p.postPad = .terminateOk ∧ ∃ q, tailStart x.length ≤ q ∧ q % 4 = 0 ∧ q + 4 < x.length ∧
        padded ((x.drop q).take 4) ∧ ∀ c ∈ x.take q, valid c))

/-- R161 (b): under REJECT, DEC_REF does not depend on where the tail window starts. -/
def Obligations.WindowDoesNotMatterUnderReject : Prop :=
  ∀ (p : Params) (url pad : Bool) (x : List Byte) (t : Nat), p.invalidMarked = true → p.postPad = .reject →
    t % 4 = 0 → t ≤ x.length - 4 → decRefAt p url pad t x = decRef p url pad x

/-- R162: composition of decodings, at a multiple of 8 under either policy, at a multiple of 4 under REJECT. -/
def Obligations.DecodingsComposeAtMultiplesOfEight : Prop :=
  ∀ (p : Params) (url pad : Bool) (x y : List Byte), p.invalidMarked = true →
    (∀ c ∈ x, ∃ j, alpha url j = c) → x.length % 8 = 0 ∨ (x.length % 4 = 0 ∧ p.postPad = .reject) →
    ∃ a, decBulk p url x = .ok a ∧ 4 * a.length = 3 * x.length ∧
      decRef p url pad (x ++ y) = match decRef p url pad y with
        | .ok b => .ok (a ++ b)
        | .error e => .error e

/-- R116, R132, R161 (d): the number of bytes a successful decoding gives is below the estimate, by the exact bound. -/
def Obligations.DecodedLengthIsBelowTheEstimate : Prop :=
  ∀ (p : Params) (url pad : Bool) (x out : List Byte), decRef p url pad x = .ok out →
    out.length ≤ 3 * (x.length / 4) + (if x.length % 4 = 2 then 1 else if x.length % 4 = 3 then 2 else 0) ∧
    out.length + 1 ≤ estimateDecodedLen x.length

/-- R251, R252, R254, R260: the errors of DEC_REF. It never reports BufferTooSmall; InvalidLength needs a length that
is no multiple of 4 under PAD, or 1 modulo 4; InvalidCharacter needs a byte outside the alphabet. -/
def Obligations.DecodeErrorsHaveTheirCauses : Prop :=
  ∀ (p : Params) (url pad : Bool) (x : List Byte) (e : ErrorKind), p.invalidMarked = true →
    decRef p url pad x = .error e →
    (e = .invalidLength ∧ ((pad = true ∧ x.length % 4 ≠ 0) ∨ x.length % 4 = 1)) ∨
    (e = .invalidCharacter ∧ ∃ c ∈ x, ∀ j, alpha url j ≠ c)

/-! ### Host programs -/

/-- R102, R104, R105: the source's four functions as host programs: the length functions return the lengths, the
allocating encode the encoding, the allocating decode what DEC_REF says. -/
def Obligations.HostCallsReturnTheFunctions : Prop :=
  ∀ (url pad : Bool) (x : List Byte) (n : Nat) (s : State), s.busy = false → s.cfg.wf = true →
    (n < 2 ^ s.cfg.lenw →
      (∃ t, callLength .enclen url pad n s = some (encodedLen pad n, t)) ∧
      ∃ t, callLength .decest url pad n s = some (estimateDecodedLen n, t)) ∧
    (x.length < 2 ^ s.cfg.lenw → encodedLen pad x.length < 2 ^ s.cfg.lenw →
      ∃ t, callEncode url pad x s = some (.ok (encRef url pad x), t)) ∧
    (x.length < 2 ^ s.cfg.lenw → estimateDecodedLen x.length < 2 ^ s.cfg.lenw →
      ∃ t, callDecode url pad x s = some (decRef s.cfg url pad x, t))

/-- R102, R103 (with R28, R101, R292) on a BUSY block: the writes and the command of a host call are ignored, its WAIT is
for the operation in progress, and what it returns is that operation's: after the engine steps that operation still takes,
RLEN, or the error in STATUS.ERR, or the bytes `OUT[0..RLEN)`. The FILL IN of `encode_into` and `decode_into` lands while
BUSY (log 10). That the engine takes no step between the accesses of a call before its WAIT is the model's choice (log 33),
and so is what stands in the bytes of OUT beyond its last location, when the RLEN of a length command exceeds it (log 34).
-/
def Obligations.HostCallsWaitForTheOperationInProgress : Prop :=
  ∀ (op : Op) (url pad : Bool) (s : State), s.Inv → s.busy = true →
    (∀ n, ∃ k t, k ≤ stepBound s.lOp s.lN ∧ t = engineStep^[k] s ∧ t.phase = .done ∧
      (∀ j, j < k → (engineStep^[j] s).busy = true) ∧ callLength op url pad n s = some (t.rlen, t)) ∧
    ∀ (x : List Byte) (cap : Nat), x.length ≤ 2 ^ s.cfg.lenw →
      ∃ u k t, hostFillIn 0 x s = .next u ∧ k ≤ stepBound s.lOp s.lN ∧ t = engineStep^[k] u ∧ t.phase = .done ∧
        (∀ j, j < k → (engineStep^[j] u).busy = true) ∧
        callInto op url pad x cap s = some (match t.err with
          | none => (.ok (t.output t.rlen), t)
          | some e => (.error e, t))

/-- R247 (and R242), for inputs that fit one block, the chunker in the model's form of functions over blocks (log 24):
chunked encode is ENC_REF of the whole input, or BufferTooSmall for the whole output. -/
def Obligations.ChunkedEncodeIsSerial : Prop :=
  ∀ (q : ParParams) (url pad : Bool) (block : Nat → State) (cap : Nat) (x : List Byte), q.wf = true →
    (∀ k, (block k).busy = false ∧ (block k).cfg.wf = true ∧ x.length < 2 ^ (block k).cfg.lenw ∧
      encodedLen pad x.length < 2 ^ (block k).cfg.lenw) →
    chunkedEncode q url pad block cap x
      = some (if cap < encodedLen pad x.length then .error .bufferTooSmall else .ok (encRef url pad x))

/-- R247 (and R243, R240), for inputs that fit one block, the chunker in the model's form of functions over blocks (log 24):
chunked decode is DEC_REF of the whole input, with the same bytes or the same error, for both values of POST_PAD_POLICY;
with a capacity below the estimate of the whole input it is BufferTooSmall, as the contract of `decode_into` has it (where
the chunker makes this check is the model's, log 32). -/
def Obligations.ChunkedDecodeIsSerial : Prop :=
  ∀ (q : ParParams) (p : Params) (url pad : Bool) (block : Nat → State) (cap : Nat) (x : List Byte), q.wf = true →
    (∀ k, (block k).busy = false ∧ (block k).cfg = p) → p.wf = true → x.length < 2 ^ p.lenw →
    estimateDecodedLen x.length < 2 ^ p.lenw →
    chunkedDecode q url pad block cap x
      = some (if cap < estimateDecodedLen x.length then .error .bufferTooSmall else decRef p url pad x)
end

