-- ==== Sys2Proof/Laws/State.lean ====
section
/-! SUPPORT. One lemma per field per update of the state, each true by unfolding the update once. -/

namespace Sys2Proof.Machine

variable (s : State)

/-! `writeOut` -/

@[simp] theorem State.writeOut_cfg (a : Nat) (bytes : List Byte) : (s.writeOut a bytes).cfg = s.cfg := rfl
@[simp] theorem State.writeOut_cmd (a : Nat) (bytes : List Byte) : (s.writeOut a bytes).cmd = s.cmd := rfl
@[simp] theorem State.writeOut_err (a : Nat) (bytes : List Byte) : (s.writeOut a bytes).err = s.err := rfl
@[simp] theorem State.writeOut_ilen (a : Nat) (bytes : List Byte) : (s.writeOut a bytes).ilen = s.ilen := rfl
@[simp] theorem State.writeOut_ocap (a : Nat) (bytes : List Byte) : (s.writeOut a bytes).ocap = s.ocap := rfl
@[simp] theorem State.writeOut_rlen (a : Nat) (bytes : List Byte) : (s.writeOut a bytes).rlen = s.rlen := rfl
@[simp] theorem State.writeOut_lOp (a : Nat) (bytes : List Byte) : (s.writeOut a bytes).lOp = s.lOp := rfl
@[simp] theorem State.writeOut_lUrl (a : Nat) (bytes : List Byte) : (s.writeOut a bytes).lUrl = s.lUrl := rfl
@[simp] theorem State.writeOut_lPad (a : Nat) (bytes : List Byte) : (s.writeOut a bytes).lPad = s.lPad := rfl
@[simp] theorem State.writeOut_lN (a : Nat) (bytes : List Byte) : (s.writeOut a bytes).lN = s.lN := rfl
@[simp] theorem State.writeOut_lCap (a : Nat) (bytes : List Byte) : (s.writeOut a bytes).lCap = s.lCap := rfl
@[simp] theorem State.writeOut_tier (a : Nat) (bytes : List Byte) : (s.writeOut a bytes).tier = s.tier := rfl
@[simp] theorem State.writeOut_phase (a : Nat) (bytes : List Byte) : (s.writeOut a bytes).phase = s.phase := rfl
@[simp] theorem State.writeOut_ipos (a : Nat) (bytes : List Byte) : (s.writeOut a bytes).ipos = s.ipos := rfl
@[simp] theorem State.writeOut_opos (a : Nat) (bytes : List Byte) : (s.writeOut a bytes).opos = s.opos := rfl
@[simp] theorem State.writeOut_acc (a : Nat) (bytes : List Byte) : (s.writeOut a bytes).acc = s.acc := rfl
@[simp] theorem State.writeOut_vec (a : Nat) (bytes : List Byte) : (s.writeOut a bytes).vec = s.vec := rfl
@[simp] theorem State.writeOut_inMem (a : Nat) (bytes : List Byte) : (s.writeOut a bytes).inMem = s.inMem := rfl
@[simp] theorem State.writeOut_outMem (a : Nat) (bytes : List Byte) : (s.writeOut a bytes).outMem = s.outMem.store a bytes := rfl
@[simp] theorem State.writeOut_inRace (a : Nat) (bytes : List Byte) : (s.writeOut a bytes).inRace = s.inRace := rfl
@[simp] theorem State.writeOut_epoch (a : Nat) (bytes : List Byte) : (s.writeOut a bytes).epoch = s.epoch := rfl
@[simp] theorem State.writeOut_draws (a : Nat) (bytes : List Byte) : (s.writeOut a bytes).draws = s.draws := rfl
@[simp] theorem State.writeOut_events (a : Nat) (bytes : List Byte) : (s.writeOut a bytes).events = s.events := rfl
@[simp] theorem State.writeOut_obs (a : Nat) (bytes : List Byte) : (s.writeOut a bytes).obs = s.obs := rfl

/-! `advance` -/

@[simp] theorem State.advance_cfg (i o : Nat) : (s.advance i o).cfg = s.cfg := rfl
@[simp] theorem State.advance_cmd (i o : Nat) : (s.advance i o).cmd = s.cmd := rfl
@[simp] theorem State.advance_err (i o : Nat) : (s.advance i o).err = s.err := rfl
@[simp] theorem State.advance_ilen (i o : Nat) : (s.advance i o).ilen = s.ilen := rfl
@[simp] theorem State.advance_ocap (i o : Nat) : (s.advance i o).ocap = s.ocap := rfl
@[simp] theorem State.advance_rlen (i o : Nat) : (s.advance i o).rlen = s.rlen := rfl
@[simp] theorem State.advance_lOp (i o : Nat) : (s.advance i o).lOp = s.lOp := rfl
@[simp] theorem State.advance_lUrl (i o : Nat) : (s.advance i o).lUrl = s.lUrl := rfl
@[simp] theorem State.advance_lPad (i o : Nat) : (s.advance i o).lPad = s.lPad := rfl
@[simp] theorem State.advance_lN (i o : Nat) : (s.advance i o).lN = s.lN := rfl
@[simp] theorem State.advance_lCap (i o : Nat) : (s.advance i o).lCap = s.lCap := rfl
@[simp] theorem State.advance_tier (i o : Nat) : (s.advance i o).tier = s.tier := rfl
@[simp] theorem State.advance_phase (i o : Nat) : (s.advance i o).phase = s.phase := rfl
@[simp] theorem State.advance_ipos (i o : Nat) : (s.advance i o).ipos = s.ipos + i := rfl
@[simp] theorem State.advance_opos (i o : Nat) : (s.advance i o).opos = s.opos + o := rfl
@[simp] theorem State.advance_acc (i o : Nat) : (s.advance i o).acc = s.acc := rfl
@[simp] theorem State.advance_vec (i o : Nat) : (s.advance i o).vec = s.vec := rfl
@[simp] theorem State.advance_inMem (i o : Nat) : (s.advance i o).inMem = s.inMem := rfl
@[simp] theorem State.advance_outMem (i o : Nat) : (s.advance i o).outMem = s.outMem := rfl
@[simp] theorem State.advance_inRace (i o : Nat) : (s.advance i o).inRace = s.inRace := rfl
@[simp] theorem State.advance_epoch (i o : Nat) : (s.advance i o).epoch = s.epoch := rfl
@[simp] theorem State.advance_draws (i o : Nat) : (s.advance i o).draws = s.draws := rfl
@[simp] theorem State.advance_events (i o : Nat) : (s.advance i o).events = s.events := rfl
@[simp] theorem State.advance_obs (i o : Nat) : (s.advance i o).obs = s.obs := rfl

/-! `setPhase` -/

@[simp] theorem State.setPhase_cfg (p : Phase) : (s.setPhase p).cfg = s.cfg := rfl
@[simp] theorem State.setPhase_cmd (p : Phase) : (s.setPhase p).cmd = s.cmd := rfl
@[simp] theorem State.setPhase_err (p : Phase) : (s.setPhase p).err = s.err := rfl
@[simp] theorem State.setPhase_ilen (p : Phase) : (s.setPhase p).ilen = s.ilen := rfl
@[simp] theorem State.setPhase_ocap (p : Phase) : (s.setPhase p).ocap = s.ocap := rfl
@[simp] theorem State.setPhase_rlen (p : Phase) : (s.setPhase p).rlen = s.rlen := rfl
@[simp] theorem State.setPhase_lOp (p : Phase) : (s.setPhase p).lOp = s.lOp := rfl
@[simp] theorem State.setPhase_lUrl (p : Phase) : (s.setPhase p).lUrl = s.lUrl := rfl
@[simp] theorem State.setPhase_lPad (p : Phase) : (s.setPhase p).lPad = s.lPad := rfl
@[simp] theorem State.setPhase_lN (p : Phase) : (s.setPhase p).lN = s.lN := rfl
@[simp] theorem State.setPhase_lCap (p : Phase) : (s.setPhase p).lCap = s.lCap := rfl
@[simp] theorem State.setPhase_tier (p : Phase) : (s.setPhase p).tier = s.tier := rfl
@[simp] theorem State.setPhase_phase (p : Phase) : (s.setPhase p).phase = p := rfl
@[simp] theorem State.setPhase_ipos (p : Phase) : (s.setPhase p).ipos = s.ipos := rfl
@[simp] theorem State.setPhase_opos (p : Phase) : (s.setPhase p).opos = s.opos := rfl
@[simp] theorem State.setPhase_acc (p : Phase) : (s.setPhase p).acc = s.acc := rfl
@[simp] theorem State.setPhase_vec (p : Phase) : (s.setPhase p).vec = s.vec := rfl
@[simp] theorem State.setPhase_inMem (p : Phase) : (s.setPhase p).inMem = s.inMem := rfl
@[simp] theorem State.setPhase_outMem (p : Phase) : (s.setPhase p).outMem = s.outMem := rfl
@[simp] theorem State.setPhase_inRace (p : Phase) : (s.setPhase p).inRace = s.inRace := rfl
@[simp] theorem State.setPhase_epoch (p : Phase) : (s.setPhase p).epoch = s.epoch := rfl
@[simp] theorem State.setPhase_draws (p : Phase) : (s.setPhase p).draws = s.draws := rfl
@[simp] theorem State.setPhase_events (p : Phase) : (s.setPhase p).events = s.events := rfl
@[simp] theorem State.setPhase_obs (p : Phase) : (s.setPhase p).obs = s.obs := rfl

/-! `setTier` -/

@[simp] theorem State.setTier_cfg (t : Tier) : (s.setTier t).cfg = s.cfg := rfl
@[simp] theorem State.setTier_cmd (t : Tier) : (s.setTier t).cmd = s.cmd := rfl
@[simp] theorem State.setTier_err (t : Tier) : (s.setTier t).err = s.err := rfl
@[simp] theorem State.setTier_ilen (t : Tier) : (s.setTier t).ilen = s.ilen := rfl
@[simp] theorem State.setTier_ocap (t : Tier) : (s.setTier t).ocap = s.ocap := rfl
@[simp] theorem State.setTier_rlen (t : Tier) : (s.setTier t).rlen = s.rlen := rfl
@[simp] theorem State.setTier_lOp (t : Tier) : (s.setTier t).lOp = s.lOp := rfl
@[simp] theorem State.setTier_lUrl (t : Tier) : (s.setTier t).lUrl = s.lUrl := rfl
@[simp] theorem State.setTier_lPad (t : Tier) : (s.setTier t).lPad = s.lPad := rfl
@[simp] theorem State.setTier_lN (t : Tier) : (s.setTier t).lN = s.lN := rfl
@[simp] theorem State.setTier_lCap (t : Tier) : (s.setTier t).lCap = s.lCap := rfl
@[simp] theorem State.setTier_tier (t : Tier) : (s.setTier t).tier = t := rfl
@[simp] theorem State.setTier_phase (t : Tier) : (s.setTier t).phase = s.phase := rfl
@[simp] theorem State.setTier_ipos (t : Tier) : (s.setTier t).ipos = s.ipos := rfl
@[simp] theorem State.setTier_opos (t : Tier) : (s.setTier t).opos = s.opos := rfl
@[simp] theorem State.setTier_acc (t : Tier) : (s.setTier t).acc = s.acc := rfl
@[simp] theorem State.setTier_vec (t : Tier) : (s.setTier t).vec = s.vec := rfl
@[simp] theorem State.setTier_inMem (t : Tier) : (s.setTier t).inMem = s.inMem := rfl
@[simp] theorem State.setTier_outMem (t : Tier) : (s.setTier t).outMem = s.outMem := rfl
@[simp] theorem State.setTier_inRace (t : Tier) : (s.setTier t).inRace = s.inRace := rfl
@[simp] theorem State.setTier_epoch (t : Tier) : (s.setTier t).epoch = s.epoch := rfl
@[simp] theorem State.setTier_draws (t : Tier) : (s.setTier t).draws = s.draws := rfl
@[simp] theorem State.setTier_events (t : Tier) : (s.setTier t).events = s.events := rfl
@[simp] theorem State.setTier_obs (t : Tier) : (s.setTier t).obs = s.obs := rfl

/-! `setAcc` -/

@[simp] theorem State.setAcc_cfg (v : Byte) : (s.setAcc v).cfg = s.cfg := rfl
@[simp] theorem State.setAcc_cmd (v : Byte) : (s.setAcc v).cmd = s.cmd := rfl
@[simp] theorem State.setAcc_err (v : Byte) : (s.setAcc v).err = s.err := rfl
@[simp] theorem State.setAcc_ilen (v : Byte) : (s.setAcc v).ilen = s.ilen := rfl
@[simp] theorem State.setAcc_ocap (v : Byte) : (s.setAcc v).ocap = s.ocap := rfl
@[simp] theorem State.setAcc_rlen (v : Byte) : (s.setAcc v).rlen = s.rlen := rfl
@[simp] theorem State.setAcc_lOp (v : Byte) : (s.setAcc v).lOp = s.lOp := rfl
@[simp] theorem State.setAcc_lUrl (v : Byte) : (s.setAcc v).lUrl = s.lUrl := rfl
@[simp] theorem State.setAcc_lPad (v : Byte) : (s.setAcc v).lPad = s.lPad := rfl
@[simp] theorem State.setAcc_lN (v : Byte) : (s.setAcc v).lN = s.lN := rfl
@[simp] theorem State.setAcc_lCap (v : Byte) : (s.setAcc v).lCap = s.lCap := rfl
@[simp] theorem State.setAcc_tier (v : Byte) : (s.setAcc v).tier = s.tier := rfl
@[simp] theorem State.setAcc_phase (v : Byte) : (s.setAcc v).phase = s.phase := rfl
@[simp] theorem State.setAcc_ipos (v : Byte) : (s.setAcc v).ipos = s.ipos := rfl
@[simp] theorem State.setAcc_opos (v : Byte) : (s.setAcc v).opos = s.opos := rfl
@[simp] theorem State.setAcc_acc (v : Byte) : (s.setAcc v).acc = v := rfl
@[simp] theorem State.setAcc_vec (v : Byte) : (s.setAcc v).vec = s.vec := rfl
@[simp] theorem State.setAcc_inMem (v : Byte) : (s.setAcc v).inMem = s.inMem := rfl
@[simp] theorem State.setAcc_outMem (v : Byte) : (s.setAcc v).outMem = s.outMem := rfl
@[simp] theorem State.setAcc_inRace (v : Byte) : (s.setAcc v).inRace = s.inRace := rfl
@[simp] theorem State.setAcc_epoch (v : Byte) : (s.setAcc v).epoch = s.epoch := rfl
@[simp] theorem State.setAcc_draws (v : Byte) : (s.setAcc v).draws = s.draws := rfl
@[simp] theorem State.setAcc_events (v : Byte) : (s.setAcc v).events = s.events := rfl
@[simp] theorem State.setAcc_obs (v : Byte) : (s.setAcc v).obs = s.obs := rfl

/-! `setVec` -/

@[simp] theorem State.setVec_cfg (v : VecUnits) : (s.setVec v).cfg = s.cfg := rfl
@[simp] theorem State.setVec_cmd (v : VecUnits) : (s.setVec v).cmd = s.cmd := rfl
@[simp] theorem State.setVec_err (v : VecUnits) : (s.setVec v).err = s.err := rfl
@[simp] theorem State.setVec_ilen (v : VecUnits) : (s.setVec v).ilen = s.ilen := rfl
@[simp] theorem State.setVec_ocap (v : VecUnits) : (s.setVec v).ocap = s.ocap := rfl
@[simp] theorem State.setVec_rlen (v : VecUnits) : (s.setVec v).rlen = s.rlen := rfl
@[simp] theorem State.setVec_lOp (v : VecUnits) : (s.setVec v).lOp = s.lOp := rfl
@[simp] theorem State.setVec_lUrl (v : VecUnits) : (s.setVec v).lUrl = s.lUrl := rfl
@[simp] theorem State.setVec_lPad (v : VecUnits) : (s.setVec v).lPad = s.lPad := rfl
@[simp] theorem State.setVec_lN (v : VecUnits) : (s.setVec v).lN = s.lN := rfl
@[simp] theorem State.setVec_lCap (v : VecUnits) : (s.setVec v).lCap = s.lCap := rfl
@[simp] theorem State.setVec_tier (v : VecUnits) : (s.setVec v).tier = s.tier := rfl
@[simp] theorem State.setVec_phase (v : VecUnits) : (s.setVec v).phase = s.phase := rfl
@[simp] theorem State.setVec_ipos (v : VecUnits) : (s.setVec v).ipos = s.ipos := rfl
@[simp] theorem State.setVec_opos (v : VecUnits) : (s.setVec v).opos = s.opos := rfl
@[simp] theorem State.setVec_acc (v : VecUnits) : (s.setVec v).acc = s.acc := rfl
@[simp] theorem State.setVec_vec (v : VecUnits) : (s.setVec v).vec = v := rfl
@[simp] theorem State.setVec_inMem (v : VecUnits) : (s.setVec v).inMem = s.inMem := rfl
@[simp] theorem State.setVec_outMem (v : VecUnits) : (s.setVec v).outMem = s.outMem := rfl
@[simp] theorem State.setVec_inRace (v : VecUnits) : (s.setVec v).inRace = s.inRace := rfl
@[simp] theorem State.setVec_epoch (v : VecUnits) : (s.setVec v).epoch = s.epoch := rfl
@[simp] theorem State.setVec_draws (v : VecUnits) : (s.setVec v).draws = s.draws := rfl
@[simp] theorem State.setVec_events (v : VecUnits) : (s.setVec v).events = s.events := rfl
@[simp] theorem State.setVec_obs (v : VecUnits) : (s.setVec v).obs = s.obs := rfl

/-! `nextDraw` -/

@[simp] theorem State.nextDraw_cfg : s.nextDraw.cfg = s.cfg := rfl
@[simp] theorem State.nextDraw_cmd : s.nextDraw.cmd = s.cmd := rfl
@[simp] theorem State.nextDraw_err : s.nextDraw.err = s.err := rfl
@[simp] theorem State.nextDraw_ilen : s.nextDraw.ilen = s.ilen := rfl
@[simp] theorem State.nextDraw_ocap : s.nextDraw.ocap = s.ocap := rfl
@[simp] theorem State.nextDraw_rlen : s.nextDraw.rlen = s.rlen := rfl
@[simp] theorem State.nextDraw_lOp : s.nextDraw.lOp = s.lOp := rfl
@[simp] theorem State.nextDraw_lUrl : s.nextDraw.lUrl = s.lUrl := rfl
@[simp] theorem State.nextDraw_lPad : s.nextDraw.lPad = s.lPad := rfl
@[simp] theorem State.nextDraw_lN : s.nextDraw.lN = s.lN := rfl
@[simp] theorem State.nextDraw_lCap : s.nextDraw.lCap = s.lCap := rfl
@[simp] theorem State.nextDraw_tier : s.nextDraw.tier = s.tier := rfl
@[simp] theorem State.nextDraw_phase : s.nextDraw.phase = s.phase := rfl
@[simp] theorem State.nextDraw_ipos : s.nextDraw.ipos = s.ipos := rfl
@[simp] theorem State.nextDraw_opos : s.nextDraw.opos = s.opos := rfl
@[simp] theorem State.nextDraw_acc : s.nextDraw.acc = s.acc := rfl
@[simp] theorem State.nextDraw_vec : s.nextDraw.vec = s.vec := rfl
@[simp] theorem State.nextDraw_inMem : s.nextDraw.inMem = s.inMem := rfl
@[simp] theorem State.nextDraw_outMem : s.nextDraw.outMem = s.outMem := rfl
@[simp] theorem State.nextDraw_inRace : s.nextDraw.inRace = s.inRace := rfl
@[simp] theorem State.nextDraw_epoch : s.nextDraw.epoch = s.epoch := rfl
@[simp] theorem State.nextDraw_draws : s.nextDraw.draws = s.draws + 1 := rfl
@[simp] theorem State.nextDraw_events : s.nextDraw.events = s.events := rfl
@[simp] theorem State.nextDraw_obs : s.nextDraw.obs = s.obs := rfl

/-! `setEvents` -/

@[simp] theorem State.setEvents_cfg (es : List Event) : (s.setEvents es).cfg = s.cfg := rfl
@[simp] theorem State.setEvents_cmd (es : List Event) : (s.setEvents es).cmd = s.cmd := rfl
@[simp] theorem State.setEvents_err (es : List Event) : (s.setEvents es).err = s.err := rfl
@[simp] theorem State.setEvents_ilen (es : List Event) : (s.setEvents es).ilen = s.ilen := rfl
@[simp] theorem State.setEvents_ocap (es : List Event) : (s.setEvents es).ocap = s.ocap := rfl
@[simp] theorem State.setEvents_rlen (es : List Event) : (s.setEvents es).rlen = s.rlen := rfl
@[simp] theorem State.setEvents_lOp (es : List Event) : (s.setEvents es).lOp = s.lOp := rfl
@[simp] theorem State.setEvents_lUrl (es : List Event) : (s.setEvents es).lUrl = s.lUrl := rfl
@[simp] theorem State.setEvents_lPad (es : List Event) : (s.setEvents es).lPad = s.lPad := rfl
@[simp] theorem State.setEvents_lN (es : List Event) : (s.setEvents es).lN = s.lN := rfl
@[simp] theorem State.setEvents_lCap (es : List Event) : (s.setEvents es).lCap = s.lCap := rfl
@[simp] theorem State.setEvents_tier (es : List Event) : (s.setEvents es).tier = s.tier := rfl
@[simp] theorem State.setEvents_phase (es : List Event) : (s.setEvents es).phase = s.phase := rfl
@[simp] theorem State.setEvents_ipos (es : List Event) : (s.setEvents es).ipos = s.ipos := rfl
@[simp] theorem State.setEvents_opos (es : List Event) : (s.setEvents es).opos = s.opos := rfl
@[simp] theorem State.setEvents_acc (es : List Event) : (s.setEvents es).acc = s.acc := rfl
@[simp] theorem State.setEvents_vec (es : List Event) : (s.setEvents es).vec = s.vec := rfl
@[simp] theorem State.setEvents_inMem (es : List Event) : (s.setEvents es).inMem = s.inMem := rfl
@[simp] theorem State.setEvents_outMem (es : List Event) : (s.setEvents es).outMem = s.outMem := rfl
@[simp] theorem State.setEvents_inRace (es : List Event) : (s.setEvents es).inRace = s.inRace := rfl
@[simp] theorem State.setEvents_epoch (es : List Event) : (s.setEvents es).epoch = s.epoch := rfl
@[simp] theorem State.setEvents_draws (es : List Event) : (s.setEvents es).draws = s.draws := rfl
@[simp] theorem State.setEvents_events (es : List Event) : (s.setEvents es).events = es := rfl
@[simp] theorem State.setEvents_obs (es : List Event) : (s.setEvents es).obs = s.obs := rfl

/-! `observe` -/

@[simp] theorem State.observe_cfg (o : Obs) : (s.observe o).cfg = s.cfg := rfl
@[simp] theorem State.observe_cmd (o : Obs) : (s.observe o).cmd = s.cmd := rfl
@[simp] theorem State.observe_err (o : Obs) : (s.observe o).err = s.err := rfl
@[simp] theorem State.observe_ilen (o : Obs) : (s.observe o).ilen = s.ilen := rfl
@[simp] theorem State.observe_ocap (o : Obs) : (s.observe o).ocap = s.ocap := rfl
@[simp] theorem State.observe_rlen (o : Obs) : (s.observe o).rlen = s.rlen := rfl
@[simp] theorem State.observe_lOp (o : Obs) : (s.observe o).lOp = s.lOp := rfl
@[simp] theorem State.observe_lUrl (o : Obs) : (s.observe o).lUrl = s.lUrl := rfl
@[simp] theorem State.observe_lPad (o : Obs) : (s.observe o).lPad = s.lPad := rfl
@[simp] theorem State.observe_lN (o : Obs) : (s.observe o).lN = s.lN := rfl
@[simp] theorem State.observe_lCap (o : Obs) : (s.observe o).lCap = s.lCap := rfl
@[simp] theorem State.observe_tier (o : Obs) : (s.observe o).tier = s.tier := rfl
@[simp] theorem State.observe_phase (o : Obs) : (s.observe o).phase = s.phase := rfl
@[simp] theorem State.observe_ipos (o : Obs) : (s.observe o).ipos = s.ipos := rfl
@[simp] theorem State.observe_opos (o : Obs) : (s.observe o).opos = s.opos := rfl
@[simp] theorem State.observe_acc (o : Obs) : (s.observe o).acc = s.acc := rfl
@[simp] theorem State.observe_vec (o : Obs) : (s.observe o).vec = s.vec := rfl
@[simp] theorem State.observe_inMem (o : Obs) : (s.observe o).inMem = s.inMem := rfl
@[simp] theorem State.observe_outMem (o : Obs) : (s.observe o).outMem = s.outMem := rfl
@[simp] theorem State.observe_inRace (o : Obs) : (s.observe o).inRace = s.inRace := rfl
@[simp] theorem State.observe_epoch (o : Obs) : (s.observe o).epoch = s.epoch := rfl
@[simp] theorem State.observe_draws (o : Obs) : (s.observe o).draws = s.draws := rfl
@[simp] theorem State.observe_events (o : Obs) : (s.observe o).events = s.events := rfl
@[simp] theorem State.observe_obs (o : Obs) : (s.observe o).obs = s.obs ++ [o] := rfl

/-! `ok` -/

@[simp] theorem State.ok_cfg (m : Nat) : (s.ok m).cfg = s.cfg := rfl
@[simp] theorem State.ok_cmd (m : Nat) : (s.ok m).cmd = s.cmd := rfl
@[simp] theorem State.ok_err (m : Nat) : (s.ok m).err = none := rfl
@[simp] theorem State.ok_ilen (m : Nat) : (s.ok m).ilen = s.ilen := rfl
@[simp] theorem State.ok_ocap (m : Nat) : (s.ok m).ocap = s.ocap := rfl
@[simp] theorem State.ok_rlen (m : Nat) : (s.ok m).rlen = m := rfl
@[simp] theorem State.ok_lOp (m : Nat) : (s.ok m).lOp = s.lOp := rfl
@[simp] theorem State.ok_lUrl (m : Nat) : (s.ok m).lUrl = s.lUrl := rfl
@[simp] theorem State.ok_lPad (m : Nat) : (s.ok m).lPad = s.lPad := rfl
@[simp] theorem State.ok_lN (m : Nat) : (s.ok m).lN = s.lN := rfl
@[simp] theorem State.ok_lCap (m : Nat) : (s.ok m).lCap = s.lCap := rfl
@[simp] theorem State.ok_tier (m : Nat) : (s.ok m).tier = s.tier := rfl
@[simp] theorem State.ok_phase (m : Nat) : (s.ok m).phase = .done := rfl
@[simp] theorem State.ok_ipos (m : Nat) : (s.ok m).ipos = s.ipos := rfl
@[simp] theorem State.ok_opos (m : Nat) : (s.ok m).opos = s.opos := rfl
@[simp] theorem State.ok_acc (m : Nat) : (s.ok m).acc = s.acc := rfl
@[simp] theorem State.ok_vec (m : Nat) : (s.ok m).vec = s.vec := rfl
@[simp] theorem State.ok_inMem (m : Nat) : (s.ok m).inMem = s.inMem := rfl
@[simp] theorem State.ok_outMem (m : Nat) : (s.ok m).outMem = s.outMem := rfl
@[simp] theorem State.ok_inRace (m : Nat) : (s.ok m).inRace = s.inRace := rfl
@[simp] theorem State.ok_epoch (m : Nat) : (s.ok m).epoch = s.epoch := rfl
@[simp] theorem State.ok_draws (m : Nat) : (s.ok m).draws = s.draws := rfl
@[simp] theorem State.ok_events (m : Nat) : (s.ok m).events = s.events := rfl
@[simp] theorem State.ok_obs (m : Nat) : (s.ok m).obs = s.obs := rfl

/-! `raise` -/

@[simp] theorem State.raise_cfg (e : ErrorKind) : (s.raise e).cfg = s.cfg := rfl
@[simp] theorem State.raise_cmd (e : ErrorKind) : (s.raise e).cmd = s.cmd := rfl
@[simp] theorem State.raise_err (e : ErrorKind) : (s.raise e).err = some e := rfl
@[simp] theorem State.raise_ilen (e : ErrorKind) : (s.raise e).ilen = s.ilen := rfl
@[simp] theorem State.raise_ocap (e : ErrorKind) : (s.raise e).ocap = s.ocap := rfl
@[simp] theorem State.raise_rlen (e : ErrorKind) : (s.raise e).rlen = 0 := rfl
@[simp] theorem State.raise_lOp (e : ErrorKind) : (s.raise e).lOp = s.lOp := rfl
@[simp] theorem State.raise_lUrl (e : ErrorKind) : (s.raise e).lUrl = s.lUrl := rfl
@[simp] theorem State.raise_lPad (e : ErrorKind) : (s.raise e).lPad = s.lPad := rfl
@[simp] theorem State.raise_lN (e : ErrorKind) : (s.raise e).lN = s.lN := rfl
@[simp] theorem State.raise_lCap (e : ErrorKind) : (s.raise e).lCap = s.lCap := rfl
@[simp] theorem State.raise_tier (e : ErrorKind) : (s.raise e).tier = s.tier := rfl
@[simp] theorem State.raise_phase (e : ErrorKind) : (s.raise e).phase = .done := rfl
@[simp] theorem State.raise_ipos (e : ErrorKind) : (s.raise e).ipos = s.ipos := rfl
@[simp] theorem State.raise_opos (e : ErrorKind) : (s.raise e).opos = s.opos := rfl
@[simp] theorem State.raise_acc (e : ErrorKind) : (s.raise e).acc = s.acc := rfl
@[simp] theorem State.raise_vec (e : ErrorKind) : (s.raise e).vec = s.vec := rfl
@[simp] theorem State.raise_inMem (e : ErrorKind) : (s.raise e).inMem = s.inMem := rfl
@[simp] theorem State.raise_outMem (e : ErrorKind) : (s.raise e).outMem = s.outMem := rfl
@[simp] theorem State.raise_inRace (e : ErrorKind) : (s.raise e).inRace = s.inRace := rfl
@[simp] theorem State.raise_epoch (e : ErrorKind) : (s.raise e).epoch = s.epoch := rfl
@[simp] theorem State.raise_draws (e : ErrorKind) : (s.raise e).draws = s.draws := rfl
@[simp] theorem State.raise_events (e : ErrorKind) : (s.raise e).events = s.events := rfl
@[simp] theorem State.raise_obs (e : ErrorKind) : (s.raise e).obs = s.obs := rfl

/-! `launch` -/

@[simp] theorem State.launch_cfg (w : BitVec 4) : (s.launch w).cfg = s.cfg := rfl
@[simp] theorem State.launch_cmd (w : BitVec 4) : (s.launch w).cmd = w := rfl
@[simp] theorem State.launch_err (w : BitVec 4) : (s.launch w).err = none := rfl
@[simp] theorem State.launch_ilen (w : BitVec 4) : (s.launch w).ilen = s.ilen := rfl
@[simp] theorem State.launch_ocap (w : BitVec 4) : (s.launch w).ocap = s.ocap := rfl
@[simp] theorem State.launch_rlen (w : BitVec 4) : (s.launch w).rlen = 0 := rfl
@[simp] theorem State.launch_lOp (w : BitVec 4) : (s.launch w).lOp = cmdOp w := rfl
@[simp] theorem State.launch_lUrl (w : BitVec 4) : (s.launch w).lUrl = cmdUrl w := rfl
@[simp] theorem State.launch_lPad (w : BitVec 4) : (s.launch w).lPad = cmdPad w := rfl
@[simp] theorem State.launch_lN (w : BitVec 4) : (s.launch w).lN = s.ilen := rfl
@[simp] theorem State.launch_lCap (w : BitVec 4) : (s.launch w).lCap = s.ocap := rfl
@[simp] theorem State.launch_tier (w : BitVec 4) : (s.launch w).tier = s.tier := rfl
@[simp] theorem State.launch_phase (w : BitVec 4) : (s.launch w).phase = .check := rfl
@[simp] theorem State.launch_ipos (w : BitVec 4) : (s.launch w).ipos = 0 := rfl
@[simp] theorem State.launch_opos (w : BitVec 4) : (s.launch w).opos = 0 := rfl
@[simp] theorem State.launch_acc (w : BitVec 4) : (s.launch w).acc = 0#8 := rfl
@[simp] theorem State.launch_vec (w : BitVec 4) : (s.launch w).vec = s.vec := rfl
@[simp] theorem State.launch_inMem (w : BitVec 4) : (s.launch w).inMem = s.inMem := rfl
@[simp] theorem State.launch_outMem (w : BitVec 4) : (s.launch w).outMem = s.outMem := rfl
@[simp] theorem State.launch_inRace (w : BitVec 4) : (s.launch w).inRace = [] := rfl
@[simp] theorem State.launch_epoch (w : BitVec 4) : (s.launch w).epoch = s.epoch := rfl
@[simp] theorem State.launch_draws (w : BitVec 4) : (s.launch w).draws = s.draws := rfl
@[simp] theorem State.launch_events (w : BitVec 4) : (s.launch w).events = s.events := rfl
@[simp] theorem State.launch_obs (w : BitVec 4) : (s.launch w).obs = s.obs := rfl

/-! `freeOut` -/

@[simp] theorem State.freeOut_cfg (a k : Nat) : (s.freeOut a k).cfg = s.cfg := rfl
@[simp] theorem State.freeOut_cmd (a k : Nat) : (s.freeOut a k).cmd = s.cmd := rfl
@[simp] theorem State.freeOut_err (a k : Nat) : (s.freeOut a k).err = s.err := rfl
@[simp] theorem State.freeOut_ilen (a k : Nat) : (s.freeOut a k).ilen = s.ilen := rfl
@[simp] theorem State.freeOut_ocap (a k : Nat) : (s.freeOut a k).ocap = s.ocap := rfl
@[simp] theorem State.freeOut_rlen (a k : Nat) : (s.freeOut a k).rlen = s.rlen := rfl
@[simp] theorem State.freeOut_lOp (a k : Nat) : (s.freeOut a k).lOp = s.lOp := rfl
@[simp] theorem State.freeOut_lUrl (a k : Nat) : (s.freeOut a k).lUrl = s.lUrl := rfl
@[simp] theorem State.freeOut_lPad (a k : Nat) : (s.freeOut a k).lPad = s.lPad := rfl
@[simp] theorem State.freeOut_lN (a k : Nat) : (s.freeOut a k).lN = s.lN := rfl
@[simp] theorem State.freeOut_lCap (a k : Nat) : (s.freeOut a k).lCap = s.lCap := rfl
@[simp] theorem State.freeOut_tier (a k : Nat) : (s.freeOut a k).tier = s.tier := rfl
@[simp] theorem State.freeOut_phase (a k : Nat) : (s.freeOut a k).phase = s.phase := rfl
@[simp] theorem State.freeOut_ipos (a k : Nat) : (s.freeOut a k).ipos = s.ipos := rfl
@[simp] theorem State.freeOut_opos (a k : Nat) : (s.freeOut a k).opos = s.opos := rfl
@[simp] theorem State.freeOut_acc (a k : Nat) : (s.freeOut a k).acc = s.acc := rfl
@[simp] theorem State.freeOut_vec (a k : Nat) : (s.freeOut a k).vec = s.vec := rfl
@[simp] theorem State.freeOut_inMem (a k : Nat) : (s.freeOut a k).inMem = s.inMem := rfl
@[simp] theorem State.freeOut_outMem (a k : Nat) : (s.freeOut a k).outMem = s.outMem.store a (s.freeBytes a k) := rfl
@[simp] theorem State.freeOut_inRace (a k : Nat) : (s.freeOut a k).inRace = s.inRace := rfl
@[simp] theorem State.freeOut_epoch (a k : Nat) : (s.freeOut a k).epoch = s.epoch := rfl
@[simp] theorem State.freeOut_draws (a k : Nat) : (s.freeOut a k).draws = s.draws := rfl
@[simp] theorem State.freeOut_events (a k : Nat) : (s.freeOut a k).events = s.events := rfl
@[simp] theorem State.freeOut_obs (a k : Nat) : (s.freeOut a k).obs = s.obs := rfl

/-! `emit` -/

@[simp] theorem State.emit_cfg (k : Nat) (out : List Byte) : (s.emit k out).cfg = s.cfg := rfl
@[simp] theorem State.emit_cmd (k : Nat) (out : List Byte) : (s.emit k out).cmd = s.cmd := rfl
@[simp] theorem State.emit_err (k : Nat) (out : List Byte) : (s.emit k out).err = s.err := rfl
@[simp] theorem State.emit_ilen (k : Nat) (out : List Byte) : (s.emit k out).ilen = s.ilen := rfl
@[simp] theorem State.emit_ocap (k : Nat) (out : List Byte) : (s.emit k out).ocap = s.ocap := rfl
@[simp] theorem State.emit_rlen (k : Nat) (out : List Byte) : (s.emit k out).rlen = s.rlen := rfl
@[simp] theorem State.emit_lOp (k : Nat) (out : List Byte) : (s.emit k out).lOp = s.lOp := rfl
@[simp] theorem State.emit_lUrl (k : Nat) (out : List Byte) : (s.emit k out).lUrl = s.lUrl := rfl
@[simp] theorem State.emit_lPad (k : Nat) (out : List Byte) : (s.emit k out).lPad = s.lPad := rfl
@[simp] theorem State.emit_lN (k : Nat) (out : List Byte) : (s.emit k out).lN = s.lN := rfl
@[simp] theorem State.emit_lCap (k : Nat) (out : List Byte) : (s.emit k out).lCap = s.lCap := rfl
@[simp] theorem State.emit_tier (k : Nat) (out : List Byte) : (s.emit k out).tier = s.tier := rfl
@[simp] theorem State.emit_phase (k : Nat) (out : List Byte) : (s.emit k out).phase = s.phase := rfl
@[simp] theorem State.emit_ipos (k : Nat) (out : List Byte) : (s.emit k out).ipos = s.ipos + k := rfl
@[simp] theorem State.emit_opos (k : Nat) (out : List Byte) : (s.emit k out).opos = s.opos + out.length := rfl
@[simp] theorem State.emit_acc (k : Nat) (out : List Byte) : (s.emit k out).acc = s.acc := rfl
@[simp] theorem State.emit_vec (k : Nat) (out : List Byte) : (s.emit k out).vec = s.vec := rfl
@[simp] theorem State.emit_inMem (k : Nat) (out : List Byte) : (s.emit k out).inMem = s.inMem := rfl
@[simp] theorem State.emit_outMem (k : Nat) (out : List Byte) : (s.emit k out).outMem = s.outMem.store s.opos out := rfl
@[simp] theorem State.emit_inRace (k : Nat) (out : List Byte) : (s.emit k out).inRace = s.inRace := rfl
@[simp] theorem State.emit_epoch (k : Nat) (out : List Byte) : (s.emit k out).epoch = s.epoch := rfl
@[simp] theorem State.emit_draws (k : Nat) (out : List Byte) : (s.emit k out).draws = s.draws := rfl
@[simp] theorem State.emit_events (k : Nat) (out : List Byte) : (s.emit k out).events = s.events := rfl
@[simp] theorem State.emit_obs (k : Nat) (out : List Byte) : (s.emit k out).obs = s.obs := rfl

/-! Cells of IN and OUT under updates that do not touch the buffers -/

@[simp] theorem State.advance_outCell (i o : Nat) : (s.advance i o).outCell = s.outCell := rfl
@[simp] theorem State.advance_inCell (i o : Nat) : (s.advance i o).inCell = s.inCell := rfl
@[simp] theorem State.advance_output (i o : Nat) : (s.advance i o).output = s.output := rfl
@[simp] theorem State.advance_input (i o : Nat) : (s.advance i o).input = s.input := rfl
@[simp] theorem State.setPhase_outCell (p : Phase) : (s.setPhase p).outCell = s.outCell := rfl
@[simp] theorem State.setPhase_inCell (p : Phase) : (s.setPhase p).inCell = s.inCell := rfl
@[simp] theorem State.setPhase_output (p : Phase) : (s.setPhase p).output = s.output := rfl
@[simp] theorem State.setPhase_input (p : Phase) : (s.setPhase p).input = s.input := rfl
@[simp] theorem State.setTier_outCell (t : Tier) : (s.setTier t).outCell = s.outCell := rfl
@[simp] theorem State.setTier_inCell (t : Tier) : (s.setTier t).inCell = s.inCell := rfl
@[simp] theorem State.setTier_output (t : Tier) : (s.setTier t).output = s.output := rfl
@[simp] theorem State.setTier_input (t : Tier) : (s.setTier t).input = s.input := rfl
@[simp] theorem State.setAcc_outCell (v : Byte) : (s.setAcc v).outCell = s.outCell := rfl
@[simp] theorem State.setAcc_inCell (v : Byte) : (s.setAcc v).inCell = s.inCell := rfl
@[simp] theorem State.setAcc_output (v : Byte) : (s.setAcc v).output = s.output := rfl
@[simp] theorem State.setAcc_input (v : Byte) : (s.setAcc v).input = s.input := rfl
@[simp] theorem State.setVec_outCell (v : VecUnits) : (s.setVec v).outCell = s.outCell := rfl
@[simp] theorem State.setVec_inCell (v : VecUnits) : (s.setVec v).inCell = s.inCell := rfl
@[simp] theorem State.setVec_output (v : VecUnits) : (s.setVec v).output = s.output := rfl
@[simp] theorem State.setVec_input (v : VecUnits) : (s.setVec v).input = s.input := rfl
@[simp] theorem State.nextDraw_outCell : s.nextDraw.outCell = s.outCell := rfl
@[simp] theorem State.nextDraw_inCell : s.nextDraw.inCell = s.inCell := rfl
@[simp] theorem State.nextDraw_output : s.nextDraw.output = s.output := rfl
@[simp] theorem State.nextDraw_input : s.nextDraw.input = s.input := rfl
@[simp] theorem State.setEvents_outCell (es : List Event) : (s.setEvents es).outCell = s.outCell := rfl
@[simp] theorem State.setEvents_inCell (es : List Event) : (s.setEvents es).inCell = s.inCell := rfl
@[simp] theorem State.setEvents_output (es : List Event) : (s.setEvents es).output = s.output := rfl
@[simp] theorem State.setEvents_input (es : List Event) : (s.setEvents es).input = s.input := rfl
@[simp] theorem State.observe_outCell (o : Obs) : (s.observe o).outCell = s.outCell := rfl
@[simp] theorem State.observe_inCell (o : Obs) : (s.observe o).inCell = s.inCell := rfl
@[simp] theorem State.observe_output (o : Obs) : (s.observe o).output = s.output := rfl
@[simp] theorem State.observe_input (o : Obs) : (s.observe o).input = s.input := rfl
@[simp] theorem State.ok_outCell (m : Nat) : (s.ok m).outCell = s.outCell := rfl
@[simp] theorem State.ok_inCell (m : Nat) : (s.ok m).inCell = s.inCell := rfl
@[simp] theorem State.ok_output (m : Nat) : (s.ok m).output = s.output := rfl
@[simp] theorem State.ok_input (m : Nat) : (s.ok m).input = s.input := rfl
@[simp] theorem State.raise_outCell (e : ErrorKind) : (s.raise e).outCell = s.outCell := rfl
@[simp] theorem State.raise_inCell (e : ErrorKind) : (s.raise e).inCell = s.inCell := rfl
@[simp] theorem State.raise_output (e : ErrorKind) : (s.raise e).output = s.output := rfl
@[simp] theorem State.raise_input (e : ErrorKind) : (s.raise e).input = s.input := rfl
@[simp] theorem State.launch_outCell (w : BitVec 4) : (s.launch w).outCell = s.outCell := rfl
@[simp] theorem State.launch_inCell (w : BitVec 4) : (s.launch w).inCell = s.inCell := rfl
@[simp] theorem State.launch_output (w : BitVec 4) : (s.launch w).output = s.output := rfl
@[simp] theorem State.launch_input (w : BitVec 4) : (s.launch w).input = s.input := rfl
@[simp] theorem State.writeOut_inCell (a : Nat) (bs : List Byte) : (s.writeOut a bs).inCell = s.inCell := rfl
@[simp] theorem State.writeOut_input (a : Nat) (bs : List Byte) : (s.writeOut a bs).input = s.input := rfl

end Sys2Proof.Machine
end

