-- ==== Sys2Proof/Laws/Memory.lean ====
section
/-! SUPPORT. Byte memories: what a write changes, that the canonical form is kept, and what the cells of IN and OUT
hold after each update. -/

namespace Sys2Proof.Machine

/-! ### Reading after writing -/

theorem Memory.get_put (m : Memory) (a : Nat) (b : Byte) (x : Nat) :
    (m.put a b).get x = if x = a then some b else m.get x := by
  induction m with
  | nil => simp [Memory.put, Memory.get, eq_comm]
  | cons c rest ih =>
    obtain ⟨k, v⟩ := c
    unfold Memory.put
    by_cases h1 : a < k
    · rw [if_pos h1]
      by_cases hx : x = a
      · simp [Memory.get, hx]
      · simp [Memory.get, hx, Ne.symm hx]
    · rw [if_neg h1]
      by_cases h2 : a = k
      · subst h2
        by_cases hx : x = a
        · simp [Memory.get, hx]
        · simp [Memory.get, hx, Ne.symm hx]
      · rw [if_neg h2]
        by_cases hk : k = x
        · subst hk; simp [Memory.get, Ne.symm h2]
        · simp [Memory.get, hk, ih]

theorem Memory.get_store (bs : List Byte) (m : Memory) (a x : Nat) :
    (m.store a bs).get x = if a ≤ x ∧ x < a + bs.length then bs[x - a]? else m.get x := by
  induction bs generalizing m a with
  | nil =>
    rw [Memory.store, if_neg (by simp)]
  | cons b bs ih =>
    rw [Memory.store, ih, Memory.get_put]
    by_cases h : x = a
    · subst h; simp
    · by_cases h' : a + 1 ≤ x ∧ x < a + 1 + bs.length
      · have : x - a = (x - (a + 1)) + 1 := by omega
        rw [if_pos h', if_pos (by simp; omega), this, List.getElem?_cons_succ]
      · rw [if_neg h', if_neg h, if_neg (by simp; omega)]

theorem Memory.store_append (m : Memory) (a : Nat) (xs ys : List Byte) :
    m.store a (xs ++ ys) = (m.store a xs).store (a + xs.length) ys := by
  induction xs generalizing m a with
  | nil => simp [Memory.store]
  | cons x xs ih => simp [Memory.store, ih, Nat.add_assoc, Nat.add_comm 1]

/-! ### The canonical form -/

theorem Memory.mem_put {m : Memory} {a : Nat} {b : Byte} {c : Host.Cell} (h : c ∈ m.put a b) :
    c = (a, b) ∨ c ∈ m := by
  induction m with
  | nil => simpa [Memory.put] using h
  | cons d rest ih =>
    obtain ⟨k, v⟩ := d
    unfold Memory.put at h
    split_ifs at h with h1 h2
    · simpa using h
    · simp only [List.mem_cons] at h ⊢; tauto
    · simp only [List.mem_cons] at h ⊢
      rcases h with h | h
      · tauto
      · rcases ih h with h | h <;> tauto

theorem Memory.put_keeps_wf {m : Memory} (h : m.wf) (a : Nat) (b : Byte) : (m.put a b).wf := by
  induction m with
  | nil => simp [Memory.put, Memory.wf]
  | cons d rest ih =>
    obtain ⟨k, v⟩ := d
    obtain ⟨hk, hr⟩ := List.pairwise_cons.mp h
    unfold Memory.put
    split_ifs with h1 h2
    · refine List.pairwise_cons.mpr ⟨fun c hc => ?_, h⟩
      rcases List.mem_cons.mp hc with rfl | hc
      · exact h1
      · exact lt_trans h1 (hk c hc)
    · subst h2
      exact List.pairwise_cons.mpr ⟨hk, hr⟩
    · refine List.pairwise_cons.mpr ⟨fun c hc => ?_, ih hr⟩
      rcases Memory.mem_put hc with rfl | hc
      · show k < a
        omega
      · exact hk c hc

theorem Memory.store_keeps_wf {m : Memory} (h : m.wf) (a : Nat) (bs : List Byte) : (m.store a bs).wf := by
  induction bs generalizing m a with
  | nil => exact h
  | cons b bs ih => exact ih (Memory.put_keeps_wf h a b) (a + 1)

theorem Memory.mem_store {m : Memory} {a : Nat} {bs : List Byte} {c : Host.Cell} (h : c ∈ m.store a bs) :
    (a ≤ c.1 ∧ c.1 < a + bs.length) ∨ c ∈ m := by
  induction bs generalizing m a with
  | nil => exact .inr h
  | cons b bs ih =>
    rcases ih h with ⟨h1, h2⟩ | h
    · exact .inl ⟨by omega, by simp; omega⟩
    · rcases Memory.mem_put h with rfl | h
      · exact .inl ⟨le_refl _, by simp⟩
      · exact .inr h

/-- Two canonical memories that read alike are equal. -/
theorem Memory.ext_of_get {m m' : Memory} (h : m.wf) (h' : m'.wf) (hg : ∀ a, m.get a = m'.get a) : m = m' := by
  have below : ∀ {m : Memory} {a : Nat}, (∀ c ∈ m, a < c.1) → m.get a = none := by
    intro m a hm
    induction m with
    | nil => rfl
    | cons d rest ih =>
      have := hm d (by simp)
      simp only [Memory.get]
      rw [if_neg (by omega)]
      exact ih fun c hc => hm c (by simp [hc])
  induction m generalizing m' with
  | nil =>
    cases m' with
    | nil => rfl
    | cons d rest => simpa [Memory.get] using hg d.1
  | cons d rest ih =>
    obtain ⟨k, v⟩ := d
    cases m' with
    | nil => simpa [Memory.get] using hg k
    | cons d' rest' =>
      obtain ⟨k', v'⟩ := d'
      obtain ⟨hk, hr⟩ := List.pairwise_cons.mp h
      obtain ⟨hk', hr'⟩ := List.pairwise_cons.mp h'
      have hkk : k = k' := by
        rcases lt_trichotomy k k' with hlt | heq | hgt
        · have h1 := hg k
          rw [below (m := (k', v') :: rest') fun c hc => by
            rcases List.mem_cons.mp hc with rfl | hc
            · exact hlt
            · exact lt_trans hlt (hk' c hc)] at h1
          simp [Memory.get] at h1
        · exact heq
        · have h1 := hg k'
          rw [below (m := (k, v) :: rest) fun c hc => by
            rcases List.mem_cons.mp hc with rfl | hc
            · exact hgt
            · exact lt_trans hgt (hk c hc)] at h1
          simp [Memory.get] at h1
      subst hkk
      have hv : v = v' := by simpa [Memory.get] using hg k
      subst hv
      congr 1
      refine ih hr hr' fun a => ?_
      by_cases ha : k = a
      · subst ha; rw [below hk, below hk']
      · simpa [Memory.get, ha] using hg a

/-! ### The cells of IN and OUT -/

@[simp] theorem State.freeBytes_length (s : State) (a k : Nat) : (s.freeBytes a k).length = k := by
  simp [State.freeBytes]

/-- A byte of OUT after a store: the stored byte inside the range, the old byte outside. -/
theorem State.outCell_writeOut (s : State) (a : Nat) (bs : List Byte) (x : Nat) :
    (s.writeOut a bs).outCell x
      = if a ≤ x ∧ x < a + bs.length then bs.getD (x - a) 0#8 else s.outCell x := by
  unfold State.outCell
  simp only [State.writeOut_outMem, State.writeOut_epoch, Memory.get_store]
  split_ifs with h
  · have : x - a < bs.length := by omega
    simp [List.getD_eq_getElem?_getD, this]
  · rfl

theorem State.outCell_writeOut_outside (s : State) {a : Nat} {bs : List Byte} {x : Nat}
    (h : x < a ∨ a + bs.length ≤ x) : (s.writeOut a bs).outCell x = s.outCell x := by
  rw [State.outCell_writeOut, if_neg (by omega)]

theorem State.outCell_freeOut_outside (s : State) {a k x : Nat} (h : x < a ∨ a + k ≤ x) :
    (s.freeOut a k).outCell x = s.outCell x :=
  State.outCell_writeOut_outside s (by simpa using h)

/-- The cells of IN depend on IN's contents and the reset count only. -/
theorem State.inCell_congr {s t : State} (hm : s.inMem = t.inMem) (he : s.epoch = t.epoch) :
    s.inCell = t.inCell := by
  funext a; simp [State.inCell, hm, he]

/-- The cells of OUT depend on OUT's contents and the reset count only. -/
theorem State.outCell_congr {s t : State} (hm : s.outMem = t.outMem) (he : s.epoch = t.epoch) :
    s.outCell = t.outCell := by
  funext a; simp [State.outCell, hm, he]

/-- Without host writes while BUSY, an engine read returns the byte IN holds. -/
theorem State.inByte_quiet {s : State} (h : s.inRace = []) (a : Nat) : s.inByte a = s.inCell a := by
  simp [State.inByte, staleAt, h]

/-- An engine read returns the byte IN holds or one that a host write while BUSY replaced (R291). -/
theorem State.inByte_cases (s : State) (a : Nat) :
    s.inByte a = s.inCell a ∨ (a, s.inByte a) ∈ s.inRace := by
  unfold State.inByte
  split
  · exact .inl rfl
  · next old olds h =>
    simp only
    set held := s.inCell a :: old :: olds with hheld
    have hlt : Config.freeIndex s.draws a % held.length < held.length := Nat.mod_lt _ (by simp [held])
    have hmem : held.getD (Config.freeIndex s.draws a % held.length) (s.inCell a) ∈ held := by
      rw [List.getD_eq_getElem?_getD, List.getElem?_eq_getElem hlt]
      exact List.getElem_mem hlt
    rcases List.mem_cons.mp hmem with h1 | h1
    · exact .inl h1
    · refine .inr ?_
      rw [← h] at h1
      simp only [staleAt, List.mem_map, List.mem_filter, decide_eq_true_eq] at h1
      obtain ⟨c, ⟨hc, hca⟩, hcb⟩ := h1
      rw [← hcb, ← hca]
      exact hc

end Sys2Proof.Machine
end

