-- ==== Sys2Proof/Laws/Tables.lean ====
section
/-! SUPPORT. The constant tables: the alphabets and the decode tables are inverse to each other, the classes of the
vector datapath are the valid entries, and the OR-accumulator test finds exactly the invalid ones. -/

namespace Sys2Proof.Machine

/-! ### Facts by enumeration of the 64 indices and the 256 bytes -/

theorem classify_alpha (url : Bool) (i : Sextet) : (classify url (alpha url i)).isSome = true := by
  revert i url; decide

theorem charIndex_alpha (url : Bool) (i : Sextet) : charIndex url (alpha url i) = i.setWidth 8 := by
  revert i url; decide

theorem alpha_ne_padChar (url : Bool) (i : Sextet) : alpha url i ≠ padChar := by
  revert i url; decide

theorem translateIndex_eq_alpha (url : Bool) (i : Sextet) : translateIndex url (i.setWidth 8) = alpha url i := by
  revert i url; decide

theorem charIndex_valid (url : Bool) (c : Byte) : charIndex url c &&& 0xC0#8 = 0#8 := by
  revert c url; decide

theorem alpha_charIndex (url : Bool) (c : Byte) :
    (classify url c).isSome = true → alpha url (sextet (charIndex url c)) = c := by
  revert c url; decide

theorem classify_padChar (url : Bool) : classify url padChar = none := by
  revert url; decide

theorem alpha_sym62 (url : Bool) : alpha url 62#6 = sym62 url := by
  revert url; decide

theorem alpha_sym63 (url : Bool) : alpha url 63#6 = sym63 url := by
  revert url; decide

/-! ### The decode table and the classes -/

/-- The decode table is the class value of a classified byte, and the sentinel otherwise (R91, R198, R200). -/
theorem dt_eq (invalid : Byte) (url : Bool) (c : Byte) :
    dt invalid url c = if (classify url c).isSome then charIndex url c else invalid := by
  unfold dt charIndex classify
  rw [alpha_sym62, alpha_sym63]
  split_ifs <;> simp_all [classValue]

theorem dt_alpha (invalid : Byte) (url : Bool) (i : Sextet) : dt invalid url (alpha url i) = i.setWidth 8 := by
  rw [dt_eq, if_pos (classify_alpha url i), charIndex_alpha]

theorem dt_padChar (invalid : Byte) (url : Bool) : dt invalid url padChar = invalid := by
  rw [dt_eq, classify_padChar]; rfl

theorem invalidMarked_ne {p : Params} (h : p.invalidMarked = true) : p.invalid &&& 0xC0#8 ≠ 0#8 := by
  simp only [Params.invalidMarked, decide_eq_true_eq] at h
  rw [h]; decide

/-- An entry has bits 7 and 6 clear exactly for a classified byte (R91, R198). -/
theorem dt_valid_iff {p : Params} (h : p.invalidMarked = true) (url : Bool) (c : Byte) :
    dt p.invalid url c &&& 0xC0#8 = 0#8 ↔ (classify url c).isSome = true := by
  rw [dt_eq]
  by_cases hc : (classify url c).isSome = true
  · simp [hc, charIndex_valid]
  · simp [hc, invalidMarked_ne h]

theorem dt_of_classified {url : Bool} {c : Byte} (h : (classify url c).isSome = true) (invalid : Byte) :
    dt invalid url c = charIndex url c := by
  rw [dt_eq, if_pos h]

/-! ### The OR-accumulator test -/

theorem or_and_eq_zero (a b m : Byte) : (a ||| b) &&& m = 0#8 ↔ a &&& m = 0#8 ∧ b &&& m = 0#8 := by
  have h : (a ||| b) &&& m = a &&& m ||| b &&& m := by
    ext i hi
    simp [Bool.and_or_distrib_right]
  rw [h, BitVec.or_eq_zero_iff]

/-- The test finds a set of entries valid exactly when each is (R91, R150). -/
theorem bad_eq_false_iff (vs : List Byte) : bad vs = false ↔ ∀ v ∈ vs, v &&& 0xC0#8 = 0#8 := by
  have : ∀ vs : List Byte, orAll vs &&& 0xC0#8 = 0#8 ↔ ∀ v ∈ vs, v &&& 0xC0#8 = 0#8 := by
    intro vs
    induction vs with
    | nil => simp [orAll]
    | cons v vs ih => rw [orAll, or_and_eq_zero, ih]; simp
  simp [bad, this]

/-- A set of lookups is valid exactly when every byte is classified (R91, R198). -/
theorem bad_map_dt {p : Params} (h : p.invalidMarked = true) (url : Bool) (cs : List Byte) :
    bad (cs.map (dt p.invalid url)) = cs.any fun c => !(classify url c).isSome := by
  cases hb : bad (cs.map (dt p.invalid url))
  · rw [bad_eq_false_iff] at hb
    symm
    rw [List.any_eq_false]
    intro c hc
    have := (dt_valid_iff h url c).mp (hb _ (List.mem_map_of_mem hc))
    simp [this]
  · symm
    rw [List.any_eq_true]
    by_contra hn
    push Not at hn
    have : bad (cs.map (dt p.invalid url)) = false := by
      rw [bad_eq_false_iff]
      intro v hv
      obtain ⟨c, hc, rfl⟩ := List.mem_map.mp hv
      rw [dt_valid_iff h]
      simpa [Option.isSome_iff_ne_none] using hn c hc
    simp [this] at hb

end Sys2Proof.Machine
end

