-- ==== Sys2Proof/Laws/Shuffle.lean ====
section
/-! SUPPORT. The reference transformation: lengths, the 6-bit shuffle and its inverse on bits, composition of
encodings, and strict decoding group by group. -/

namespace Sys2Proof.Machine

/-! ### The 6-bit shuffle -/

/-- Joining the four indices of a group gives its three bytes (R152). -/
theorem join4_split3 (b0 b1 b2 : Byte) :
    join4 (split3 b0 b1 b2).1 (split3 b0 b1 b2).2.1 (split3 b0 b1 b2).2.2.1 (split3 b0 b1 b2).2.2.2
      = [b0, b1, b2] := by
  simp only [join4, split3, List.cons.injEq, and_true]
  refine ⟨?_, ?_, ?_⟩ <;>
  · apply BitVec.eq_of_getLsbD_eq
    intro i hi
    interval_cases i <;> simp only [BitVec.getLsbD_extractLsb', BitVec.getLsbD_append, -Nat.reduceAdd] <;> simp

/-- Joining the first two indices of a group whose second byte is zero gives its first byte (R143, R153). -/
theorem join2_split3 (b0 b1 b2 : Byte) : join2 (split3 b0 b1 b2).1 (split3 b0 b1 b2).2.1 = [b0] := by
  simp only [join2, split3, List.cons.injEq, and_true]
  apply BitVec.eq_of_getLsbD_eq
  intro i hi
  interval_cases i <;> simp only [BitVec.getLsbD_extractLsb', BitVec.getLsbD_append, -Nat.reduceAdd] <;> simp

/-- Joining the first three indices of a group gives its first two bytes (R144, R153). -/
theorem join3_split3 (b0 b1 b2 : Byte) :
    join3 (split3 b0 b1 b2).1 (split3 b0 b1 b2).2.1 (split3 b0 b1 b2).2.2.1 = [b0, b1] := by
  simp only [join3, split3, List.cons.injEq, and_true]
  refine ⟨?_, ?_⟩ <;>
  · apply BitVec.eq_of_getLsbD_eq
    intro i hi
    interval_cases i <;> simp only [BitVec.getLsbD_extractLsb', BitVec.getLsbD_append, -Nat.reduceAdd] <;> simp

@[simp] theorem join4_length (v0 v1 v2 v3 : Sextet) : (join4 v0 v1 v2 v3).length = 3 := rfl
@[simp] theorem join3_length (v0 v1 v2 : Sextet) : (join3 v0 v1 v2).length = 2 := rfl
@[simp] theorem join2_length (v0 v1 : Sextet) : (join2 v0 v1).length = 1 := rfl
@[simp] theorem encGroup_length (url : Bool) (b0 b1 b2 : Byte) : (encGroup url b0 b1 b2).length = 4 := rfl

@[simp] theorem encRem1_length (url pad : Bool) (b0 : Byte) :
    (encRem1 url pad b0).length = if pad then 4 else 2 := by cases pad <;> rfl

@[simp] theorem encRem2_length (url pad : Bool) (b0 b1 : Byte) :
    (encRem2 url pad b0 b1).length = if pad then 4 else 3 := by cases pad <;> rfl

theorem sextet_setWidth (v : Sextet) : sextet (v.setWidth 8) = v := by
  revert v; decide

/-! ### Encoding -/

@[simp] theorem encRef_nil (url pad : Bool) : encRef url pad [] = [] := by simp [encRef]

@[simp] theorem encRef_group (url pad : Bool) (b0 b1 b2 : Byte) (rest : List Byte) :
    encRef url pad (b0 :: b1 :: b2 :: rest) = encGroup url b0 b1 b2 ++ encRef url pad rest := by
  rw [encRef]

/-- The shape of a list whose length is a multiple of three. -/
theorem group3_cases {x : List Byte} (h : x.length % 3 = 0) :
    x = [] ∨ ∃ b0 b1 b2 rest, x = b0 :: b1 :: b2 :: rest ∧ rest.length % 3 = 0 := by
  match x with
  | [] => exact .inl rfl
  | [_] => simp at h
  | [_, _] => simp at h
  | b0 :: b1 :: b2 :: rest => exact .inr ⟨b0, b1, b2, rest, rfl, by simp at h; omega⟩

/-- The encoding of whole groups has four characters a group and does not depend on the padding (R147). -/
theorem encRef_whole (url pad pad' : Bool) :
    ∀ x : List Byte, x.length % 3 = 0 →
      encRef url pad x = encRef url pad' x ∧ 3 * (encRef url pad x).length = 4 * x.length
  | x, h => by
    rcases group3_cases h with rfl | ⟨b0, b1, b2, rest, rfl, hr⟩
    · simp
    · have ih := encRef_whole url pad pad' rest hr
      constructor
      · rw [encRef_group, encRef_group, ih.1]
      · simp only [encRef_group, List.length_append, encGroup_length, List.length_cons]
        omega
termination_by x => x.length
decreasing_by subst_vars; simp; omega

/-- Composition of encodings at a group boundary (R147). -/
theorem encRef_append (url pad : Bool) (y : List Byte) :
    ∀ x : List Byte, x.length % 3 = 0 → encRef url pad (x ++ y) = encRef url pad x ++ encRef url pad y
  | x, h => by
    rcases group3_cases h with rfl | ⟨b0, b1, b2, rest, rfl, hr⟩
    · simp
    · simp only [List.cons_append, encRef_group, encRef_append url pad y rest hr, List.append_assoc]
termination_by x => x.length
decreasing_by subst_vars; simp; omega

/-- The length of an encoding is the closed form (R113, R146). -/
theorem encRef_length (url pad : Bool) : ∀ x : List Byte, (encRef url pad x).length = encodedLen pad x.length
  | [] => by cases pad <;> rfl
  | [b0] => by cases pad <;> simp [encRef, encodedLen]
  | [b0, b1] => by cases pad <;> simp [encRef, encodedLen]
  | b0 :: b1 :: b2 :: rest => by
    have ih := encRef_length url pad rest
    rw [encRef_group, List.length_append, ih, encGroup_length]
    cases pad <;> simp [encodedLen] <;> omega

/-! ### Strict decoding -/

theorem decStrictGroup_cases (p : Params) (url : Bool) (c0 c1 c2 c3 : Byte) :
    decStrictGroup p url c0 c1 c2 c3 = .error .invalidCharacter ∨
      ∃ g, decStrictGroup p url c0 c1 c2 c3 = .ok g ∧ g.length = 3 := by
  unfold decStrictGroup
  simp only
  split_ifs
  · exact .inl rfl
  · exact .inr ⟨_, rfl, by simp⟩

theorem decPair_cases (p : Params) (url : Bool) (c0 c1 : Byte) :
    decPair p url c0 c1 = .error .invalidCharacter ∨ ∃ g, decPair p url c0 c1 = .ok g ∧ g.length = 1 := by
  unfold decPair
  simp only
  split_ifs
  · exact .inl rfl
  · exact .inr ⟨_, rfl, by simp⟩

theorem decTriple_cases (p : Params) (url : Bool) (c0 c1 c2 : Byte) :
    decTriple p url c0 c1 c2 = .error .invalidCharacter ∨
      ∃ g, decTriple p url c0 c1 c2 = .ok g ∧ g.length = 2 := by
  unfold decTriple
  simp only
  split_ifs
  · exact .inl rfl
  · exact .inr ⟨_, rfl, by simp⟩

theorem decPaddedGroup_cases (p : Params) (url : Bool) (c0 c1 c2 : Byte) :
    decPaddedGroup p url c0 c1 c2 = .error .invalidCharacter ∨
      ∃ g, decPaddedGroup p url c0 c1 c2 = .ok g ∧ 1 ≤ g.length ∧ g.length ≤ 2 := by
  unfold decPaddedGroup
  split_ifs
  · rcases decPair_cases p url c0 c1 with h | ⟨g, h, hl⟩
    · exact .inl h
    · exact .inr ⟨g, h, by omega⟩
  · rcases decTriple_cases p url c0 c1 c2 with h | ⟨g, h, hl⟩
    · exact .inl h
    · exact .inr ⟨g, h, by omega⟩

@[simp] theorem decBulk_nil (p : Params) (url : Bool) : decBulk p url [] = .ok [] := by simp [decBulk]

theorem decBulk_group (p : Params) (url : Bool) (c0 c1 c2 c3 : Byte) (rest : List Byte) :
    decBulk p url (c0 :: c1 :: c2 :: c3 :: rest)
      = (decStrictGroup p url c0 c1 c2 c3).bind fun g => (decBulk p url rest).bind fun out => .ok (g ++ out) := by
  rw [decBulk]; rfl

/-- The shape of a list whose length is a multiple of four. -/
theorem group4_cases {x : List Byte} (h : x.length % 4 = 0) :
    x = [] ∨ ∃ c0 c1 c2 c3 rest, x = c0 :: c1 :: c2 :: c3 :: rest ∧ rest.length % 4 = 0 := by
  match x with
  | [] => exact .inl rfl
  | [_] => simp at h
  | [_, _] => simp at h
  | [_, _, _] => simp at h
  | c0 :: c1 :: c2 :: c3 :: rest => exact .inr ⟨c0, c1, c2, c3, rest, rfl, by simp at h; omega⟩

/-- Strict decoding of whole groups: it fails with InvalidCharacter, or gives three bytes a group (R156). -/
theorem decBulk_cases (p : Params) (url : Bool) :
    ∀ x : List Byte, x.length % 4 = 0 →
      decBulk p url x = .error .invalidCharacter ∨
        ∃ out, decBulk p url x = .ok out ∧ 4 * out.length = 3 * x.length
  | x, h => by
    rcases group4_cases h with rfl | ⟨c0, c1, c2, c3, rest, rfl, hr⟩
    · exact .inr ⟨[], by simp⟩
    · rw [decBulk_group]
      rcases decStrictGroup_cases p url c0 c1 c2 c3 with hg | ⟨g, hg, hl⟩ <;> rw [hg]
      · exact .inl rfl
      · rcases decBulk_cases p url rest hr with hb | ⟨out, hb, hlen⟩ <;> rw [hb]
        · exact .inl rfl
        · refine .inr ⟨g ++ out, rfl, ?_⟩
          simp only [List.length_append, List.length_cons]
          omega
termination_by x => x.length
decreasing_by subst_vars; simp; omega

/-- Composition of strict decodings at a group boundary (R156). -/
theorem decBulk_append (p : Params) (url : Bool) (y : List Byte) :
    ∀ x : List Byte, x.length % 4 = 0 →
      decBulk p url (x ++ y) = (decBulk p url x).bind fun a => (decBulk p url y).bind fun b => .ok (a ++ b)
  | x, h => by
    rcases group4_cases h with rfl | ⟨c0, c1, c2, c3, rest, rfl, hr⟩
    · simp only [List.nil_append, decBulk_nil, Except.bind]
      cases decBulk p url y <;> rfl
    · simp only [List.cons_append, decBulk_group, decBulk_append p url y rest hr]
      cases decStrictGroup p url c0 c1 c2 c3 with
      | error e => rfl
      | ok g =>
        cases decBulk p url rest with
        | error e => rfl
        | ok a =>
          simp only [Except.bind]
          cases decBulk p url y with
          | error e => rfl
          | ok b => simp [List.append_assoc]
termination_by x => x.length
decreasing_by subst_vars; simp; omega

/-- Strict decoding fails exactly when some character is not in the alphabet (R156). -/
theorem decBulk_error_iff {p : Params} (hp : p.invalidMarked = true) (url : Bool) :
    ∀ x : List Byte, x.length % 4 = 0 →
      (decBulk p url x = .error .invalidCharacter ↔ (x.any fun c => !(classify url c).isSome) = true)
  | x, h => by
    rcases group4_cases h with rfl | ⟨c0, c1, c2, c3, rest, rfl, hr⟩
    · simp
    · have ih := decBulk_error_iff hp url rest hr
      rw [decBulk_group]
      have hb := bad_map_dt hp url [c0, c1, c2, c3]
      simp only [List.map_cons, List.map_nil] at hb
      unfold decStrictGroup
      simp only [hb]
      have hx : (c0 :: c1 :: c2 :: c3 :: rest).any (fun c => !(classify url c).isSome)
          = ([c0, c1, c2, c3].any (fun c => !(classify url c).isSome)
              || rest.any fun c => !(classify url c).isSome) := by
        simp [Bool.or_assoc]
      rw [hx]
      cases [c0, c1, c2, c3].any fun c => !(classify url c).isSome
      · simp only [Bool.false_eq_true, if_false, Except.bind, Bool.false_or]
        rw [← ih]
        rcases decBulk_cases p url rest hr with hb' | ⟨out, hb', -⟩ <;> rw [hb']
        simp
      · simp [Except.bind]
termination_by x => x.length
decreasing_by subst_vars; simp; omega

end Sys2Proof.Machine
end

