-- ==== Sys2Proof/Laws/Vector.lean ====
section
/-! SUPPORT. The realisation of the vector stages computes their normative functions (42_vector_kernels.md R181):
an encode chunk is the encoding of its bytes, a decode chunk fails exactly when strict decoding does, and otherwise
gives its bytes. -/

namespace Sys2Proof.Machine

/-! ### Lanes -/

theorem lane32_getLsbD (b0 b1 b2 b3 : Byte) (i : Nat) :
    (lane32 b0 b1 b2 b3).getLsbD i
      = if i < 8 then b0.getLsbD i else if i < 16 then b1.getLsbD (i - 8)
        else if i < 24 then b2.getLsbD (i - 16) else b3.getLsbD (i - 24) := by
  unfold lane32
  simp only [BitVec.getLsbD_append, -Nat.reduceAdd]
  by_cases h1 : i < 8
  · simp [h1]
  · by_cases h2 : i < 16
    · have : i - 8 < 8 := by omega
      simp [h1, h2, this]
    · by_cases h3 : i < 24
      · have h5 : ¬ i - 8 < 8 := by omega
        have h6 : i - 16 < 8 := by omega
        simp [h1, h2, h3, h5, h6, Nat.sub_sub]
      · have h5 : ¬ i - 8 < 8 := by omega
        have h6 : ¬ i - 16 < 8 := by omega
        simp [h1, h2, h3, h5, h6, Nat.sub_sub]

/-! ### Encode: index extraction (R184, R186) -/

theorem mulhiLane_0x40 (a : Lane16) : mulhiLane a 0x0040#16 = a >>> 10 := by
  apply BitVec.eq_of_toNat_eq
  have := a.isLt
  simp [mulhiLane, Nat.shiftRight_eq_div_pow]
  omega

theorem mulhiLane_0x400 (a : Lane16) : mulhiLane a 0x0400#16 = a >>> 6 := by
  apply BitVec.eq_of_toNat_eq
  have := a.isLt
  simp [mulhiLane, Nat.shiftRight_eq_div_pow]
  omega

theorem mulloLane_0x10 (a : Lane16) : mulloLane a 0x0010#16 = a <<< 4 := by
  apply BitVec.eq_of_toNat_eq
  simp [mulloLane, Nat.shiftLeft_eq]

theorem mulloLane_0x100 (a : Lane16) : mulloLane a 0x0100#16 = a <<< 8 := by
  apply BitVec.eq_of_toNat_eq
  simp [mulloLane, Nat.shiftLeft_eq]

theorem encProductHigh_eq (l : Lane32) :
    encProductHigh l = (((l &&& 0x0FC0FC00#32).extractLsb' 16 16) >>> 6) ++ (((l &&& 0x0FC0FC00#32).extractLsb' 0 16) >>> 10) := by
  have h1 : (0x04000040#32).extractLsb' 16 16 = 0x0400#16 := by decide
  have h2 : (0x04000040#32).extractLsb' 0 16 = 0x0040#16 := by decide
  rw [encProductHigh, mulhiU16, h1, h2, mulhiLane_0x40, mulhiLane_0x400]

theorem encProductLow_eq (l : Lane32) :
    encProductLow l = (((l &&& 0x003F03F0#32).extractLsb' 16 16) <<< 8) ++ (((l &&& 0x003F03F0#32).extractLsb' 0 16) <<< 4) := by
  have h1 : (0x01000010#32).extractLsb' 16 16 = 0x0100#16 := by decide
  have h2 : (0x01000010#32).extractLsb' 0 16 = 0x0010#16 := by decide
  rw [encProductLow, mulloU16, h1, h2, mulloLane_0x10, mulloLane_0x100]

/-- The two masks, the two multiplies and the OR extract the four indices of a group (R184, R186). -/
theorem index_extraction (b0 b1 b2 : Byte) :
    bytes32 (encProductHigh (lane32 b1 b0 b2 b1) ||| encProductLow (lane32 b1 b0 b2 b1))
      = [(split3 b0 b1 b2).1.setWidth 8, (split3 b0 b1 b2).2.1.setWidth 8,
         (split3 b0 b1 b2).2.2.1.setWidth 8, (split3 b0 b1 b2).2.2.2.setWidth 8] := by
  rw [encProductHigh_eq, encProductLow_eq]
  simp only [bytes32, split3, List.cons.injEq, and_true]
  refine ⟨?_, ?_, ?_, ?_⟩ <;>
  · apply BitVec.eq_of_getLsbD_eq
    intro i hi
    interval_cases i <;>
      simp only [BitVec.getLsbD_extractLsb', BitVec.getLsbD_append, BitVec.getLsbD_or, BitVec.getLsbD_and,
        BitVec.getLsbD_ushiftRight, BitVec.getLsbD_shiftLeft, BitVec.getLsbD_setWidth, lane32_getLsbD, -Nat.reduceAdd] <;>
      simp

/-- The multiply-high product of a group: its first and third index, each in its 16-bit half (R186, `t1`). -/
theorem product_high (b0 b1 b2 : Byte) :
    bytes32 (encProductHigh (lane32 b1 b0 b2 b1))
      = [(split3 b0 b1 b2).1.setWidth 8, 0#8, (split3 b0 b1 b2).2.2.1.setWidth 8, 0#8] := by
  rw [encProductHigh_eq]
  simp only [bytes32, split3, List.cons.injEq, and_true]
  refine ⟨?_, ?_, ?_, ?_⟩ <;>
  · apply BitVec.eq_of_getLsbD_eq
    intro i hi
    interval_cases i <;>
      simp only [BitVec.getLsbD_extractLsb', BitVec.getLsbD_append, BitVec.getLsbD_and, BitVec.getLsbD_ushiftRight,
        BitVec.getLsbD_setWidth, lane32_getLsbD, -Nat.reduceAdd] <;>
      simp

/-- The multiply-low product of a group: its second and fourth index, each in the high byte of its half (R186, `t3`). -/
theorem product_low (b0 b1 b2 : Byte) :
    bytes32 (encProductLow (lane32 b1 b0 b2 b1))
      = [0#8, (split3 b0 b1 b2).2.1.setWidth 8, 0#8, (split3 b0 b1 b2).2.2.2.setWidth 8] := by
  rw [encProductLow_eq]
  simp only [bytes32, split3, List.cons.injEq, and_true]
  refine ⟨?_, ?_, ?_, ?_⟩ <;>
  · apply BitVec.eq_of_getLsbD_eq
    intro i hi
    interval_cases i <;>
      simp only [BitVec.getLsbD_extractLsb', BitVec.getLsbD_append, BitVec.getLsbD_and, BitVec.getLsbD_shiftLeft,
        BitVec.getLsbD_setWidth, lane32_getLsbD, -Nat.reduceAdd] <;>
      simp

/-- One encode sub-lane gives the characters of its four groups (R181, R182 to R189). -/
theorem encSubLane_result (url pad : Bool) (g : Nat → Nat → Byte) (x : List Byte) (h : x.length = 12) :
    (encSubLane url g x).result = encRef url pad x := by
  obtain ⟨a0, a1, a2, a3, a4, a5, a6, a7, a8, a9, a10, a11, rfl⟩ :
      ∃ a0 a1 a2 a3 a4 a5 a6 a7 a8 a9 a10 a11, x = [a0, a1, a2, a3, a4, a5, a6, a7, a8, a9, a10, a11] := by
    match x, h with
    | [a0, a1, a2, a3, a4, a5, a6, a7, a8, a9, a10, a11], _ => exact ⟨a0, a1, a2, a3, a4, a5, a6, a7, a8, a9, a10, a11, rfl⟩
  simp only [encRef_group, encRef_nil, encSubLane, shuffleBytes, encPattern, List.map_cons, List.map_nil,
    List.getD_cons_zero, List.getD_cons_succ, lanes32, List.zipWith_cons_cons, List.zipWith_nil_left,
    List.flatMap_cons, List.flatMap_nil, index_extraction, List.map_append, translateIndex_eq_alpha, encGroup]

/-- An encode chunk gives the encoding of its bytes (R181). -/
theorem encChunk_result (url pad : Bool) :
    ∀ (k : Nat) (g : Nat → Nat → Byte) (x : List Byte), x.length = 12 * k →
      (encChunk url k g x).result = encRef url pad x
  | 0, _, x, h => by
    obtain rfl : x = [] := List.eq_nil_of_length_eq_zero (by omega)
    simp [encChunk, onSubLanes, VecRegs.empty, VecRegs.zero]
  | k + 1, g, x, h => by
    have ih := encChunk_result url pad k (fun r i => g r (16 + i)) (x.drop 12) (by simp; omega)
    have h12 : (x.take 12).length = 12 := by simp; omega
    rw [encChunk] at ih ⊢
    show (encSubLane url g (x.take 12)).result ++ _ = _
    rw [ih, encSubLane_result url pad g _ h12, ← encRef_append url pad _ _ (by omega), List.take_append_drop]

/-! ### Decode: packing (R201, R203, R204) -/

theorem multiplyAddBytes_toNat (s0 s1 : Sextet) :
    (multiplyAddBytes (s0.setWidth 8) (s1.setWidth 8)).toNat = 64 * s0.toNat + s1.toNat := by
  have h0 := s0.isLt
  have h1 := s1.isLt
  have e0 : (0x40#8).toInt = 64 := by decide
  have e1 : (0x01#8).toInt = 1 := by decide
  have n0 : (s0.setWidth 8).toNat = s0.toNat := by simp; omega
  have n1 : (s1.setWidth 8).toNat = s1.toNat := by simp; omega
  simp only [multiplyAddBytes, saturate16, e0, e1, n0, n1, BitVec.toNat_ofInt]
  omega

theorem multiplyAddWords_toNat (m0 m1 : Lane16) (h0 : m0.toNat < 4096) (h1 : m1.toNat < 4096) :
    (multiplyAddWords m0 m1).toNat = 4096 * m0.toNat + m1.toNat := by
  have e0 : (0x1000#16).toInt = 4096 := by decide
  have e1 : (0x0001#16).toInt = 1 := by decide
  have n0 : m0.toInt = m0.toNat := by rw [BitVec.toInt_eq_toNat_cond, if_pos (by omega)]
  have n1 : m1.toInt = m1.toNat := by rw [BitVec.toInt_eq_toNat_cond, if_pos (by omega)]
  simp only [multiplyAddWords, e0, e1, n0, n1, BitVec.toNat_ofInt]
  omega

/-- The bytes of `JOIN4`, as parts of one number. -/
theorem join4_toNat (s0 s1 s2 s3 : Sextet) :
    (join4 s0 s1 s2 s3).map BitVec.toNat
      = let t := 262144 * s0.toNat + 4096 * s1.toNat + 64 * s2.toNat + s3.toNat
        [t / 65536 % 256, t / 256 % 256, t % 256] := by
  have h1 := s1.isLt
  have h2 := s2.isLt
  have h3 := s3.isLt
  have e : (s0 ++ s1 ++ s2 ++ s3).toNat = 262144 * s0.toNat + 4096 * s1.toNat + 64 * s2.toNat + s3.toNat := by
    simp only [BitVec.toNat_append, -Nat.reduceAdd]
    rw [← Nat.shiftLeft_add_eq_or_of_lt h1, ← Nat.shiftLeft_add_eq_or_of_lt h2, ← Nat.shiftLeft_add_eq_or_of_lt h3]
    simp only [Nat.shiftLeft_eq]
    omega
  simp only [join4, List.map_cons, List.map_nil, BitVec.extractLsb'_toNat, e, Nat.shiftRight_eq_div_pow]
  norm_num

/-- The two multiply-adds leave the three bytes of `JOIN4` in a 32-bit lane, least significant first, and a zero
byte (R203, R204). -/
theorem pack_lane (s0 s1 s2 s3 : Sextet) :
    ∃ o0 o1 o2, join4 s0 s1 s2 s3 = [o0, o1, o2] ∧
      bytes32 (multiplyAddWords (multiplyAddBytes (s0.setWidth 8) (s1.setWidth 8))
        (multiplyAddBytes (s2.setWidth 8) (s3.setWidth 8))) = [o2, o1, o0, 0#8] := by
  have h0 := s0.isLt
  have h1 := s1.isLt
  have h2 := s2.isLt
  have h3 := s3.isLt
  have e01 := multiplyAddBytes_toNat s0 s1
  have e23 := multiplyAddBytes_toNat s2 s3
  have em := multiplyAddWords_toNat _ _ (by rw [e01]; omega) (by rw [e23]; omega)
  have hj := join4_toNat s0 s1 s2 s3
  rw [e01, e23] at em
  refine ⟨_, _, _, rfl, ?_⟩
  simp only [join4, List.map_cons, List.map_nil, List.cons.injEq, and_true] at hj
  obtain ⟨j0, j1, j2⟩ := hj
  simp only [bytes32, List.cons.injEq, and_true]
  refine ⟨?_, ?_, ?_, ?_⟩ <;> apply BitVec.eq_of_toNat_eq
  · rw [j2, BitVec.extractLsb'_toNat, em, Nat.shiftRight_eq_div_pow]; omega
  · rw [j1, BitVec.extractLsb'_toNat, em, Nat.shiftRight_eq_div_pow]; omega
  · rw [j0, BitVec.extractLsb'_toNat, em, Nat.shiftRight_eq_div_pow]; omega
  · rw [BitVec.extractLsb'_toNat, em, Nat.shiftRight_eq_div_pow]
    simp
    omega

/-! ### Decode: a chunk (R181, R196, R199) -/

theorem charIndex_sextet (url : Bool) (c : Byte) : (sextet (charIndex url c)).setWidth 8 = charIndex url c := by
  revert c url; decide

/-- A strict group of four characters of the alphabet decodes to the bytes of `JOIN4` (R156). -/
theorem decStrictGroup_classified {p : Params} (hp : p.invalidMarked = true) {url : Bool} {c0 c1 c2 c3 : Byte}
    (h : ([c0, c1, c2, c3].any fun c => !(classify url c).isSome) = false) :
    decStrictGroup p url c0 c1 c2 c3
      = .ok (join4 (sextet (charIndex url c0)) (sextet (charIndex url c1)) (sextet (charIndex url c2))
          (sextet (charIndex url c3))) := by
  have hb := bad_map_dt hp url [c0, c1, c2, c3]
  rw [h] at hb
  simp only [List.map_cons, List.map_nil] at hb
  have hc : ∀ c ∈ [c0, c1, c2, c3], dt p.invalid url c = charIndex url c := fun c hm =>
    dt_of_classified (by simpa [Option.isSome_iff_ne_none] using List.any_eq_false.mp h c hm) _
  unfold decStrictGroup
  simp only [hb, Bool.false_eq_true, if_false]
  rw [hc c0 (by simp), hc c1 (by simp), hc c2 (by simp), hc c3 (by simp)]

/-- The bytes of one sub-lane of classified characters (R201, R203, R204). -/
theorem decSubLane_result {p : Params} (hp : p.invalidMarked = true) (url : Bool) (g : Nat → Nat → Byte) (x : List Byte)
    (h : x.length = 16) (hx : (x.any fun c => !(classify url c).isSome) = false) :
    decBulk p url x = .ok ((decSubLane url g x).result.take 12) := by
  obtain ⟨a0, a1, a2, a3, a4, a5, a6, a7, a8, a9, a10, a11, a12, a13, a14, a15, rfl⟩ :
      ∃ a0 a1 a2 a3 a4 a5 a6 a7 a8 a9 a10 a11 a12 a13 a14 a15,
        x = [a0, a1, a2, a3, a4, a5, a6, a7, a8, a9, a10, a11, a12, a13, a14, a15] := by
    match x, h with
    | [a0, a1, a2, a3, a4, a5, a6, a7, a8, a9, a10, a11, a12, a13, a14, a15], _ =>
      exact ⟨a0, a1, a2, a3, a4, a5, a6, a7, a8, a9, a10, a11, a12, a13, a14, a15, rfl⟩
  have hg : ∀ c ∈ [a0, a1, a2, a3, a4, a5, a6, a7, a8, a9, a10, a11, a12, a13, a14, a15],
      (!(classify url c).isSome) = false := fun c hc => by
    simpa [Option.isSome_iff_ne_none] using List.any_eq_false.mp hx c hc
  have lane : ∀ c0 c1 c2 c3, ∃ o0 o1 o2,
      join4 (sextet (charIndex url c0)) (sextet (charIndex url c1)) (sextet (charIndex url c2))
        (sextet (charIndex url c3)) = [o0, o1, o2] ∧
      bytes32 (multiplyAddWords (multiplyAddBytes (charIndex url c0) (charIndex url c1))
        (multiplyAddBytes (charIndex url c2) (charIndex url c3))) = [o2, o1, o0, 0#8] := by
    intro c0 c1 c2 c3
    have := pack_lane (sextet (charIndex url c0)) (sextet (charIndex url c1)) (sextet (charIndex url c2))
      (sextet (charIndex url c3))
    simpa only [charIndex_sextet] using this
  obtain ⟨p0, p1, p2, j0, m0⟩ := lane a0 a1 a2 a3
  obtain ⟨q0, q1, q2, j1, m1⟩ := lane a4 a5 a6 a7
  obtain ⟨r0, r1, r2, j2, m2⟩ := lane a8 a9 a10 a11
  obtain ⟨t0, t1, t2, j3, m3⟩ := lane a12 a13 a14 a15
  simp only [decBulk_group, decBulk_nil]
  rw [decStrictGroup_classified hp (by simp_all), decStrictGroup_classified hp (by simp_all),
    decStrictGroup_classified hp (by simp_all), decStrictGroup_classified hp (by simp_all)]
  simp only [Except.bind, j0, j1, j2, j3, decSubLane, List.map_cons, List.map_nil, pairLanes, quadLanes,
    List.flatMap_cons, List.flatMap_nil, m0, m1, m2, m3]
  rfl

/-! ### Sub-lanes of a chunk (R207) -/

@[simp] theorem freeLanes_length (g : Nat → Nat → Byte) (r k n : Nat) : (freeLanes g r k n).length = n := by
  simp [freeLanes]

/-- A register of a chunk has 16 lanes a sub-lane, and sub-lane `j` of it is that register of the function on the
sub-lane's own input: no stage moves data between sub-lanes (R207). -/
theorem onSubLanes_subLane {f : (Nat → Nat → Byte) → List Byte → VecRegs} {sub : Nat} {q : VecRegs → List Byte}
    (h0 : q VecRegs.empty = []) (happ : ∀ a b, q (a.append b) = q a ++ q b)
    (hf : ∀ g x, x.length = sub → (q (f g x)).length = 16) :
    ∀ (k : Nat) (g : Nat → Nat → Byte) (x : List Byte), x.length = sub * k →
      (q (onSubLanes f sub k g x)).length = 16 * k ∧
      ∀ j < k, ((q (onSubLanes f sub k g x)).drop (16 * j)).take 16
        = q (f (fun r i => g r (16 * j + i)) ((x.drop (sub * j)).take sub))
  | 0, _, _, _ => by simp [onSubLanes, h0]
  | k + 1, g, x, h => by
    have hs : (x.take sub).length = sub := by
      rw [List.length_take, h, Nat.mul_succ]; omega
    have hd : (x.drop sub).length = sub * k := by rw [List.length_drop, h, Nat.mul_succ]; omega
    obtain ⟨hl, ih⟩ := onSubLanes_subLane h0 happ hf k (fun r i => g r (16 + i)) (x.drop sub) hd
    have h16 := hf g _ hs
    simp only [onSubLanes, happ]
    refine ⟨by rw [List.length_append, h16, hl]; omega, fun j hj => ?_⟩
    cases j with
    | zero =>
      rw [Nat.mul_zero, List.drop_zero, List.take_append_of_le_length (by omega), List.take_of_length_le (by omega)]
      simp
    | succ j =>
      have := ih j (by omega)
      rw [List.drop_append, List.drop_eq_nil_of_le (by omega), List.nil_append, h16,
        show 16 * (j + 1) - 16 = 16 * j by omega, this, List.drop_drop]
      have e1 : sub * j + sub = sub * (j + 1) := by rw [Nat.mul_succ]
      have e2 : (fun r i => g r (16 + (16 * j + i))) = fun r i => g r (16 * (j + 1) + i) := by
        funext r i; congr 1; omega
      rw [Nat.add_comm sub, e1, e2]

/-- A register that a stage computes lane by lane from the input (R207, R208). -/
theorem onSubLanes_map {f : (Nat → Nat → Byte) → List Byte → VecRegs} {sub : Nat} {q : VecRegs → List Byte}
    (h0 : q VecRegs.empty = []) (happ : ∀ a b, q (a.append b) = q a ++ q b) {m : Byte → Byte}
    (hf : ∀ g x, x.length = sub → q (f g x) = x.map m) :
    ∀ (k : Nat) (g : Nat → Nat → Byte) (x : List Byte), x.length = sub * k → q (onSubLanes f sub k g x) = x.map m
  | 0, _, x, h => by
    obtain rfl : x = [] := List.eq_nil_of_length_eq_zero (by omega)
    simp [onSubLanes, h0]
  | k + 1, g, x, h => by
    have hs : (x.take sub).length = sub := by rw [List.length_take, h, Nat.mul_succ]; omega
    have hd : (x.drop sub).length = sub * k := by rw [List.length_drop, h, Nat.mul_succ]; omega
    simp only [onSubLanes, happ]
    rw [hf g _ hs, onSubLanes_map h0 happ hf k _ _ hd, ← List.map_append, List.take_append_drop]

/-! ### Decode: classification (R198, R199) -/

/-- The OR of the five masks of a byte is all ones exactly when the byte is classified (R198, R199). -/
theorem classMasks_or (url : Bool) (c : Byte) :
    classMask url .upper c ||| classMask url .lower c ||| classMask url .digit c ||| classMask url .sym62 c
      ||| classMask url .sym63 c = if (classify url c).isSome then 0xFF#8 else 0#8 := by
  revert c url; decide

theorem orLanes_map (f h : Byte → Byte) (x : List Byte) :
    orLanes (x.map f) (x.map h) = x.map fun c => f c ||| h c := by
  induction x with
  | nil => rfl
  | cons c x ih => simp [orLanes] at ih ⊢

/-- The class mask registers of a decode chunk (R198). -/
theorem decChunk_masks (url : Bool) (k : Nat) (g : Nat → Nat → Byte) (x : List Byte) (h : x.length = 16 * k) :
    (decChunk url k g x).maskUpper = x.map (classMask url .upper) ∧
    (decChunk url k g x).maskLower = x.map (classMask url .lower) ∧
    (decChunk url k g x).maskDigit = x.map (classMask url .digit) ∧
    (decChunk url k g x).maskSym62 = x.map (classMask url .sym62) ∧
    (decChunk url k g x).maskSym63 = x.map (classMask url .sym63) := by
  refine ⟨?_, ?_, ?_, ?_, ?_⟩
  · exact onSubLanes_map (q := VecRegs.maskUpper) rfl (fun _ _ => rfl) (fun _ _ _ => rfl) k g x h
  · exact onSubLanes_map (q := VecRegs.maskLower) rfl (fun _ _ => rfl) (fun _ _ _ => rfl) k g x h
  · exact onSubLanes_map (q := VecRegs.maskDigit) rfl (fun _ _ => rfl) (fun _ _ _ => rfl) k g x h
  · exact onSubLanes_map (q := VecRegs.maskSym62) rfl (fun _ _ => rfl) (fun _ _ _ => rfl) k g x h
  · exact onSubLanes_map (q := VecRegs.maskSym63) rfl (fun _ _ => rfl) (fun _ _ _ => rfl) k g x h

/-- A chunk fails exactly when some of its characters is in no class (R199). -/
theorem decChunk_fails (url : Bool) (k : Nat) (g : Nat → Nat → Byte) (x : List Byte) (h : x.length = 16 * k) :
    chunkFails (decChunk url k g x) = x.any fun c => !(classify url c).isSome := by
  obtain ⟨h1, h2, h3, h4, h5⟩ := decChunk_masks url k g x h
  rw [chunkFails, VecRegs.classified, h1, h2, h3, h4, h5, orLanes_map, orLanes_map, orLanes_map, orLanes_map,
    List.any_map]
  congr 1
  funext c
  simp only [Function.comp, classMasks_or]
  cases (classify url c).isSome <;> decide

/-! ### Decode: the packed bytes (R201, R205) -/

/-- The result bytes of a register of `k` sub-lanes: lanes 0 to 11 of each (R201). -/
def packedLanes : Nat → List Byte → List Byte
  | 0, _ => []
  | k + 1, w => w.take 12 ++ packedLanes k (w.drop 16)

@[simp] theorem packedLanes_length : ∀ (k : Nat) (w : List Byte), w.length = 16 * k → (packedLanes k w).length = 12 * k
  | 0, _, _ => rfl
  | k + 1, w, h => by
    rw [packedLanes, List.length_append, packedLanes_length k _ (by simp; omega), List.length_take]
    omega

theorem packedLanes_eq_flatMap : ∀ (k : Nat) (w : List Byte),
    packedLanes k w = (List.range k).flatMap fun j => (w.drop (16 * j)).take 12
  | 0, _ => rfl
  | k + 1, w => by
    rw [packedLanes, packedLanes_eq_flatMap k, List.range_succ_eq_map, List.flatMap_cons, List.flatMap_map]
    simp [List.drop_drop, Nat.mul_succ, Nat.add_comm]

theorem decSubLane_result_length (url : Bool) (g : Nat → Nat → Byte) (x : List Byte) :
    (decSubLane url g x).result.length = 16 := by
  simp [decSubLane, shuffleBytes, packPattern]

theorem decChunk_result_length (url : Bool) (k : Nat) (g : Nat → Nat → Byte) (x : List Byte) (h : x.length = 16 * k) :
    (decChunk url k g x).result.length = 16 * k :=
  (onSubLanes_subLane (q := VecRegs.result) rfl (fun _ _ => rfl) (fun g x _ => decSubLane_result_length url g x)
    k g x h).1

/-- A chunk of classified characters gives the bytes of strict decoding (R181, R196). -/
theorem decChunk_result {p : Params} (hp : p.invalidMarked = true) (url : Bool) :
    ∀ (k : Nat) (g : Nat → Nat → Byte) (x : List Byte), x.length = 16 * k →
      (x.any fun c => !(classify url c).isSome) = false →
      decBulk p url x = .ok (packedLanes k (decChunk url k g x).result)
  | 0, _, x, h, _ => by
    obtain rfl : x = [] := List.eq_nil_of_length_eq_zero (by omega)
    simp [packedLanes]
  | k + 1, g, x, h, hx => by
    rw [← List.take_append_drop 16 x, List.any_append, Bool.or_eq_false_iff] at hx
    have h16 : (x.take 16).length = 16 := by simp; omega
    have ih := decChunk_result hp url k (fun r i => g r (16 + i)) (x.drop 16) (by simp; omega) hx.2
    have hl := decSubLane_result hp url g (x.take 16) h16 hx.1
    have er : (decChunk url (k + 1) g x).result
        = (decSubLane url g (x.take 16)).result ++ (decChunk url k (fun r i => g r (16 + i)) (x.drop 16)).result := rfl
    have e16 := decSubLane_result_length url g (x.take 16)
    rw [er, packedLanes, List.take_append_of_le_length (by rw [e16]; decide), List.drop_left' e16]
    conv_lhs => rw [← List.take_append_drop 16 x, decBulk_append p url _ _ (by omega), hl, ih]
    rfl

/-! ### The stages of a sub-lane, in the working registers -/

/-- The stages of one encode sub-lane: its load, and group by group its shuffle, its products and its indices; its
characters (R182 to R188). -/
theorem encSubLane_stages (url : Bool) (f : Nat → Nat → Byte) (x : List Byte) (h : x.length = 12) :
    (encSubLane url f x).loaded.take 12 = x ∧
    (∀ g < 4, let b := fun k => x.getD (3 * g + k) 0#8
      let i := split3 (b 0) (b 1) (b 2)
      ((encSubLane url f x).shuffled.drop (4 * g)).take 4 = [b 1, b 0, b 2, b 1] ∧
      ((encSubLane url f x).product1.drop (4 * g)).take 4 = [i.1.setWidth 8, 0#8, i.2.2.1.setWidth 8, 0#8] ∧
      ((encSubLane url f x).product2.drop (4 * g)).take 4 = [0#8, i.2.1.setWidth 8, 0#8, i.2.2.2.setWidth 8] ∧
      ((encSubLane url f x).index.drop (4 * g)).take 4
        = [i.1.setWidth 8, i.2.1.setWidth 8, i.2.2.1.setWidth 8, i.2.2.2.setWidth 8]) ∧
    (encSubLane url f x).result = (encSubLane url f x).index.map fun i => alpha url (i.setWidth 6) := by
  obtain ⟨a0, a1, a2, a3, a4, a5, a6, a7, a8, a9, a10, a11, rfl⟩ :
      ∃ a0 a1 a2 a3 a4 a5 a6 a7 a8 a9 a10 a11, x = [a0, a1, a2, a3, a4, a5, a6, a7, a8, a9, a10, a11] := by
    match x, h with
    | [a0, a1, a2, a3, a4, a5, a6, a7, a8, a9, a10, a11], _ => exact ⟨a0, a1, a2, a3, a4, a5, a6, a7, a8, a9, a10, a11, rfl⟩
  have e : ∀ s : Sextet, (s.setWidth 8 : BitVec 8).setWidth 6 = s := by decide
  simp only [encSubLane, shuffleBytes, encPattern, List.map_cons, List.map_nil,
    List.getD_cons_zero, List.getD_cons_succ, lanes32, List.zipWith_cons_cons, List.zipWith_nil_left,
    List.flatMap_cons, List.flatMap_nil, index_extraction, product_high, product_low, List.map_append,
    translateIndex_eq_alpha, e]
  refine ⟨rfl, ?_, trivial⟩
  intro g hg
  obtain rfl | rfl | rfl | rfl : g = 0 ∨ g = 1 ∨ g = 2 ∨ g = 3 := by omega
  all_goals exact ⟨rfl, rfl, rfl, rfl⟩

/-- The products of one decode sub-lane, group by group (R203, R204). -/
theorem decSubLane_products (url : Bool) (f : Nat → Nat → Byte) (x : List Byte) (h : x.length = 16) :
    ∀ g < 4, let v := fun k => sextet (charIndex url (x.getD (4 * g + k) 0#8))
      let m := fun k => BitVec.ofNat 16 (64 * (v k).toNat + (v (k + 1)).toNat)
      ((decSubLane url f x).product1.drop (4 * g)).take 4 = bytes16 (m 0) ++ bytes16 (m 2) ∧
      ∃ o0 o1 o2, join4 (v 0) (v 1) (v 2) (v 3) = [o0, o1, o2] ∧
        ((decSubLane url f x).product2.drop (4 * g)).take 4 = [o2, o1, o0, 0#8] := by
  obtain ⟨a0, a1, a2, a3, a4, a5, a6, a7, a8, a9, a10, a11, a12, a13, a14, a15, rfl⟩ :
      ∃ a0 a1 a2 a3 a4 a5 a6 a7 a8 a9 a10 a11 a12 a13 a14 a15,
        x = [a0, a1, a2, a3, a4, a5, a6, a7, a8, a9, a10, a11, a12, a13, a14, a15] := by
    match x, h with
    | [a0, a1, a2, a3, a4, a5, a6, a7, a8, a9, a10, a11, a12, a13, a14, a15], _ =>
      exact ⟨a0, a1, a2, a3, a4, a5, a6, a7, a8, a9, a10, a11, a12, a13, a14, a15, rfl⟩
  have one : ∀ c0 c1, multiplyAddBytes (charIndex url c0) (charIndex url c1)
      = BitVec.ofNat 16 (64 * (sextet (charIndex url c0)).toNat + (sextet (charIndex url c1)).toNat) := by
    intro c0 c1
    have := multiplyAddBytes_toNat (sextet (charIndex url c0)) (sextet (charIndex url c1))
    rw [charIndex_sextet, charIndex_sextet] at this
    rw [← this, BitVec.ofNat_toNat, BitVec.setWidth_eq]
  have lane : ∀ c0 c1 c2 c3, ∃ o0 o1 o2,
      join4 (sextet (charIndex url c0)) (sextet (charIndex url c1)) (sextet (charIndex url c2))
        (sextet (charIndex url c3)) = [o0, o1, o2] ∧
      bytes32 (multiplyAddWords (multiplyAddBytes (charIndex url c0) (charIndex url c1))
        (multiplyAddBytes (charIndex url c2) (charIndex url c3))) = [o2, o1, o0, 0#8] := by
    intro c0 c1 c2 c3
    have := pack_lane (sextet (charIndex url c0)) (sextet (charIndex url c1)) (sextet (charIndex url c2))
      (sextet (charIndex url c3))
    simpa only [charIndex_sextet] using this
  intro g hg
  obtain rfl | rfl | rfl | rfl : g = 0 ∨ g = 1 ∨ g = 2 ∨ g = 3 := by omega
  · obtain ⟨o0, o1, o2, hj, hm⟩ := lane a0 a1 a2 a3
    exact ⟨congrArg₂ (fun x y => bytes16 x ++ bytes16 y) (one a0 a1) (one a2 a3), o0, o1, o2, hj, hm ▸ rfl⟩
  · obtain ⟨o0, o1, o2, hj, hm⟩ := lane a4 a5 a6 a7
    exact ⟨congrArg₂ (fun x y => bytes16 x ++ bytes16 y) (one a4 a5) (one a6 a7), o0, o1, o2, hj, hm ▸ rfl⟩
  · obtain ⟨o0, o1, o2, hj, hm⟩ := lane a8 a9 a10 a11
    exact ⟨congrArg₂ (fun x y => bytes16 x ++ bytes16 y) (one a8 a9) (one a10 a11), o0, o1, o2, hj, hm ▸ rfl⟩
  · obtain ⟨o0, o1, o2, hj, hm⟩ := lane a12 a13 a14 a15
    exact ⟨congrArg₂ (fun x y => bytes16 x ++ bytes16 y) (one a12 a13) (one a14 a15), o0, o1, o2, hj, hm ▸ rfl⟩

/-- The load and the indices of a decode chunk (R195, R200, R207). -/
theorem decChunk_lanes (url : Bool) (k : Nat) (g : Nat → Nat → Byte) (x : List Byte) (h : x.length = 16 * k) :
    (decChunk url k g x).loaded = x ∧ (decChunk url k g x).index = x.map (charIndex url) := by
  refine ⟨?_, onSubLanes_map (q := VecRegs.index) rfl (fun _ _ => rfl) (fun _ _ _ => rfl) k g x h⟩
  have := onSubLanes_map (f := decSubLane url) (q := VecRegs.loaded) rfl (fun _ _ => rfl) (m := id)
    (fun _ x _ => (List.map_id x).symm) k g x h
  simpa [decChunk] using this

end Sys2Proof.Machine
end

