-- ==== Sys2Proof/Laws/Engine.lean ====
section
/-! SUPPORT. What no engine step changes, how an operation's run is reasoned about, and the reads and writes of a
step in terms of the operation's input and the output so far. -/

namespace Sys2Proof.Machine

/-! ### The frame of the engine (10_state.md R30, R31, R37, R255, R256) -/

/-- What no engine step changes: the parameters, the host's registers, the latches, IN, and the outside. -/
structure EngineFrame (s t : State) : Prop where
  cfg : t.cfg = s.cfg
  cmd : t.cmd = s.cmd
  ilen : t.ilen = s.ilen
  ocap : t.ocap = s.ocap
  lOp : t.lOp = s.lOp
  lUrl : t.lUrl = s.lUrl
  lPad : t.lPad = s.lPad
  lN : t.lN = s.lN
  lCap : t.lCap = s.lCap
  inMem : t.inMem = s.inMem
  inRace : t.inRace = s.inRace
  epoch : t.epoch = s.epoch
  events : t.events = s.events
  obs : t.obs = s.obs

namespace EngineFrame

theorem refl (s : State) : EngineFrame s s := by constructor <;> rfl

theorem trans {s t u : State} (h : EngineFrame s t) (h' : EngineFrame t u) : EngineFrame s u where
  cfg := h'.cfg.trans h.cfg
  cmd := h'.cmd.trans h.cmd
  ilen := h'.ilen.trans h.ilen
  ocap := h'.ocap.trans h.ocap
  lOp := h'.lOp.trans h.lOp
  lUrl := h'.lUrl.trans h.lUrl
  lPad := h'.lPad.trans h.lPad
  lN := h'.lN.trans h.lN
  lCap := h'.lCap.trans h.lCap
  inMem := h'.inMem.trans h.inMem
  inRace := h'.inRace.trans h.inRace
  epoch := h'.epoch.trans h.epoch
  events := h'.events.trans h.events
  obs := h'.obs.trans h.obs

variable (s : State)

theorem writeOut (a : Nat) (bs : List Byte) : EngineFrame s (s.writeOut a bs) := by constructor <;> rfl
theorem freeOut (a k : Nat) : EngineFrame s (s.freeOut a k) := by constructor <;> rfl
theorem advance (i o : Nat) : EngineFrame s (s.advance i o) := by constructor <;> rfl
theorem setPhase (p : Phase) : EngineFrame s (s.setPhase p) := by constructor <;> rfl
theorem setTier (t : Tier) : EngineFrame s (s.setTier t) := by constructor <;> rfl
theorem setAcc (v : Byte) : EngineFrame s (s.setAcc v) := by constructor <;> rfl
theorem setVec (v : VecUnits) : EngineFrame s (s.setVec v) := by constructor <;> rfl
theorem nextDraw : EngineFrame s s.nextDraw := by constructor <;> rfl
theorem ok (m : Nat) : EngineFrame s (s.ok m) := by constructor <;> rfl
theorem raise (e : ErrorKind) : EngineFrame s (s.raise e) := by constructor <;> rfl
theorem decOk : EngineFrame s s.decOk := (freeOut s _ _).trans (ok _ _)
theorem decRaise (e : ErrorKind) : EngineFrame s (s.decRaise e) := (freeOut s _ _).trans (raise _ _)
theorem emit (k : Nat) (out : List Byte) : EngineFrame s (s.emit k out) := (writeOut s _ _).trans (advance _ _ _)
theorem dispatch : EngineFrame s s.dispatch := (setTier s _).trans (setPhase _ _)

theorem storeSubLanes : ∀ (k : Nat) (s : State) (o : Nat) (w : List Byte), EngineFrame s (storeSubLanes s o k w)
  | 0, s, _, _ => refl s
  | k + 1, s, _, _ => (writeOut s _ _).trans (storeSubLanes k _ _ _)

theorem storeEight (v : List Byte) : EngineFrame s (storeEight s v) :=
  ((writeOut s _ _).trans (writeOut _ _ _)).trans (advance _ _ _)

theorem checkRow : EngineFrame s (checkRow s) := by
  unfold Machine.checkRow
  split
  · exact ok s _
  · exact ok s _
  · split_ifs
    · exact raise s _
    · exact ok s _
    · exact dispatch s
  · split_ifs
    · exact raise s _
    · exact dispatch s

theorem vloopRow : EngineFrame s (vloopRow s) := by
  unfold Machine.vloopRow
  split
  · exact refl s
  · split_ifs
    · exact ((setVec s _).trans (writeOut _ _ _)).trans (advance _ _ _)
    · exact setPhase s _
  · split_ifs
    · unfold vectorDecodeChunk
      simp only
      split_ifs
      · exact (setVec s _).trans (decRaise _ _)
      · exact ((setVec s _).trans (storeSubLanes _ _ _ _)).trans (advance _ _ _)
    · exact setPhase s _
  · exact refl s
  · exact refl s

theorem sloopRow : EngineFrame s (sloopRow s) := by
  unfold Machine.sloopRow
  split
  · split_ifs
    · exact (writeOut s _ _).trans (advance _ _ _)
    · exact setPhase s _
  · split_ifs
    · unfold scalarDecodeStep
      simp only
      split_ifs
      · exact (setAcc s _).trans (decRaise _ _)
      · exact (setAcc s _).trans (storeEight _ _)
    · exact setPhase s _
  · exact refl s
  · exact refl s

theorem encodeTail : EngineFrame s (encodeTail s) := by
  have hg : EngineFrame s (encodeTailGroup s) := by
    unfold encodeTailGroup
    simp only
    split_ifs
    · exact (writeOut s _ _).trans (advance _ _ _)
    · exact refl s
  have hr : ∀ s, EngineFrame s (encodeTailRem s) := by
    intro s
    unfold encodeTailRem
    simp only
    split_ifs
    · exact (writeOut s _ _).trans (advance _ _ _)
    · exact (writeOut s _ _).trans (advance _ _ _)
    · exact refl s
  exact (hg.trans (hr _)).trans (ok _ _)

theorem decodeTailRem : EngineFrame s (decodeTailRem s) := by
  unfold Machine.decodeTailRem
  simp only
  split_ifs
  · exact decOk s
  · exact decRaise s _
  · split
    · exact decRaise s _
    · exact (emit s _ _).trans (decOk _)
  · split
    · exact decRaise s _
    · exact (emit s _ _).trans (decOk _)

theorem decodeTail : ∀ (fuel : Nat) (s : State), EngineFrame s (decodeTail fuel s)
  | 0, s => decodeTailRem s
  | fuel + 1, s => by
    unfold Machine.decodeTail
    simp only
    split_ifs
    · split
      · exact decRaise s _
      · split
        · exact (emit s _ _).trans (decRaise _ _)
        · exact (emit s _ _).trans (decOk _)
    · split
      · exact decRaise s _
      · exact (emit s _ _).trans (decodeTail fuel _)
    · exact decodeTailRem s

theorem tailRow : EngineFrame s (tailRow s) := by
  unfold Machine.tailRow
  split
  · exact encodeTail s
  · exact decodeTail _ s
  · exact refl s
  · exact refl s

theorem engineRow : EngineFrame s (engineRow s) := by
  unfold Machine.engineRow
  split
  · exact refl s
  · exact refl s
  · exact checkRow s
  · exact vloopRow s
  · exact sloopRow s
  · exact tailRow s

theorem engineStep : EngineFrame s (engineStep s) := by
  unfold Machine.engineStep
  split_ifs
  · exact (engineRow s).trans (nextDraw _)
  · exact refl s

theorem runEngine : ∀ (fuel : Nat) (s : State), EngineFrame s (runEngine fuel s)
  | 0, s => refl s
  | fuel + 1, s => by
    unfold Machine.runEngine
    split_ifs
    · exact (engineStep s).trans (runEngine fuel _)
    · exact refl s

theorem complete : EngineFrame s s.complete := runEngine _ _

end EngineFrame

theorem EngineFrame.input {s t : State} (h : EngineFrame s t) (n : Nat) : t.input n = s.input n := by
  simp only [State.input, State.inCell_congr h.inMem h.epoch]

theorem EngineFrame.required {s t : State} (h : EngineFrame s t) : t.required = s.required := by
  simp only [State.required, h.lOp, h.lPad, h.lN]

/-! ### Runs -/

/-- A property that every step of an operation keeps, with a measure that every step lowers, holds when the engine
has stopped, and enough fuel makes it stop (70_reset_and_hazards.md R296). -/
theorem runEngine_reaches {P : State → Prop} {μ : State → Nat}
    (hstep : ∀ s, P s → s.busy = true → P (engineStep s) ∧ μ (engineStep s) < μ s) :
    ∀ (fuel : Nat) (s : State), P s → μ s ≤ fuel → P (runEngine fuel s) ∧ (runEngine fuel s).busy = false
  | 0, s, hs, hf => by
    refine ⟨hs, ?_⟩
    cases hb : s.busy
    · exact hb
    · have := (hstep s hs hb).2
      omega
  | fuel + 1, s, hs, hf => by
    unfold runEngine
    cases hb : s.busy
    · simpa [hb] using hs
    · obtain ⟨h1, h2⟩ := hstep s hs hb
      simpa using runEngine_reaches hstep fuel _ h1 (by omega)

/-! ### The stores of the scalar decode fast step (R171) -/

section StoreEight

variable (s : State) (v : List Byte)

@[simp] theorem storeEight_phase : (storeEight s v).phase = s.phase := rfl
@[simp] theorem storeEight_tier : (storeEight s v).tier = s.tier := rfl
@[simp] theorem storeEight_ipos : (storeEight s v).ipos = s.ipos + 8 := rfl
@[simp] theorem storeEight_opos : (storeEight s v).opos = s.opos + 6 := rfl
@[simp] theorem storeEight_lN : (storeEight s v).lN = s.lN := rfl
@[simp] theorem storeEight_acc : (storeEight s v).acc = s.acc := rfl
@[simp] theorem storeEight_err : (storeEight s v).err = s.err := rfl
@[simp] theorem storeEight_rlen : (storeEight s v).rlen = s.rlen := rfl

/-- Six result bytes at OPOS and one byte of garbage after them; the rest of OUT is unchanged. -/
theorem storeEight_outCell :
    (∀ i < 6, (storeEight s v).outCell (s.opos + i)
      = (join4 (sextet (v.getD 0 0#8)) (sextet (v.getD 1 0#8)) (sextet (v.getD 2 0#8)) (sextet (v.getD 3 0#8))
        ++ join4 (sextet (v.getD 4 0#8)) (sextet (v.getD 5 0#8)) (sextet (v.getD 6 0#8))
          (sextet (v.getD 7 0#8))).getD i 0#8) ∧
      ∀ x, x < s.opos ∨ s.opos + 7 ≤ x → (storeEight s v).outCell x = s.outCell x := by
  unfold storeEight
  simp only [State.advance_outCell]
  constructor
  · intro i hi
    by_cases h3 : i < 3
    · rw [State.outCell_writeOut_outside _ (.inl (by omega)), State.outCell_writeOut,
        if_pos (by simp [join4]; omega), show s.opos + i - s.opos = i by omega]
      interval_cases i <;> rfl
    · rw [State.outCell_writeOut, if_pos (by simp [join4]; omega), show s.opos + i - (s.opos + 3) = i - 3 by omega]
      interval_cases i <;> first | omega | rfl
  · intro x hx
    rw [State.outCell_writeOut_outside _ (by simp [join4]; omega),
      State.outCell_writeOut_outside _ (by simp [join4]; omega)]

end StoreEight

/-- The scalar decode fast step, in terms of its set of lookups (R150, R171). -/
theorem scalarDecodeStep_eq (s : State) :
    scalarDecodeStep s
      = if bad ((s.readIn s.ipos 8).map (dt s.cfg.invalid s.lUrl)) then
          (s.setAcc (orAll ((s.readIn s.ipos 8).map (dt s.cfg.invalid s.lUrl)))).decRaise .invalidCharacter
        else storeEight (s.setAcc (orAll ((s.readIn s.ipos 8).map (dt s.cfg.invalid s.lUrl))))
          ((s.readIn s.ipos 8).map (dt s.cfg.invalid s.lUrl)) := by
  unfold scalarDecodeStep bad
  by_cases h : orAll ((s.readIn s.ipos 8).map (dt s.cfg.invalid s.lUrl)) &&& 0xC0#8 ≠ 0#8
  · exact (if_pos h).trans (if_pos (decide_eq_true h)).symm
  · exact (if_neg h).trans (if_neg (fun hd => h (of_decide_eq_true hd))).symm

/-! ### TIER (43_dispatcher.md R222) -/

@[simp] theorem storeSubLanes_tier : ∀ (k : Nat) (s : State) (o : Nat) (w : List Byte),
    (storeSubLanes s o k w).tier = s.tier
  | 0, _, _, _ => rfl
  | k + 1, _, _, _ => storeSubLanes_tier k _ _ _

theorem encodeTailGroup_tier (s : State) : (encodeTailGroup s).tier = s.tier := by
  unfold encodeTailGroup
  split_ifs <;> rfl

theorem encodeTailRem_tier (s : State) : (encodeTailRem s).tier = s.tier := by
  unfold encodeTailRem
  split_ifs <;> rfl

theorem encodeTail_tier (s : State) : (encodeTail s).tier = s.tier :=
  (encodeTailRem_tier _).trans (encodeTailGroup_tier s)

theorem decodeTailRem_tier (s : State) : (decodeTailRem s).tier = s.tier := by
  unfold decodeTailRem
  simp only
  split_ifs
  · rfl
  · rfl
  · split <;> rfl
  · split <;> rfl

theorem decodeTail_tier : ∀ (fuel : Nat) (s : State), (decodeTail fuel s).tier = s.tier
  | 0, s => decodeTailRem_tier s
  | fuel + 1, s => by
    unfold decodeTail
    simp only
    split_ifs
    · split
      · rfl
      · split <;> rfl
    · split
      · rfl
      · exact decodeTail_tier fuel _
    · exact decodeTailRem_tier s

/-! ### Input and output of a step -/

@[simp] theorem State.input_length (s : State) (n : Nat) : (s.input n).length = n := by simp [State.input]
@[simp] theorem State.output_length (s : State) (n : Nat) : (s.output n).length = n := by simp [State.output]
@[simp] theorem State.readIn_length (s : State) (a k : Nat) : (s.readIn a k).length = k := by simp [State.readIn]

/-- Without host writes while BUSY, the bytes a step reads are those of the input (R12, R59). -/
theorem State.readIn_quiet {s : State} (h : s.inRace = []) {n a k : Nat} (hk : a + k ≤ n) :
    s.readIn a k = ((s.input n).drop a).take k := by
  apply List.ext_getElem
  · simp; omega
  · intro i h1 h2
    simp [State.readIn, State.input, State.inByte_quiet h]

/-- The bytes of the input from a position on, one at a time. -/
theorem State.input_drop {s : State} {n a : Nat} (h : a < n) :
    (s.input n).drop a = s.inCell a :: (s.input n).drop (a + 1) := by
  rw [List.drop_eq_getElem_cons (by simpa using h)]
  simp [State.input]

theorem State.output_congr {s t : State} {k : Nat} (h : ∀ x < k, s.outCell x = t.outCell x) :
    s.output k = t.output k := by
  simp only [State.output]
  exact List.map_congr_left fun x hx => h x (by simpa using hx)

/-- A write at the end of the output so far appends its bytes (20_memory.md R63). -/
theorem State.output_append {s t : State} {o : Nat} {w : List Byte}
    (hlow : ∀ x < o, t.outCell x = s.outCell x) (hw : ∀ i < w.length, t.outCell (o + i) = w.getD i 0#8) :
    t.output (o + w.length) = s.output o ++ w := by
  apply List.ext_getElem
  · simp
  · intro i h1 h2
    simp only [State.output, List.getElem_map, List.getElem_range]
    by_cases hi : i < o
    · rw [List.getElem_append_left (by simpa using hi), hlow i hi]
      simp
    · simp only [State.output_length] at h1
      have hlt : i - o < w.length := by omega
      rw [List.getElem_append_right (by simpa using Nat.le_of_not_lt hi)]
      have := hw (i - o) hlt
      rw [show o + (i - o) = i by omega, List.getD_eq_getElem?_getD, List.getElem?_eq_getElem hlt] at this
      simpa using this

theorem State.output_writeOut (s : State) (o : Nat) (w : List Byte) :
    (s.writeOut o w).output (o + w.length) = s.output o ++ w := by
  apply State.output_append
  · intro x hx
    exact State.outCell_writeOut_outside s (.inl hx)
  · intro i hi
    rw [State.outCell_writeOut, if_pos (by omega)]
    simp

end Sys2Proof.Machine
end

