-- ==== Sys2Proof/Laws/Encode.lean ====
section
/-! SUPPORT. An ENC run from its launch to its completion: every step keeps the output so far equal to the encoding
of the input so far (43_dispatcher.md R227), and the run ends as 40_engine_ops.md R120 says. -/

namespace Sys2Proof.Machine

/-- How many engine steps an operation still takes at most; `u` is the number of input bytes a scalar step takes
(70_reset_and_hazards.md R296). -/
def stepsLeft (u : Nat) (s : State) : Nat :=
  match s.phase with
  | .idle => 0
  | .done => 0
  | .tail => 1
  | .sloop => (s.lN - s.ipos) / u + 2
  | .vloop => (s.lN - s.ipos) / u + 3
  | .check => (s.lN - s.ipos) / u + 4

/-- What holds at every step boundary of an ENC launched as `s0` (R227). -/
structure EncRun (s0 s : State) : Prop where
  frame : EngineFrame s0 s
  beyond : ∀ x, encodedLen s0.lPad s0.lN ≤ x → s.outCell x = s0.outCell x
  notIdle : s.phase ≠ .idle
  check : s.phase = .check → s.ipos = 0 ∧ s.opos = 0 ∧ s.outMem = s0.outMem
  vloop : s.phase = .vloop → s.tier ≠ .scalar
  room : s.phase.kernel = true → encodedLen s0.lPad s0.lN ≤ s0.lCap
  aligned : s.phase.kernel = true → s.ipos % 3 = 0 ∧ s.ipos ≤ s0.lN
  output : s.phase.kernel = true →
    s.output s.opos = encRef s0.lUrl s0.lPad ((s0.input s0.lN).take s.ipos)
  tail : s.phase = .tail → s0.lN < s.ipos + 6
  short : s.phase = .done → s0.lCap < encodedLen s0.lPad s0.lN →
    s.err = some .bufferTooSmall ∧ s.rlen = 0 ∧ s.outMem = s0.outMem
  done : s.phase = .done → encodedLen s0.lPad s0.lN ≤ s0.lCap →
    s.err = none ∧ s.rlen = encodedLen s0.lPad s0.lN ∧ s.ipos = s0.lN ∧ s.opos = encodedLen s0.lPad s0.lN ∧
      s.output (encodedLen s0.lPad s0.lN) = encRef s0.lUrl s0.lPad (s0.input s0.lN)

theorem EncRun.opos_eq {s0 s : State} (h : EncRun s0 s) (hk : s.phase.kernel = true) :
    3 * s.opos = 4 * s.ipos := by
  have h1 := congrArg List.length (h.output hk)
  obtain ⟨ha, hb⟩ := h.aligned hk
  have hl : ((s0.input s0.lN).take s.ipos).length = s.ipos := by simp; omega
  have h2 := (encRef_whole s0.lUrl s0.lPad s0.lPad ((s0.input s0.lN).take s.ipos) (by omega)).2
  simp only [State.output_length] at h1
  omega

/-- The encoding of a longer part of the input. -/
theorem encRef_take_add (url pad : Bool) (I : List Byte) {a : Nat} (k : Nat) (ha : a % 3 = 0) (hl : a ≤ I.length) :
    encRef url pad (I.take (a + k)) = encRef url pad (I.take a) ++ encRef url pad ((I.drop a).take k) := by
  rw [List.take_add, encRef_append]
  simp; omega

/-- Bytes written at the end of the output so far stay below the encoded length. -/
theorem encodedLen_prefix (pad : Bool) (I : List Byte) (url : Bool) {a o k n : Nat} (hn : I.length = n)
    (ha : a % 3 = 0) (hk : a + k ≤ n) (ho : 3 * o = 4 * a) :
    o + (encRef url pad ((I.drop a).take k)).length ≤ encodedLen pad n := by
  rw [encRef_length]
  have : ((I.drop a).take k).length = k := by simp; omega
  rw [this]
  cases pad <;> simp only [encodedLen] <;> simp <;> omega

/-- A step that writes the encoding of the next `k` input bytes and advances past them. -/
theorem EncRun.write {s0 s : State} (h : EncRun s0 s) (hk : s.phase.kernel = true) {k : Nat}
    (hn : s.ipos + k ≤ s0.lN) {t : State}
    (ht : t.outCell = (s.writeOut s.opos (encRef s0.lUrl s0.lPad (((s0.input s0.lN).drop s.ipos).take k))).outCell) :
    (∀ x, encodedLen s0.lPad s0.lN ≤ x → t.outCell x = s0.outCell x) ∧
      t.output (s.opos + (encRef s0.lUrl s0.lPad (((s0.input s0.lN).drop s.ipos).take k)).length)
        = encRef s0.lUrl s0.lPad ((s0.input s0.lN).take (s.ipos + k)) := by
  obtain ⟨ha, hb⟩ := h.aligned hk
  constructor
  · intro x hx
    have := encodedLen_prefix s0.lPad (s0.input s0.lN) s0.lUrl (by simp) ha hn (h.opos_eq hk)
    rw [ht, State.outCell_writeOut_outside _ (.inr (by omega)), h.beyond x hx]
  · rw [encRef_take_add _ _ _ k ha (by simpa using hb), ← h.output hk, ← State.output_writeOut]
    exact State.output_congr fun x _ => by rw [ht]

theorem Phase.kernel_cases {p : Phase} (h : p.kernel = true) : p = .vloop ∨ p = .sloop ∨ p = .tail := by
  cases p <;> simp [Phase.kernel] at h ⊢

/-- A step that stays in the kernels. -/
theorem EncRun.ofKernel {s0 t : State} (hk : t.phase.kernel = true) (frame : EngineFrame s0 t)
    (beyond : ∀ x, encodedLen s0.lPad s0.lN ≤ x → t.outCell x = s0.outCell x)
    (vloop : t.phase = .vloop → t.tier ≠ .scalar) (room : encodedLen s0.lPad s0.lN ≤ s0.lCap)
    (aligned : t.ipos % 3 = 0 ∧ t.ipos ≤ s0.lN)
    (output : t.output t.opos = encRef s0.lUrl s0.lPad ((s0.input s0.lN).take t.ipos))
    (tail : t.phase = .tail → s0.lN < t.ipos + 6) : EncRun s0 t where
  frame := frame
  beyond := beyond
  notIdle := by intro h; simp [h, Phase.kernel] at hk
  check := by intro h; simp [h, Phase.kernel] at hk
  vloop := vloop
  room := fun _ => room
  aligned := fun _ => aligned
  output := fun _ => output
  tail := tail
  short := by intro h; simp [h, Phase.kernel] at hk
  done := by intro h; simp [h, Phase.kernel] at hk

theorem EncRun.nextDraw {s0 s : State} (h : EncRun s0 s) : EncRun s0 s.nextDraw :=
  ⟨h.frame.trans (.nextDraw s), h.beyond, h.notIdle, h.check, h.vloop, h.room, h.aligned, h.output, h.tail, h.short,
    h.done⟩

/-- The phase moves on, nothing else. -/
theorem EncRun.move {s0 s : State} (h : EncRun s0 s) (hk : s.phase.kernel = true) {p : Phase} (hp : p.kernel = true)
    (hv : p ≠ .vloop) (ht : p = .tail → s0.lN < s.ipos + 6) : EncRun s0 (s.setPhase p) :=
  .ofKernel hp (h.frame.trans (.setPhase s p)) h.beyond (fun hq => (hv hq).elim) (h.room hk) (h.aligned hk)
    (h.output hk) ht

/-- A step that writes the encoding of the next `k` bytes, `k` a multiple of three, keeps the run's invariant. -/
theorem EncRun.chunk {s0 s : State} (h : EncRun s0 s) (hk : s.phase.kernel = true) {k o : Nat}
    (hk3 : k % 3 = 0) (hn : s.ipos + k ≤ s0.lN) (v : VecUnits) {w : List Byte} (ho : w.length = o)
    (hw : w = encRef s0.lUrl s0.lPad (((s0.input s0.lN).drop s.ipos).take k)) :
    EncRun s0 (((s.setVec v).writeOut s.opos w).advance k o) := by
  obtain ⟨h1, h2⟩ := h.write hk hn (t := ((s.setVec v).writeOut s.opos w).advance k o) (by rw [hw]; rfl)
  subst ho
  refine .ofKernel (by simpa using hk) ?_ h1 (by simpa using h.vloop) (h.room hk) ?_ ?_ ?_
  · exact h.frame.trans (((EngineFrame.setVec s v).trans (.writeOut _ _ _)).trans (.advance _ _ _))
  · obtain ⟨ha, hb⟩ := h.aligned hk
    simp
    omega
  · subst hw; exact h2
  · intro ht
    have := h.tail (by simpa using ht)
    simp
    omega

/-! ### The bytes a step reads -/

/-- Without host writes while BUSY, a byte a step reads is the input's byte (R12). -/
theorem EncRun.reads {s0 s : State} (h : EncRun s0 s) (hq : s0.inRace = []) (a : Nat) : s.inByte a = s0.inCell a := by
  rw [State.inByte_quiet (h.frame.inRace.trans hq), State.inCell_congr h.frame.inMem h.frame.epoch]

theorem State.input_take1 {s : State} {n a : Nat} (h : a + 1 ≤ n) : ((s.input n).drop a).take 1 = [s.inCell a] := by
  rw [State.input_drop (by omega)]; simp

theorem State.input_take2 {s : State} {n a : Nat} (h : a + 2 ≤ n) :
    ((s.input n).drop a).take 2 = [s.inCell a, s.inCell (a + 1)] := by
  rw [State.input_drop (by omega), State.input_drop (by omega)]; simp

theorem State.input_take3 {s : State} {n a : Nat} (h : a + 3 ≤ n) :
    ((s.input n).drop a).take 3 = [s.inCell a, s.inCell (a + 1), s.inCell (a + 2)] := by
  rw [State.input_drop (by omega), State.input_drop (by omega), State.input_drop (by omega)]; simp

theorem State.input_take6 {s : State} {n a : Nat} (h : a + 6 ≤ n) :
    ((s.input n).drop a).take 6 = [s.inCell a, s.inCell (a + 1), s.inCell (a + 2), s.inCell (a + 3), s.inCell (a + 4),
      s.inCell (a + 5)] := by
  rw [State.input_drop (by omega), State.input_drop (by omega), State.input_drop (by omega),
    State.input_drop (by omega), State.input_drop (by omega), State.input_drop (by omega)]
  simp

/-! ### The rows -/

theorem encChunk_result_length (url : Bool) (k : Nat) (g : Nat → Nat → Byte) (x : List Byte) (h : x.length = 12 * k) :
    (encChunk url k g x).result.length = 16 * k := by
  rw [encChunk_result url false k g x h, encRef_length, h]
  simp only [encodedLen]
  simp
  omega

theorem vloopRow_enc {s : State} (ht : s.tier ≠ .scalar) (hop : s.lOp = .enc) :
    vloopRow s = if s.ipos + s.tier.chunkIn ≤ s.lN then vectorEncodeChunk s else s.setPhase .sloop := by
  unfold vloopRow
  rw [hop]
  split <;> simp_all

theorem vloopRow_dec {s : State} (ht : s.tier ≠ .scalar) (hop : s.lOp = .dec) :
    vloopRow s = if s.ipos + s.tier.bytes + s.cfg.vdecMargin ≤ s.lN then vectorDecodeChunk s
      else s.setPhase .sloop := by
  unfold vloopRow
  rw [hop]
  split <;> simp_all

theorem EncRun.vloopRow {s0 s : State} (h : EncRun s0 s) (hop : s0.lOp = .enc) (hq : s0.inRace = [])
    (hp : s.phase = .vloop) :
    EncRun s0 (vloopRow s) ∧ stepsLeft 6 (vloopRow s) < stepsLeft 6 s := by
  have hk : s.phase.kernel = true := by rw [hp]; rfl
  have hlN := h.frame.lN
  have ht := h.vloop hp
  have hs : 1 ≤ s.tier.subs := by revert ht; cases s.tier <;> simp [Tier.subs]
  rw [vloopRow_enc ht (h.frame.lOp.trans hop)]
  split_ifs with hn
  · have hlen : (s.readIn s.ipos s.tier.chunkIn).length = 12 * s.tier.subs := by simp [Tier.chunkIn]
    constructor
    · refine h.chunk hk (by simp [Tier.chunkIn]; omega) (by omega) _ ?_ ?_
      · rw [encChunk_result_length _ _ _ _ hlen]; rfl
      · rw [encChunk_result _ s0.lPad _ _ _ hlen, h.frame.lUrl,
          State.readIn_quiet (h.frame.inRace.trans hq) (n := s0.lN) (by omega), h.frame.input]
    · simp only [stepsLeft, vectorEncodeChunk, State.advance_phase, State.writeOut_phase, State.setVec_phase, hp,
        State.advance_lN, State.writeOut_lN, State.setVec_lN, State.advance_ipos, State.writeOut_ipos, State.setVec_ipos,
        Tier.chunkIn] at hn ⊢
      omega
  · exact ⟨h.move hk rfl (by simp) (by simp), by simp [stepsLeft, hp]⟩

theorem EncRun.sloopRow {s0 s : State} (h : EncRun s0 s) (hop : s0.lOp = .enc) (hq : s0.inRace = [])
    (hp : s.phase = .sloop) :
    EncRun s0 (sloopRow s) ∧ stepsLeft 6 (sloopRow s) < stepsLeft 6 s := by
  have hk : s.phase.kernel = true := by rw [hp]; rfl
  have hlN := h.frame.lN
  unfold Machine.sloopRow
  rw [h.frame.lOp, hop]
  simp only
  split_ifs with hn
  · constructor
    · refine h.chunk (k := 6) hk (by omega) (by omega) s.vec (by simp) ?_
      rw [State.input_take6 (by omega)]
      simp [h.reads hq, h.frame.lUrl]
    · simp only [stepsLeft, scalarEncodeStep, State.advance_phase, State.writeOut_phase, hp, State.advance_lN,
        State.writeOut_lN, State.advance_ipos, State.writeOut_ipos] at hn ⊢
      omega
  · exact ⟨h.move hk rfl (by simp) (by omega), by simp [stepsLeft, hp]⟩

theorem EncRun.encodeTailGroup {s0 s : State} (h : EncRun s0 s) (hq : s0.inRace = []) (hp : s.phase = .tail) :
    EncRun s0 (encodeTailGroup s) ∧ (encodeTailGroup s).phase = .tail ∧ s0.lN < (encodeTailGroup s).ipos + 3 := by
  have hk : s.phase.kernel = true := by rw [hp]; rfl
  have hlN := h.frame.lN
  have ht := h.tail hp
  unfold Machine.encodeTailGroup
  simp only
  split_ifs with hn
  · refine ⟨?_, by simpa using hp, by simp; omega⟩
    refine h.chunk (k := 3) hk (by omega) (by omega) s.vec (by simp) ?_
    rw [State.input_take3 (by omega)]
    simp [h.reads hq, h.frame.lUrl]
  · exact ⟨h, hp, by omega⟩

/-- The last output and the completion. -/
theorem EncRun.finish {s0 s : State} (h : EncRun s0 s) (hk : s.phase.kernel = true) {t : State} {k : Nat}
    (hn : s.ipos + k = s0.lN) {w : List Byte}
    (hw : w = encRef s0.lUrl s0.lPad (((s0.input s0.lN).drop s.ipos).take k))
    (ht : t = (s.writeOut s.opos w).advance k w.length) : EncRun s0 (t.ok t.opos) := by
  obtain ⟨h1, h2⟩ := h.write hk (k := k) (by omega) (t := (s.writeOut s.opos w).advance k w.length) (by rw [hw]; rfl)
  rw [← hw, hn, List.take_of_length_le (by simp)] at h2
  have hlen : s.opos + w.length = encodedLen s0.lPad s0.lN := by
    have := congrArg List.length h2
    rw [encRef_length] at this
    simpa using this
  rw [hlen] at h2
  subst ht
  have hf := h.frame.trans (((EngineFrame.writeOut s s.opos w).trans (.advance _ k w.length)).trans (.ok _ (s.opos + w.length)))
  refine ⟨hf, h1, by simp, by simp, by simp, by simp [Phase.kernel], by simp [Phase.kernel], by simp [Phase.kernel],
    by simp, ?_, ?_⟩
  · intro _ hc
    have := h.room hk
    omega
  · intro _ _
    exact ⟨rfl, by simpa using hlen, by simpa using hn, by simpa using hlen, h2⟩

theorem EncRun.encodeTail {s0 s : State} (h : EncRun s0 s) (hq : s0.inRace = []) (hp : s.phase = .tail) :
    EncRun s0 (encodeTail s) := by
  obtain ⟨h', hp', hn'⟩ := h.encodeTailGroup hq hp
  unfold Machine.encodeTail
  set u := Machine.encodeTailGroup s
  have hk : u.phase.kernel = true := by rw [hp']; rfl
  have hlN := h'.frame.lN
  have hle := (h'.aligned hk).2
  simp only
  unfold encodeTailRem
  simp only
  split_ifs with h1 h2
  · refine h'.finish hk (k := 1) (by omega) ?_ rfl
    rw [State.input_take1 (by omega), h'.reads hq, h'.frame.lUrl, h'.frame.lPad]
    simp [encRef]
  · refine h'.finish hk (k := 2) (by omega) ?_ rfl
    rw [State.input_take2 (by omega), h'.reads hq, h'.reads hq, h'.frame.lUrl, h'.frame.lPad]
    simp [encRef]
  · exact h'.finish hk (k := 0) (w := []) (by omega) (by simp) rfl

theorem EncRun.checkRow {s0 s : State} (h : EncRun s0 s) (hop : s0.lOp = .enc) (hp : s.phase = .check) :
    EncRun s0 (checkRow s) ∧ stepsLeft 6 (checkRow s) < stepsLeft 6 s := by
  obtain ⟨hi, ho, hm⟩ := h.check hp
  have hlN := h.frame.lN
  have hreq : s.required = encodedLen s0.lPad s0.lN := by
    rw [h.frame.required, State.required, hop]
  unfold Machine.checkRow
  rw [h.frame.lOp, hop, hreq, h.frame.lCap, hlN]
  simp only
  split_ifs with hc hn
  · refine ⟨⟨h.frame.trans (.raise s _), h.beyond, by simp, by simp, by simp, by simp [Phase.kernel],
      by simp [Phase.kernel], by simp [Phase.kernel], by simp, ?_, ?_⟩, by simp [stepsLeft, hp]⟩
    · intro _ _; exact ⟨rfl, rfl, hm⟩
    · intro _ hle; omega
  · have hz : encodedLen s0.lPad 0 = 0 := by cases s0.lPad <;> rfl
    refine ⟨⟨h.frame.trans (.ok s _), h.beyond, by simp, by simp, by simp, by simp [Phase.kernel],
      by simp [Phase.kernel], by simp [Phase.kernel], by simp, ?_, ?_⟩, by simp [stepsLeft, hp]⟩
    · intro _ hlt; omega
    · intro _ _
      simp [hn, hz, hi, ho, State.output, State.input]
  · have hd : s.dispatch.phase.kernel = true := by
      simp only [State.dispatch, State.setPhase_phase]; split_ifs <;> rfl
    refine ⟨.ofKernel hd (h.frame.trans (.dispatch s)) h.beyond ?_ (by omega) ?_ ?_ ?_, ?_⟩
    · simp only [State.dispatch, State.setPhase_phase, State.setPhase_tier, State.setTier_tier]
      split_ifs with ht <;> simp [ht]
    · show s.ipos % 3 = 0 ∧ s.ipos ≤ s0.lN
      omega
    · show s.output s.opos = encRef s0.lUrl s0.lPad ((s0.input s0.lN).take s.ipos)
      simp [hi, ho, State.output]
    · simp only [State.dispatch, State.setPhase_phase]
      split_ifs <;> simp
    · simp only [stepsLeft, State.dispatch, State.setPhase_phase, State.setPhase_ipos, State.setTier_ipos,
        State.setPhase_lN, State.setTier_lN, hp]
      split_ifs <;> simp

/-- Every step of an ENC keeps the run's invariant and lowers the number of steps left (R227, R296). -/
theorem EncRun.step {s0 s : State} (h : EncRun s0 s) (hop : s0.lOp = .enc) (hq : s0.inRace = [])
    (hb : s.busy = true) : EncRun s0 (engineStep s) ∧ stepsLeft 6 (engineStep s) < stepsLeft 6 s := by
  unfold engineStep
  rw [if_pos hb]
  suffices hrow : EncRun s0 (engineRow s) ∧ stepsLeft 6 (engineRow s) < stepsLeft 6 s from
    ⟨hrow.1.nextDraw, hrow.2⟩
  unfold engineRow
  split
  · next hp => exact (h.notIdle hp).elim
  · next hp => simp [State.busy, hp, Phase.busy, Phase.stateCode] at hb
  · next hp => exact h.checkRow hop hp
  · next hp => exact h.vloopRow hop hq hp
  · next hp => exact h.sloopRow hop hq hp
  · next hp =>
    have hop' : s.lOp = .enc := h.frame.lOp.trans hop
    simp only [tailRow, hop']
    exact ⟨h.encodeTail hq hp, by simp [stepsLeft, hp, Machine.encodeTail]⟩

/-! ### The whole operation -/

/-- The launched state starts a run. -/
theorem EncRun.start {s0 : State} (hp : s0.phase = .check) (hi : s0.ipos = 0) (ho : s0.opos = 0) : EncRun s0 s0 := by
  refine ⟨.refl s0, fun _ _ => rfl, ?_, fun _ => ⟨hi, ho, rfl⟩, ?_, ?_, ?_, ?_, ?_, ?_, ?_⟩ <;>
    simp [hp, Phase.kernel]

/-- An ENC ends, as 40_engine_ops.md R120 to R123 say. -/
theorem EncRun.complete {s0 : State} (hp : s0.phase = .check) (hi : s0.ipos = 0) (ho : s0.opos = 0)
    (hop : s0.lOp = .enc) (hq : s0.inRace = []) : EncRun s0 s0.complete ∧ s0.complete.phase = .done := by
  have := runEngine_reaches (P := EncRun s0) (μ := stepsLeft 6) (fun s h hb => h.step hop hq hb)
    (stepBound s0.lOp s0.lN) s0 (.start hp hi ho) (by simp [stepsLeft, hp, stepBound, hop]; omega)
  refine ⟨this.1, ?_⟩
  have hidle := this.1.notIdle
  have hb := this.2
  unfold State.complete
  generalize runEngine (stepBound s0.lOp s0.lN) s0 = t at hidle hb
  cases ht : t.phase <;> simp_all [State.busy, Phase.busy, Phase.stateCode]

end Sys2Proof.Machine
end

