-- ==== Sys2Proof/Laws/Decode.lean ====
section
/-! SUPPORT. A DEC run from its launch to its completion: every step keeps the output so far equal to the strict
decoding of the input so far (43_dispatcher.md R227), and the run ends as DEC_REF says (41_scalar_kernel.md R160;
40_engine_ops.md R125 to R127). -/

namespace Sys2Proof.Machine

/-! ### The tail window and strict decoding of a prefix (R155) -/

theorem tailStart_le (n : Nat) : tailStart n ≤ n := by unfold tailStart; split_ifs <;> omega

theorem tailStart_mod (n : Nat) : tailStart n % 8 = 0 := by unfold tailStart; split_ifs <;> omega

theorem le_tailStart {a n : Nat} (ha : a % 8 = 0) (hn : a + 4 ≤ n) : a ≤ tailStart n := by
  unfold tailStart; split_ifs <;> omega

theorem eq_tailStart {a n : Nat} (ha : a % 8 = 0) (hle : a ≤ tailStart n) (hn : n < a + 12) : a = tailStart n := by
  unfold tailStart at *; split_ifs at * <;> omega

theorem estimate_room {a n : Nat} (hn : a + 4 ≤ n) : 3 * (a / 4) + 6 ≤ estimateDecodedLen n := by
  unfold estimateDecodedLen; omega

/-- Strict decoding of a longer part of the input. -/
theorem decBulk_take_add (p : Params) (url : Bool) (I : List Byte) {a : Nat} (k : Nat) (ha : a % 4 = 0)
    (hl : a ≤ I.length) : decBulk p url (I.take (a + k))
      = (decBulk p url (I.take a)).bind fun x => (decBulk p url ((I.drop a).take k)).bind fun y => .ok (x ++ y) := by
  rw [List.take_add, decBulk_append]
  simp; omega

/-- A failure in a part of the strict prefix is a failure of the whole (R160). -/
theorem decRef_of_bulk_error {p : Params} {url pad : Bool} {I : List Byte} {a k : Nat} {out : List Byte}
    (ha : a % 8 = 0) (hk : k % 8 = 0) (hle : a + k ≤ tailStart I.length)
    (hpre : decBulk p url (I.take a) = .ok out)
    (herr : decBulk p url ((I.drop a).take k) = .error .invalidCharacter) :
    decRef p url pad I = .error .invalidCharacter := by
  have hlen := tailStart_le I.length
  have h1 : decBulk p url (I.take (a + k)) = .error .invalidCharacter := by
    rw [decBulk_take_add p url I k (by omega) (by omega), hpre, herr]; rfl
  have h2 : decBulk p url (I.take (tailStart I.length)) = .error .invalidCharacter := by
    rw [show tailStart I.length = (a + k) + (tailStart I.length - (a + k)) by omega,
      decBulk_take_add p url I _ (by omega) (by omega), h1]; rfl
  rw [decRef, decRefAt, h2]; rfl

/-! ### How a DEC ends -/

@[simp] theorem State.decOk_phase (s : State) : s.decOk.phase = .done := rfl
@[simp] theorem State.decRaise_phase (s : State) (e : ErrorKind) : (s.decRaise e).phase = .done := rfl

/-- The completion a result of DEC_REF stands for: Ok with the bytes, or an error (R126, R160). -/
def EndsAs (r : Except ErrorKind (List Byte)) (t : State) : Prop :=
  match r with
  | .ok out => t.err = none ∧ t.rlen = out.length ∧ t.opos = t.rlen ∧ t.output out.length = out
  | .error e => t.err = some e ∧ t.rlen = 0

/-- What holds at every step boundary of a DEC launched as `s0` (R227). -/
structure DecRun (s0 s : State) : Prop where
  frame : EngineFrame s0 s
  beyond : ∀ x, estimateDecodedLen s0.lN ≤ x → s.outCell x = s0.outCell x
  notIdle : s.phase ≠ .idle
  check : s.phase = .check → s.ipos = 0 ∧ s.opos = 0 ∧ s.outMem = s0.outMem
  vloop : s.phase = .vloop → s.tier ≠ .scalar
  room : s.phase.kernel = true → estimateDecodedLen s0.lN ≤ s0.lCap
  aligned : s.phase.kernel = true → s.ipos % 8 = 0 ∧ s.ipos ≤ tailStart s0.lN
  output : s.phase.kernel = true →
    decBulk s0.cfg s0.lUrl ((s0.input s0.lN).take s.ipos) = .ok (s.output s.opos)
  tail : s.phase = .tail → s.ipos = tailStart s0.lN
  short : s.phase = .done → s0.lCap < estimateDecodedLen s0.lN →
    s.err = some .bufferTooSmall ∧ s.rlen = 0 ∧ s.outMem = s0.outMem
  done : s.phase = .done → estimateDecodedLen s0.lN ≤ s0.lCap →
    EndsAs (decRef s0.cfg s0.lUrl s0.lPad (s0.input s0.lN)) s

theorem DecRun.nextDraw {s0 s : State} (h : DecRun s0 s) : DecRun s0 s.nextDraw :=
  ⟨h.frame.trans (.nextDraw s), h.beyond, h.notIdle, h.check, h.vloop, h.room, h.aligned, h.output, h.tail, h.short,
    h.done⟩

/-- A step that stays in the kernels. -/
theorem DecRun.ofKernel {s0 t : State} (hk : t.phase.kernel = true) (frame : EngineFrame s0 t)
    (beyond : ∀ x, estimateDecodedLen s0.lN ≤ x → t.outCell x = s0.outCell x)
    (vloop : t.phase = .vloop → t.tier ≠ .scalar) (room : estimateDecodedLen s0.lN ≤ s0.lCap)
    (aligned : t.ipos % 8 = 0 ∧ t.ipos ≤ tailStart s0.lN)
    (output : decBulk s0.cfg s0.lUrl ((s0.input s0.lN).take t.ipos) = .ok (t.output t.opos))
    (tail : t.phase = .tail → t.ipos = tailStart s0.lN) : DecRun s0 t where
  frame := frame
  beyond := beyond
  notIdle := by intro h; simp [h, Phase.kernel] at hk
  check := by intro h; simp [h, Phase.kernel] at hk
  vloop := vloop
  room := fun _ => room
  aligned := fun _ => aligned
  output := fun _ => output
  tail := tail
  short := by intro h; simp [h, Phase.kernel] at hk
  done := by intro h; simp [h, Phase.kernel] at hk

/-- A step that ends the operation, with room. -/
theorem DecRun.ofDone {s0 t : State} (hp : t.phase = .done) (frame : EngineFrame s0 t)
    (beyond : ∀ x, estimateDecodedLen s0.lN ≤ x → t.outCell x = s0.outCell x)
    (room : estimateDecodedLen s0.lN ≤ s0.lCap)
    (ends : EndsAs (decRef s0.cfg s0.lUrl s0.lPad (s0.input s0.lN)) t) : DecRun s0 t where
  frame := frame
  beyond := beyond
  notIdle := by simp [hp]
  check := by simp [hp]
  vloop := by simp [hp]
  room := by simp [hp, Phase.kernel]
  aligned := by simp [hp, Phase.kernel]
  output := by simp [hp, Phase.kernel]
  tail := by simp [hp]
  short := fun _ hlt => by omega
  done := fun _ _ => ends

theorem DecRun.opos_eq {s0 s : State} (h : DecRun s0 s) (hk : s.phase.kernel = true) : 4 * s.opos = 3 * s.ipos := by
  obtain ⟨ha, hb⟩ := h.aligned hk
  have hle := tailStart_le s0.lN
  have hl : ((s0.input s0.lN).take s.ipos).length = s.ipos := by simp; omega
  rcases decBulk_cases s0.cfg s0.lUrl ((s0.input s0.lN).take s.ipos) (by omega) with h1 | ⟨out, h1, h2⟩ <;>
    rw [h.output hk] at h1
  · cases h1
  · injection h1 with h1
    rw [← h1] at h2
    simp only [State.output_length] at h2
    omega

/-- The phase moves on, nothing else. -/
theorem DecRun.move {s0 s : State} (h : DecRun s0 s) (hk : s.phase.kernel = true) {p : Phase} (hp : p.kernel = true)
    (hv : p ≠ .vloop) (ht : p = .tail → s.ipos = tailStart s0.lN) : DecRun s0 (s.setPhase p) :=
  .ofKernel hp (h.frame.trans (.setPhase s p)) h.beyond (fun hq => (hv hq).elim) (h.room hk) (h.aligned hk)
    (h.output hk) ht

/-- The completion with an error found by a kernel (R257). -/
theorem decRaise_ends {s0 s : State} (hf : EngineFrame s0 s)
    (hb : ∀ x, estimateDecodedLen s0.lN ≤ x → s.outCell x = s0.outCell x)
    (hroom : estimateDecodedLen s0.lN ≤ s0.lCap) {e : ErrorKind}
    (hr : decRef s0.cfg s0.lUrl s0.lPad (s0.input s0.lN) = .error e) : DecRun s0 (s.decRaise e) := by
  refine .ofDone rfl (hf.trans (.decRaise s e)) ?_ hroom (by rw [hr]; exact ⟨rfl, rfl⟩)
  intro x hx
  rw [← hb x hx]
  show (s.freeOut 0 _).outCell x = _
  exact State.outCell_freeOut_outside s (.inr (by rw [hf.lN]; omega))

/-- The successful completion (R126). -/
theorem decOk_ends {s0 s : State} (hf : EngineFrame s0 s)
    (hb : ∀ x, estimateDecodedLen s0.lN ≤ x → s.outCell x = s0.outCell x)
    (hroom : estimateDecodedLen s0.lN ≤ s0.lCap) (ho : s.opos ≤ estimateDecodedLen s0.lN)
    (hr : decRef s0.cfg s0.lUrl s0.lPad (s0.input s0.lN) = .ok (s.output s.opos)) : DecRun s0 s.decOk := by
  refine .ofDone rfl (hf.trans (.decOk s)) ?_ hroom ?_
  · intro x hx
    rw [← hb x hx]
    show (s.freeOut _ _).outCell x = _
    exact State.outCell_freeOut_outside s (.inr (by rw [hf.lN]; omega))
  · rw [hr]
    refine ⟨rfl, by simp [State.decOk], rfl, ?_⟩
    simp only [State.output_length]
    apply State.output_congr
    intro x hx
    show (s.freeOut _ _).outCell x = _
    exact State.outCell_freeOut_outside s (.inl hx)

/-! ### The fast steps -/

/-- Without host writes while BUSY, a byte a step reads is the input's byte (R12). -/
theorem DecRun.reads {s0 s : State} (h : DecRun s0 s) (hq : s0.inRace = []) (a : Nat) : s.inByte a = s0.inCell a := by
  rw [State.inByte_quiet (h.frame.inRace.trans hq), State.inCell_congr h.frame.inMem h.frame.epoch]

/-- A step that stores the strict decoding of the next `k` characters, with garbage after it inside the estimate. -/
theorem DecRun.chunk {s0 s : State} (h : DecRun s0 s) (hk : s.phase.kernel = true) (ht : s.phase ≠ .tail) {k o : Nat}
    (hk8 : k % 8 = 0) (hn : s.ipos + k + 4 ≤ s0.lN) {t : State} (hf : EngineFrame s t) (hph : t.phase = s.phase)
    (hti : t.tier = s.tier) (hi : t.ipos = s.ipos + k) (hot : t.opos = s.opos + o) {w : List Byte}
    (hw : decBulk s0.cfg s0.lUrl (((s0.input s0.lN).drop s.ipos).take k) = .ok w) (ho : w.length = o)
    (hlow : ∀ x < s.opos, t.outCell x = s.outCell x) (hmid : ∀ i < o, t.outCell (s.opos + i) = w.getD i 0#8)
    (hhigh : ∀ x, s.opos + o + 6 ≤ x → t.outCell x = s.outCell x) : DecRun s0 t := by
  obtain ⟨ha, hb⟩ := h.aligned hk
  have hopos := h.opos_eq hk
  have hle := tailStart_le s0.lN
  have hwl : 4 * o = 3 * k := by
    rcases decBulk_cases s0.cfg s0.lUrl (((s0.input s0.lN).drop s.ipos).take k) (by simp; omega) with h1 | ⟨out, h1, h2⟩ <;>
      rw [hw] at h1
    · cases h1
    · injection h1 with h1
      rw [← h1] at h2
      simp at h2
      omega
  have hroom := estimate_room (a := s.ipos + k) (n := s0.lN) (by omega)
  refine .ofKernel (by rw [hph]; exact hk) (h.frame.trans hf) ?_ (by rw [hph, hti]; exact h.vloop) (h.room hk) ?_ ?_
    (by rw [hph]; exact fun h => (ht h).elim)
  · intro x hx
    rw [hhigh x (by omega), h.beyond x hx]
  · rw [hi]
    exact ⟨by omega, le_tailStart (by omega) (by omega)⟩
  · rw [hi, decBulk_take_add _ _ _ _ (by omega) (by simp; omega), h.output hk, hw, hot, ← ho,
      State.output_append hlow (by simpa [ho] using hmid)]
    rfl

/-- A fast step that fails (R199, R171). -/
theorem DecRun.chunkError {s0 s : State} (h : DecRun s0 s) (hk : s.phase.kernel = true) {k : Nat} (hk8 : k % 8 = 0)
    (hn : s.ipos + k + 4 ≤ s0.lN) {t : State} (hf : EngineFrame s t) (ho : t.outCell = s.outCell)
    (herr : decBulk s0.cfg s0.lUrl (((s0.input s0.lN).drop s.ipos).take k) = .error .invalidCharacter) :
    DecRun s0 (t.decRaise .invalidCharacter) := by
  obtain ⟨ha, hb⟩ := h.aligned hk
  refine decRaise_ends (h.frame.trans hf) (fun x hx => by rw [ho]; exact h.beyond x hx) (h.room hk) ?_
  exact decRef_of_bulk_error ha hk8 (by simpa using le_tailStart (by omega) (by omega)) (h.output hk) herr

/-- The stores of a chunk leave its result bytes, then at most four garbage bytes (20_memory.md R63, R205). -/
theorem storeSubLanes_outCell : ∀ (k : Nat) (s : State) (o : Nat) (w : List Byte), w.length = 16 * k →
    (∀ x < o, (storeSubLanes s o k w).outCell x = s.outCell x) ∧
      (∀ i < 12 * k, (storeSubLanes s o k w).outCell (o + i) = (packedLanes k w).getD i 0#8) ∧
      (∀ x, o + 12 * k + 4 ≤ x → (storeSubLanes s o k w).outCell x = s.outCell x)
  | 0, _, _, _, _ => by simp [storeSubLanes]
  | k + 1, s, o, w, hw => by
    have hl : (w.take 16).length = 16 := by simp; omega
    have hl12 : (w.take 12).length = 12 := by simp; omega
    obtain ⟨h1, h2, h3⟩ := storeSubLanes_outCell k (s.writeOut o (w.take 16)) (o + 12) (w.drop 16) (by simp; omega)
    simp only [storeSubLanes, packedLanes]
    refine ⟨fun x hx => ?_, fun i hi => ?_, fun x hx => ?_⟩
    · rw [h1 x (by omega), State.outCell_writeOut_outside _ (.inl hx)]
    · by_cases hi12 : i < 12
      · rw [h1 _ (by omega), State.outCell_writeOut, if_pos (by omega)]
        rw [show o + i - o = i by omega, List.getD_eq_getElem?_getD, List.getD_eq_getElem?_getD,
          List.getElem?_append_left (by omega)]
        simp [hi12, show i < 16 by omega]
      · have := h2 (i - 12) (by omega)
        rw [show o + 12 + (i - 12) = o + i by omega] at this
        rw [this, List.getD_eq_getElem?_getD, List.getD_eq_getElem?_getD, List.getElem?_append_right (by omega), hl12]
    · rw [h3 x (by omega), State.outCell_writeOut_outside _ (.inr (by omega))]

theorem storeSubLanes_fields : ∀ (k : Nat) (s : State) (o : Nat) (w : List Byte),
    (storeSubLanes s o k w).phase = s.phase ∧ (storeSubLanes s o k w).tier = s.tier ∧
      (storeSubLanes s o k w).ipos = s.ipos ∧ (storeSubLanes s o k w).opos = s.opos ∧
      (storeSubLanes s o k w).lN = s.lN
  | 0, _, _, _ => ⟨rfl, rfl, rfl, rfl, rfl⟩
  | k + 1, _, _, _ => storeSubLanes_fields k _ _ _

theorem DecRun.vloopRow {s0 s : State} (h : DecRun s0 s) (hop : s0.lOp = .dec) (hq : s0.inRace = [])
    (hi : s0.cfg.invalidMarked = true) (hm : 4 ≤ s0.cfg.vdecMargin) (hp : s.phase = .vloop) :
    DecRun s0 (vloopRow s) ∧ stepsLeft 8 (vloopRow s) < stepsLeft 8 s := by
  have hk : s.phase.kernel = true := by rw [hp]; rfl
  have hlN := h.frame.lN
  have ht := h.vloop hp
  have hs : 1 ≤ s.tier.subs := by revert ht; cases s.tier <;> simp [Tier.subs]
  rw [vloopRow_dec ht (h.frame.lOp.trans hop), h.frame.cfg, hlN]
  split_ifs with hn
  · have hlen : (s.readIn s.ipos s.tier.bytes).length = 16 * s.tier.subs := by simp [Tier.bytes]
    have hread : s.readIn s.ipos s.tier.bytes = ((s0.input s0.lN).drop s.ipos).take (16 * s.tier.subs) := by
      rw [State.readIn_quiet (h.frame.inRace.trans hq) (n := s0.lN) (by omega), h.frame.input]; rfl
    have hn' : s.ipos + 16 * s.tier.subs + 4 ≤ s0.lN := by simp only [Tier.bytes] at hn; omega
    unfold vectorDecodeChunk
    simp only [h.frame.lUrl, decChunk_fails _ _ _ _ hlen]
    have hiff := decBulk_error_iff hi s0.lUrl (s.readIn s.ipos s.tier.bytes) (by omega)
    split_ifs with hc
    · refine ⟨h.chunkError hk (k := 16 * s.tier.subs) (by omega) hn' (.setVec s _) rfl ?_, by simp [stepsLeft, hp]⟩
      rw [← hread]
      exact hiff.mpr hc
    · have hw := decChunk_result hi s0.lUrl s.tier.subs s.freeLane _ hlen (by simpa using hc)
      set v := decChunk s0.lUrl s.tier.subs s.freeLane (s.readIn s.ipos s.tier.bytes) with hv
      have hv16 : v.result.length = 16 * s.tier.subs := decChunk_result_length _ _ _ _ hlen
      have hvl := packedLanes_length _ _ hv16
      obtain ⟨f1, f2, f3, f4, f5⟩ := storeSubLanes_fields s.tier.subs (s.setVec (s.vec.update s.tier v)) s.opos v.result
      obtain ⟨g1, g2, g3⟩ := storeSubLanes_outCell s.tier.subs (s.setVec (s.vec.update s.tier v)) s.opos v.result hv16
      rw [hread] at hw
      constructor
      · refine h.chunk hk (by simp [hp]) (k := 16 * s.tier.subs) (by omega) hn'
          (((EngineFrame.setVec s _).trans (.storeSubLanes _ _ _ _)).trans (.advance _ _ _)) ?_ ?_ ?_ ?_ hw hvl ?_ ?_ ?_
        · exact f1
        · exact f2
        · simpa [Tier.bytes] using f3
        · simpa [Tier.chunkIn] using f4
        · exact g1
        · exact g2
        · intro x hx; exact g3 x (by omega)
      · simp only [stepsLeft, State.advance_phase, f1, State.setVec_phase, hp, State.advance_lN, f5, State.setVec_lN,
          State.advance_ipos, f3, State.setVec_ipos, Tier.bytes, hlN]
        omega
  · exact ⟨h.move hk rfl (by simp) (by simp), by simp [stepsLeft, hp]⟩

theorem State.input_take8 {s : State} {n a : Nat} (h : a + 8 ≤ n) :
    ((s.input n).drop a).take 8 = [s.inCell a, s.inCell (a + 1), s.inCell (a + 2), s.inCell (a + 3), s.inCell (a + 4),
      s.inCell (a + 5), s.inCell (a + 6), s.inCell (a + 7)] := by
  rw [State.input_drop (by omega), State.input_drop (by omega), State.input_drop (by omega),
    State.input_drop (by omega), State.input_drop (by omega), State.input_drop (by omega),
    State.input_drop (by omega), State.input_drop (by omega)]
  simp

theorem bad_append (xs ys : List Byte) : bad (xs ++ ys) = (bad xs || bad ys) := by
  have h : ∀ b : Bool, (b = false) = ¬ (b = true) := by decide
  rw [Bool.eq_iff_iff, Bool.or_eq_true, ← not_iff_not, not_or]
  simp only [← h, bad_eq_false_iff, List.mem_append]
  constructor
  · exact fun hv => ⟨fun v hm => hv v (.inl hm), fun v hm => hv v (.inr hm)⟩
  · rintro ⟨h1, h2⟩ v (hm | hm)
    · exact h1 v hm
    · exact h2 v hm

/-- Eight characters at once: one test finds what the two groups' tests find, and the bytes are those of the two
groups (R171). -/
theorem decBulk_eight (p : Params) (url : Bool) (c0 c1 c2 c3 c4 c5 c6 c7 : Byte) :
    decBulk p url [c0, c1, c2, c3, c4, c5, c6, c7]
      = if bad ([c0, c1, c2, c3, c4, c5, c6, c7].map (dt p.invalid url)) then .error .invalidCharacter
        else .ok (join4 (sextet (dt p.invalid url c0)) (sextet (dt p.invalid url c1)) (sextet (dt p.invalid url c2))
            (sextet (dt p.invalid url c3)) ++ join4 (sextet (dt p.invalid url c4)) (sextet (dt p.invalid url c5))
            (sextet (dt p.invalid url c6)) (sextet (dt p.invalid url c7))) := by
  have hb := bad_append [dt p.invalid url c0, dt p.invalid url c1, dt p.invalid url c2, dt p.invalid url c3]
    [dt p.invalid url c4, dt p.invalid url c5, dt p.invalid url c6, dt p.invalid url c7]
  simp only [List.cons_append, List.nil_append] at hb
  simp only [decBulk_group, decBulk_nil, decStrictGroup, List.map_cons, List.map_nil, hb]
  cases bad [dt p.invalid url c0, dt p.invalid url c1, dt p.invalid url c2, dt p.invalid url c3] <;>
    cases bad [dt p.invalid url c4, dt p.invalid url c5, dt p.invalid url c6, dt p.invalid url c7] <;>
      simp [Except.bind]

theorem DecRun.sloopRow {s0 s : State} (h : DecRun s0 s) (hop : s0.lOp = .dec) (hq : s0.inRace = [])
    (hp : s.phase = .sloop) : DecRun s0 (sloopRow s) ∧ stepsLeft 8 (sloopRow s) < stepsLeft 8 s := by
  have hk : s.phase.kernel = true := by rw [hp]; rfl
  have hlN := h.frame.lN
  unfold Machine.sloopRow
  rw [h.frame.lOp, hop]
  simp only [hlN]
  split_ifs with hn
  · have hread : s.readIn s.ipos 8 = ((s0.input s0.lN).drop s.ipos).take 8 := by
      rw [State.readIn_quiet (h.frame.inRace.trans hq) (n := s0.lN) (by omega), h.frame.input]
    have h8 := State.input_take8 (s := s0) (n := s0.lN) (a := s.ipos) (by omega)
    have hbulk := decBulk_eight s0.cfg s0.lUrl (s0.inCell s.ipos) (s0.inCell (s.ipos + 1)) (s0.inCell (s.ipos + 2))
      (s0.inCell (s.ipos + 3)) (s0.inCell (s.ipos + 4)) (s0.inCell (s.ipos + 5)) (s0.inCell (s.ipos + 6))
      (s0.inCell (s.ipos + 7))
    rw [← h8] at hbulk
    rw [scalarDecodeStep_eq]
    simp only [hread, h.frame.cfg, h.frame.lUrl]
    split_ifs with hc
    · refine ⟨h.chunkError hk (k := 8) (by omega) (by omega) (.setAcc s _) rfl ?_, by simp [stepsLeft, hp]⟩
      rw [hbulk, if_pos hc]
    · rw [if_neg hc] at hbulk
      obtain ⟨g1, g2⟩ := storeEight_outCell (s.setAcc (orAll ((((s0.input s0.lN).drop s.ipos).take 8).map
        (dt s0.cfg.invalid s0.lUrl)))) ((((s0.input s0.lN).drop s.ipos).take 8).map (dt s0.cfg.invalid s0.lUrl))
      constructor
      · refine h.chunk hk (by simp [hp]) (k := 8) (o := 6) (by omega) (by omega)
          ((EngineFrame.setAcc s _).trans (.storeEight _ _)) rfl rfl rfl rfl hbulk rfl ?_ ?_ ?_
        · exact fun x hx => g2 x (.inl hx)
        · intro i hi'
          rw [h8] at g1 ⊢
          exact g1 i hi'
        · exact fun x hx => g2 x (.inr (show s.opos + 7 ≤ x by omega))
      · simp only [stepsLeft, storeEight_phase, State.setAcc_phase, hp, storeEight_lN, State.setAcc_lN,
          storeEight_ipos, State.setAcc_ipos, hlN]
        omega
  · refine ⟨h.move hk rfl (by simp) fun _ => ?_, by simp [stepsLeft, hp]⟩
    obtain ⟨ha, hb⟩ := h.aligned hk
    exact eq_tailStart (by omega) hb (by omega)

/-! ### The tail -/

/-- What holds before each group of the tail: the result is the output so far followed by the decoding of the rest. -/
structure TailRun (s0 s : State) : Prop where
  frame : EngineFrame s0 s
  beyond : ∀ x, estimateDecodedLen s0.lN ≤ x → s.outCell x = s0.outCell x
  room : estimateDecodedLen s0.lN ≤ s0.lCap
  ipos : s.ipos ≤ s0.lN
  opos : 4 * s.opos = 3 * s.ipos
  result : decRef s0.cfg s0.lUrl s0.lPad (s0.input s0.lN)
    = (decTail s0.cfg s0.lUrl s0.lPad ((s0.input s0.lN).drop s.ipos)).bind fun b => .ok (s.output s.opos ++ b)

theorem DecRun.tailRun {s0 s : State} (h : DecRun s0 s) (hp : s.phase = .tail) : TailRun s0 s := by
  have hk : s.phase.kernel = true := by rw [hp]; rfl
  have ht := h.tail hp
  have hle := tailStart_le s0.lN
  refine ⟨h.frame, h.beyond, h.room hk, by omega, h.opos_eq hk, ?_⟩
  have := h.output hk
  rw [ht] at this ⊢
  rw [decRef, decRefAt, State.input_length, this]
  cases decTail s0.cfg s0.lUrl s0.lPad ((s0.input s0.lN).drop (tailStart s0.lN)) <;> rfl

theorem TailRun.reads {s0 s : State} (h : TailRun s0 s) (hq : s0.inRace = []) (a : Nat) :
    s.inByte a = s0.inCell a := by
  rw [State.inByte_quiet (h.frame.inRace.trans hq), State.inCell_congr h.frame.inMem h.frame.epoch]

/-- A tail that ends in an error. -/
theorem TailRun.raise {s0 s : State} (h : TailRun s0 s) {e : ErrorKind}
    (he : decTail s0.cfg s0.lUrl s0.lPad ((s0.input s0.lN).drop s.ipos) = .error e) : DecRun s0 (s.decRaise e) :=
  decRaise_ends h.frame h.beyond h.room (by rw [h.result, he]; rfl)

theorem TailRun.opos_room {s0 s : State} (h : TailRun s0 s) : s.opos + 3 ≤ estimateDecodedLen s0.lN := by
  have := h.ipos
  have := h.opos
  unfold estimateDecodedLen
  omega

/-- Bytes emitted in the tail stay inside the estimate. -/
theorem TailRun.emit_outCell {s0 s : State} (h : TailRun s0 s) (k : Nat) {g : List Byte} (hg : g.length ≤ 3) :
    (∀ x, estimateDecodedLen s0.lN ≤ x → (s.emit k g).outCell x = s0.outCell x) ∧
      (s.emit k g).output (s.opos + g.length) = s.output s.opos ++ g := by
  have := h.opos_room
  constructor
  · intro x hx
    rw [← h.beyond x hx]
    exact State.outCell_writeOut_outside s (.inr (by omega))
  · rw [← State.output_writeOut]; rfl

/-- A tail whose last bytes are these. -/
theorem TailRun.last {s0 s : State} (h : TailRun s0 s) (k : Nat) {g : List Byte} (hg : g.length ≤ 3)
    (he : decTail s0.cfg s0.lUrl s0.lPad ((s0.input s0.lN).drop s.ipos) = .ok g) : DecRun s0 (s.emit k g).decOk := by
  obtain ⟨h1, h2⟩ := h.emit_outCell k hg
  have := h.opos_room
  refine decOk_ends (h.frame.trans (.emit s k g)) h1 h.room (by simp [State.emit]; omega) ?_
  rw [h.result, he]
  show _ = Except.ok ((s.emit k g).output (s.opos + g.length))
  rw [h2]; rfl

theorem TailRun.rem {s0 s : State} (h : TailRun s0 s) (hq : s0.inRace = []) (hn : s0.lN < s.ipos + 4) :
    DecRun s0 (decodeTailRem s) := by
  have hlN := h.frame.lN
  have hle := h.ipos
  unfold decodeTailRem
  simp only [hlN, h.frame.lPad, h.frame.lUrl, h.frame.cfg, h.reads hq, Nat.add_zero]
  by_cases h0 : s0.lN ≤ s.ipos
  · rw [if_pos h0]
    have hd : (s0.input s0.lN).drop s.ipos = [] := by simp [h0]
    have := h.opos_room
    refine decOk_ends h.frame h.beyond h.room (by omega) ?_
    rw [h.result, hd]
    simp [decTail, Except.bind]
  · rw [if_neg h0]
    by_cases h1 : s.ipos + 1 = s0.lN
    · rw [if_pos (by simp [h1])]
      apply h.raise
      rw [State.input_drop (by omega), h1, List.drop_of_length_le (by simp)]
      rfl
    · by_cases h2 : s.ipos + 2 = s0.lN
      · have hd : (s0.input s0.lN).drop s.ipos = [s0.inCell s.ipos, s0.inCell (s.ipos + 1)] := by
          rw [State.input_drop (by omega), State.input_drop (by omega), List.drop_of_length_le (by simp; omega)]
        cases hpad : s0.lPad
        · rw [if_neg (by simp [h1]), if_pos h2]
          have he : decTail s0.cfg s0.lUrl s0.lPad ((s0.input s0.lN).drop s.ipos)
              = decPair s0.cfg s0.lUrl (s0.inCell s.ipos) (s0.inCell (s.ipos + 1)) := by
            rw [hd, hpad]; rfl
          rcases decPair_cases s0.cfg s0.lUrl (s0.inCell s.ipos) (s0.inCell (s.ipos + 1)) with hg | ⟨g, hg, hl⟩ <;>
            rw [hg] at he ⊢
          · exact h.raise he
          · exact h.last 2 (by omega) he
        · rw [if_pos (by simp)]
          exact h.raise (by rw [hd, hpad]; rfl)
      · have hd : (s0.input s0.lN).drop s.ipos
            = [s0.inCell s.ipos, s0.inCell (s.ipos + 1), s0.inCell (s.ipos + 2)] := by
          rw [State.input_drop (by omega), State.input_drop (by omega), State.input_drop (by omega),
            List.drop_of_length_le (by simp; omega)]
        cases hpad : s0.lPad
        · rw [if_neg (by simp [h1]), if_neg h2]
          have he : decTail s0.cfg s0.lUrl s0.lPad ((s0.input s0.lN).drop s.ipos)
              = decTriple s0.cfg s0.lUrl (s0.inCell s.ipos) (s0.inCell (s.ipos + 1)) (s0.inCell (s.ipos + 2)) := by
            rw [hd, hpad]; rfl
          rcases decTriple_cases s0.cfg s0.lUrl (s0.inCell s.ipos) (s0.inCell (s.ipos + 1))
              (s0.inCell (s.ipos + 2)) with hg | ⟨g, hg, hl⟩ <;> rw [hg] at he ⊢
          · exact h.raise he
          · exact h.last 3 (by omega) he
        · rw [if_pos (by simp)]
          exact h.raise (by rw [hd, hpad]; rfl)

theorem decTail_group (p : Params) (url pad : Bool) (c0 c1 c2 c3 : Byte) (rest : List Byte) :
    decTail p url pad (c0 :: c1 :: c2 :: c3 :: rest)
      = if c3 = padChar then (decPaddedGroup p url c0 c1 c2).bind fun g => afterPad p (!rest.isEmpty) g
        else (decStrictGroup p url c0 c1 c2 c3).bind fun g => (decTail p url pad rest).bind fun out => .ok (g ++ out) := by
  rw [decTail]
  split_ifs <;> rfl

theorem State.input_drop4 {s : State} {n a : Nat} (h : a + 4 ≤ n) :
    (s.input n).drop a = s.inCell a :: s.inCell (a + 1) :: s.inCell (a + 2) :: s.inCell (a + 3) ::
      (s.input n).drop (a + 4) := by
  rw [State.input_drop (by omega), State.input_drop (by omega), State.input_drop (by omega),
    State.input_drop (by omega)]

theorem decodeTailRem_done (s : State) : (decodeTailRem s).phase = .done := by
  unfold decodeTailRem
  simp only
  split_ifs
  · rfl
  · rfl
  · split <;> rfl
  · split <;> rfl

theorem decodeTail_done : ∀ (fuel : Nat) (s : State), (decodeTail fuel s).phase = .done
  | 0, s => decodeTailRem_done s
  | fuel + 1, s => by
    unfold decodeTail
    simp only
    split_ifs
    · split
      · rfl
      · split <;> rfl
    · split
      · rfl
      · exact decodeTail_done fuel _
    · exact decodeTailRem_done s

/-- The tail ends as DEC_REF says (R157 to R160, R173). -/
theorem TailRun.decodeTail {s0 : State} (hq : s0.inRace = []) :
    ∀ (fuel : Nat) (s : State), TailRun s0 s → (s0.lN - s.ipos) / 4 ≤ fuel → DecRun s0 (decodeTail fuel s)
  | 0, s, h, hf => h.rem hq (by omega)
  | fuel + 1, s, h, hf => by
    have hlN := h.frame.lN
    have hle := h.ipos
    unfold Machine.decodeTail
    simp only [hlN, h.frame.lUrl, h.frame.cfg, h.reads hq, Nat.add_zero]
    by_cases hn : s.ipos + 4 ≤ s0.lN
    · rw [if_pos hn]
      have hd := State.input_drop4 (s := s0) hn
      have hg4 := decTail_group s0.cfg s0.lUrl s0.lPad (s0.inCell s.ipos) (s0.inCell (s.ipos + 1))
        (s0.inCell (s.ipos + 2)) (s0.inCell (s.ipos + 3)) ((s0.input s0.lN).drop (s.ipos + 4))
      rw [← hd] at hg4
      have hmore : (!((s0.input s0.lN).drop (s.ipos + 4)).isEmpty) = decide (s.ipos + 4 < s0.lN) := by
        rw [Bool.eq_iff_iff]
        simp
      by_cases hpad : s0.inCell (s.ipos + 3) = padChar
      · rw [if_pos hpad]
        rw [if_pos hpad, hmore] at hg4
        rcases decPaddedGroup_cases s0.cfg s0.lUrl (s0.inCell s.ipos) (s0.inCell (s.ipos + 1))
            (s0.inCell (s.ipos + 2)) with hg | ⟨g, hg, hl⟩ <;> rw [hg] at hg4 ⊢
        · exact h.raise hg4
        · simp only [Except.bind] at hg4
          simp only [(EngineFrame.emit s 4 g).lN, hlN, show (s.emit 4 g).ipos = s.ipos + 4 from rfl]
          have hcases : ∀ more, afterPad s0.cfg more g = .ok g ∨ ∃ e, afterPad s0.cfg more g = .error e := by
            intro more; unfold afterPad; split_ifs
            · exact .inr ⟨_, rfl⟩
            · exact .inl rfl
          rcases hcases (decide (s.ipos + 4 < s0.lN)) with ha | ⟨e, ha⟩ <;> rw [ha] at hg4 ⊢
          · exact h.last 4 (by omega) hg4
          · exact decRaise_ends (h.frame.trans (.emit s 4 g)) (h.emit_outCell 4 (by omega)).1 h.room
              (by rw [h.result, hg4]; rfl)
      · rw [if_neg hpad]
        rw [if_neg hpad] at hg4
        rcases decStrictGroup_cases s0.cfg s0.lUrl (s0.inCell s.ipos) (s0.inCell (s.ipos + 1))
            (s0.inCell (s.ipos + 2)) (s0.inCell (s.ipos + 3)) with hg | ⟨g, hg, hl⟩ <;> rw [hg] at hg4 ⊢
        · exact h.raise hg4
        · obtain ⟨e1, e2⟩ := h.emit_outCell 4 (g := g) (by omega)
          have hi : (s.emit 4 g).ipos = s.ipos + 4 := rfl
          have ho : (s.emit 4 g).opos = s.opos + g.length := rfl
          have hopos := h.opos
          refine TailRun.decodeTail hq fuel _ ⟨h.frame.trans (.emit s 4 g), e1, h.room, by omega, by omega, ?_⟩ (by omega)
          rw [h.result, hg4, hi, ho, e2]
          simp only [Except.bind]
          cases decTail s0.cfg s0.lUrl s0.lPad ((s0.input s0.lN).drop (s.ipos + 4)) <;> simp [List.append_assoc]
    · rw [if_neg hn]
      exact h.rem hq (by omega)

theorem DecRun.checkRow {s0 s : State} (h : DecRun s0 s) (hop : s0.lOp = .dec) (hp : s.phase = .check) :
    DecRun s0 (checkRow s) ∧ stepsLeft 8 (checkRow s) < stepsLeft 8 s := by
  obtain ⟨hi, ho, hm⟩ := h.check hp
  have hlN := h.frame.lN
  have hreq : s.required = estimateDecodedLen s0.lN := by rw [h.frame.required, State.required, hop]
  unfold Machine.checkRow
  rw [h.frame.lOp, hop, hreq, h.frame.lCap]
  simp only
  split_ifs with hc
  · refine ⟨⟨h.frame.trans (.raise s _), h.beyond, by simp, by simp, by simp, by simp [Phase.kernel],
      by simp [Phase.kernel], by simp [Phase.kernel], by simp, ?_, ?_⟩, by simp [stepsLeft, hp]⟩
    · intro _ _; exact ⟨rfl, rfl, hm⟩
    · intro _ hle; omega
  · have hd : s.dispatch.phase.kernel = true := by
      simp only [State.dispatch, State.setPhase_phase]; split_ifs <;> rfl
    refine ⟨.ofKernel hd (h.frame.trans (.dispatch s)) h.beyond ?_ (by omega) ?_ ?_ ?_, ?_⟩
    · simp only [State.dispatch, State.setPhase_phase, State.setPhase_tier, State.setTier_tier]
      split_ifs with ht <;> simp [ht]
    · show s.ipos % 8 = 0 ∧ s.ipos ≤ tailStart s0.lN
      omega
    · show decBulk _ _ ((s0.input s0.lN).take s.ipos) = .ok (s.output s.opos)
      simp [hi, ho, State.output]
    · simp only [State.dispatch, State.setPhase_phase]
      split_ifs <;> simp
    · simp only [stepsLeft, State.dispatch, State.setPhase_phase, State.setPhase_ipos, State.setTier_ipos,
        State.setPhase_lN, State.setTier_lN, hp]
      split_ifs <;> simp

/-- Every step of a DEC keeps the run's invariant and lowers the number of steps left (R227, R296). -/
theorem DecRun.step {s0 s : State} (h : DecRun s0 s) (hop : s0.lOp = .dec) (hq : s0.inRace = [])
    (hi : s0.cfg.invalidMarked = true) (hm : 4 ≤ s0.cfg.vdecMargin) (hb : s.busy = true) :
    DecRun s0 (engineStep s) ∧ stepsLeft 8 (engineStep s) < stepsLeft 8 s := by
  unfold engineStep
  rw [if_pos hb]
  suffices hrow : DecRun s0 (engineRow s) ∧ stepsLeft 8 (engineRow s) < stepsLeft 8 s from
    ⟨hrow.1.nextDraw, hrow.2⟩
  unfold engineRow
  split
  · next hp => exact (h.notIdle hp).elim
  · next hp => simp [State.busy, hp, Phase.busy, Phase.stateCode] at hb
  · next hp => exact h.checkRow hop hp
  · next hp => exact h.vloopRow hop hq hi hm hp
  · next hp => exact h.sloopRow hop hq hp
  · next hp =>
    have hop' : s.lOp = .dec := h.frame.lOp.trans hop
    simp only [tailRow, hop', h.frame.lN]
    have hd := TailRun.decodeTail hq ((s0.lN - s.ipos) / 4 + 1) s (h.tailRun hp) (by omega)
    have hdone : (decodeTail ((s0.lN - s.ipos) / 4 + 1) s).phase = .done := decodeTail_done _ s
    exact ⟨hd, by simp [stepsLeft, hp, hdone]⟩

/-! ### The whole operation -/

/-- The launched state starts a run. -/
theorem DecRun.start {s0 : State} (hp : s0.phase = .check) (hi : s0.ipos = 0) (ho : s0.opos = 0) : DecRun s0 s0 := by
  refine ⟨.refl s0, fun _ _ => rfl, ?_, fun _ => ⟨hi, ho, rfl⟩, ?_, ?_, ?_, ?_, ?_, ?_, ?_⟩ <;>
    simp [hp, Phase.kernel]

/-- A DEC ends, as 40_engine_ops.md R125 to R127 say. -/
theorem DecRun.complete {s0 : State} (hp : s0.phase = .check) (hi : s0.ipos = 0) (ho : s0.opos = 0)
    (hop : s0.lOp = .dec) (hq : s0.inRace = []) (hinv : s0.cfg.invalidMarked = true) (hm : 4 ≤ s0.cfg.vdecMargin) :
    DecRun s0 s0.complete ∧ s0.complete.phase = .done := by
  have := runEngine_reaches (P := DecRun s0) (μ := stepsLeft 8) (fun s h hb => h.step hop hq hinv hm hb)
    (stepBound s0.lOp s0.lN) s0 (.start hp hi ho) (by simp [stepsLeft, hp, stepBound, hop]; omega)
  refine ⟨this.1, ?_⟩
  have hidle := this.1.notIdle
  have hb := this.2
  unfold State.complete
  generalize runEngine (stepBound s0.lOp s0.lN) s0 = t at hidle hb
  cases ht : t.phase <;> simp_all [State.busy, Phase.busy, Phase.stateCode]

end Sys2Proof.Machine
end

