-- ==== Sys2Proof/Laws/Reference.lean ====
section
/-! SUPPORT. DEC_REF as a whole: its two parts, the length of what it gives (41_scalar_kernel.md R161 (d); 40_engine_ops.md
R116, R132), and that it inverts ENC_REF (R130). -/

namespace Sys2Proof.Machine

theorem decTail_nil (p : Params) (url pad : Bool) : decTail p url pad [] = .ok [] := rfl

theorem afterPad_ok {p : Params} {more : Bool} {g out : List Byte} (h : afterPad p more g = .ok out) : out = g := by
  unfold afterPad at h
  split_ifs at h
  injection h with h
  exact h.symm

/-- DEC_REF succeeds exactly when its bulk and its tail do, with the bytes of both (R160). -/
theorem decRefAt_ok_iff {p : Params} {url pad : Bool} {t : Nat} {x out : List Byte} :
    decRefAt p url pad t x = .ok out
      ↔ ∃ a b, decBulk p url (x.take t) = .ok a ∧ decTail p url pad (x.drop t) = .ok b ∧ out = a ++ b := by
  unfold decRefAt
  cases decBulk p url (x.take t) with
  | error e => simp [bind, Except.bind]
  | ok a =>
    cases decTail p url pad (x.drop t) with
    | error e => simp [bind, Except.bind]
    | ok b => simp [bind, Except.bind, pure, Except.pure, eq_comm]

/-- The bytes a successful tail gives, at most (R161 (d)). -/
theorem decTail_length {p : Params} {url pad : Bool} :
    ∀ {x out : List Byte}, decTail p url pad x = .ok out →
      out.length ≤ 3 * (x.length / 4) + (if x.length % 4 = 2 then 1 else if x.length % 4 = 3 then 2 else 0)
  | [], out, h => by
    obtain rfl : [] = out := by simpa [decTail] using h
    simp
  | [_], out, h => by simp [decTail] at h
  | [c0, c1], out, h => by
    cases pad
    · rcases decPair_cases p url c0 c1 with hg | ⟨g, hg, hl⟩ <;> simp [decTail, hg] at h
      subst h
      simp [hl]
    · simp [decTail] at h
  | [c0, c1, c2], out, h => by
    cases pad
    · rcases decTriple_cases p url c0 c1 c2 with hg | ⟨g, hg, hl⟩ <;> simp [decTail, hg] at h
      subst h
      simp [hl]
    · simp [decTail] at h
  | c0 :: c1 :: c2 :: c3 :: rest, out, h => by
    rw [decTail_group] at h
    simp only [List.length_cons]
    split_ifs at h with hc
    · rcases decPaddedGroup_cases p url c0 c1 c2 with hg | ⟨g, hg, hl⟩ <;> rw [hg] at h
      · cases h
      · have := afterPad_ok h
        subst this
        split_ifs <;> omega
    · rcases decStrictGroup_cases p url c0 c1 c2 c3 with hg | ⟨g, hg, hl⟩ <;> rw [hg] at h
      · cases h
      · simp only [Except.bind] at h
        cases hr : decTail p url pad rest with
        | error e => rw [hr] at h; cases h
        | ok b =>
          rw [hr] at h
          injection h with h
          have ih := decTail_length hr
          subst h
          simp only [List.length_append]
          split_ifs at * <;> omega

/-- The bytes a successful DEC_REF gives, at most; always below the estimate (R116, R132, R161 (d)). -/
theorem decRef_length {p : Params} {url pad : Bool} {x out : List Byte} (h : decRef p url pad x = .ok out) :
    out.length ≤ 3 * (x.length / 4) + (if x.length % 4 = 2 then 1 else if x.length % 4 = 3 then 2 else 0) := by
  obtain ⟨a, b, ha, hb, rfl⟩ := decRefAt_ok_iff.mp h
  have hl := tailStart_le x.length
  have hm := tailStart_mod x.length
  have h1 := decTail_length hb
  have h2 : 4 * a.length = 3 * tailStart x.length := by
    rcases decBulk_cases p url (x.take (tailStart x.length)) (by simp; omega) with hc | ⟨o, hc, ho⟩ <;> rw [ha] at hc
    · cases hc
    · injection hc with hc
      subst hc
      simp at ho
      omega
  simp only [List.length_append, List.length_drop] at *
  split_ifs at * <;> omega

theorem decRef_length_lt {p : Params} {url pad : Bool} {x out : List Byte} (h : decRef p url pad x = .ok out) :
    out.length + 1 ≤ estimateDecodedLen x.length := by
  have := decRef_length h
  unfold estimateDecodedLen
  split_ifs at this <;> omega

/-! ### Decoding an encoding (R130) -/

theorem valid_sextet (v : Sextet) : v.setWidth 8 &&& 0xC0#8 = 0#8 := by revert v; decide

theorem decStrictGroup_alpha {p : Params} (url : Bool) (i0 i1 i2 i3 : Sextet) :
    decStrictGroup p url (alpha url i0) (alpha url i1) (alpha url i2) (alpha url i3) = .ok (join4 i0 i1 i2 i3) := by
  have hb : bad [i0.setWidth 8, i1.setWidth 8, i2.setWidth 8, i3.setWidth 8] = false := by
    rw [bad_eq_false_iff]; simp [valid_sextet]
  unfold decStrictGroup
  simp only [dt_alpha, hb, Bool.false_eq_true, if_false, sextet_setWidth]

theorem decPair_alpha {p : Params} (url : Bool) (i0 i1 : Sextet) :
    decPair p url (alpha url i0) (alpha url i1) = .ok (join2 i0 i1) := by
  have hb : bad [i0.setWidth 8, i1.setWidth 8] = false := by
    rw [bad_eq_false_iff]; simp [valid_sextet]
  unfold decPair
  simp only [dt_alpha, hb, Bool.false_eq_true, if_false, sextet_setWidth]

theorem decTriple_alpha {p : Params} (url : Bool) (i0 i1 i2 : Sextet) :
    decTriple p url (alpha url i0) (alpha url i1) (alpha url i2) = .ok (join3 i0 i1 i2) := by
  have hb : bad [i0.setWidth 8, i1.setWidth 8, i2.setWidth 8] = false := by
    rw [bad_eq_false_iff]; simp [valid_sextet]
  unfold decTriple
  simp only [dt_alpha, hb, Bool.false_eq_true, if_false, sextet_setWidth]

/-- The bulk inverts the encoding of whole groups. -/
theorem decBulk_encRef (p : Params) (url pad : Bool) :
    ∀ x : List Byte, x.length % 3 = 0 → decBulk p url (encRef url pad x) = .ok x
  | x, h => by
    rcases group3_cases h with rfl | ⟨b0, b1, b2, rest, rfl, hr⟩
    · simp
    · have ih := decBulk_encRef p url pad rest hr
      have hj := join4_split3 b0 b1 b2
      rw [encRef_group]
      simp only [encGroup, List.cons_append, List.nil_append, decBulk_group, decStrictGroup_alpha, hj, ih, Except.bind]
termination_by x => x.length
decreasing_by subst_vars; simp; omega

/-- The tail inverts an encoding. -/
theorem decTail_encRef (p : Params) (url pad : Bool) :
    ∀ x : List Byte, decTail p url pad (encRef url pad x) = .ok x
  | [] => by simp [decTail]
  | [b0] => by
    have hj := join2_split3 b0 0#8 0#8
    cases pad <;> simp only [encRef, encRem1, Bool.false_eq_true, if_false, if_true, List.append_nil, List.cons_append,
      List.nil_append]
    · rw [decTail]
      simp only [Bool.false_eq_true, if_false, decPair_alpha, hj]
    · rw [decTail_group, if_pos rfl]
      simp [decPaddedGroup, decPair_alpha, hj, Except.bind, afterPad]
  | [b0, b1] => by
    have hj := join3_split3 b0 b1 0#8
    cases pad <;> simp only [encRef, encRem2, Bool.false_eq_true, if_false, if_true, List.append_nil, List.cons_append,
      List.nil_append]
    · rw [decTail]
      simp only [Bool.false_eq_true, if_false, decTriple_alpha, hj]
    · rw [decTail_group, if_pos rfl]
      simp [decPaddedGroup, decTriple_alpha, hj, Except.bind, afterPad, alpha_ne_padChar]
  | b0 :: b1 :: b2 :: rest => by
    have ih := decTail_encRef p url pad rest
    have hj := join4_split3 b0 b1 b2
    rw [encRef_group]
    simp only [encGroup, List.cons_append, List.nil_append, decTail_group, alpha_ne_padChar, if_false,
      decStrictGroup_alpha, hj, ih, Except.bind]

/-- The encoding of an input, cut at a multiple of four characters, is the encoding of the input cut at the
corresponding multiple of three bytes. -/
theorem encRef_cut (url pad : Bool) {x : List Byte} {t : Nat} (ht : t % 4 = 0)
    (hl : t = 0 ∨ t + 4 ≤ (encRef url pad x).length) :
    ∃ k, k % 3 = 0 ∧ (encRef url pad x).take t = encRef url pad (x.take k) ∧
      (encRef url pad x).drop t = encRef url pad (x.drop k) ∧ (x.take k).length % 3 = 0 := by
  rw [encRef_length] at hl
  by_cases hk : 3 * (t / 4) ≤ x.length
  · have hlen : (x.take (3 * (t / 4))).length = 3 * (t / 4) := by simp; omega
    have h := encRef_append url pad (x.drop (3 * (t / 4))) (x.take (3 * (t / 4))) (by omega)
    rw [List.take_append_drop] at h
    have h2 := (encRef_whole url pad pad (x.take (3 * (t / 4))) (by omega)).2
    have h3 : (encRef url pad (x.take (3 * (t / 4)))).length = t := by omega
    refine ⟨3 * (t / 4), by omega, ?_, ?_, by omega⟩
    · rw [h, List.take_left' h3]
    · rw [h, List.drop_left' h3]
  · exfalso
    cases pad <;> simp only [encodedLen] at hl <;> simp at hl <;> omega

theorem tailStart_cases (n : Nat) : tailStart n = 0 ∨ tailStart n + 4 ≤ n := by
  unfold tailStart; split_ifs <;> omega

/-- DEC_REF inverts ENC_REF (R130). -/
theorem decRef_encRef (p : Params) (url pad : Bool) (x : List Byte) : decRef p url pad (encRef url pad x) = .ok x := by
  obtain ⟨k, hk, h1, h2, h3⟩ := encRef_cut url pad (x := x) (t := tailStart (encRef url pad x).length)
    (by have := tailStart_mod (encRef url pad x).length; omega) (tailStart_cases _)
  refine decRefAt_ok_iff.mpr ⟨x.take k, x.drop k, ?_, ?_, by simp⟩
  · rw [h1]; exact decBulk_encRef p url pad _ h3
  · rw [h2]; exact decTail_encRef p url pad _

end Sys2Proof.Machine
end

