-- ==== Sys2Proof/Laws/Acceptance.lean ====
section
/-! SUPPORT. What DEC_REF accepts and why it fails (41_scalar_kernel.md R156 to R161; 60_exceptions.md R251, R252): its
bulk, its tail group by group, and how whole groups of symbols come off the front. -/

namespace Sys2Proof.Machine

/-- A byte is a symbol of the alphabet exactly when the vector datapath classifies it (R91, R198). -/
theorem inAlphabet_iff (url : Bool) (c : Byte) : (∃ j, alpha url j = c) ↔ (classify url c).isSome = true :=
  ⟨fun ⟨j, hj⟩ => hj ▸ classify_alpha url j, fun h => ⟨_, alpha_charIndex url c h⟩⟩

/-- A bulk that decodes holds symbols only (R156). -/
theorem decBulk_valid {p : Params} (hp : p.invalidMarked = true) {url : Bool} {x out : List Byte} (hl :
    x.length % 4 = 0)
    (h : decBulk p url x = .ok out) : ∀ c ∈ x, ∃ j, alpha url j = c := by
  have := decBulk_error_iff hp url x hl
  rw [h] at this
  intro c hc
  rw [inAlphabet_iff]
  by_contra hn
  have : (x.any fun c => !(classify url c).isSome) = true := by
    rw [List.any_eq_true]; exact ⟨c, hc, by simp at hn; simp [hn]⟩
  simp_all

/-- A byte is a symbol of the alphabet (R88, R89). -/
def InAlphabet (url : Bool) (c : Byte) : Prop := ∃ j, alpha url j = c

/-- `=` is no symbol (R86, R92). -/
theorem padChar_not_inAlphabet {url : Bool} : ¬ InAlphabet url padChar := fun ⟨j, hj⟩ => alpha_ne_padChar url j hj

/-- The test of a set of lookups (R91, R150). -/
theorem bad_lookups_iff {p : Params} (hp : p.invalidMarked = true) {url : Bool} (cs : List Byte) :
    bad (cs.map (dt p.invalid url)) = false ↔
    ∀ c ∈ cs, InAlphabet url c := by
  rw [bad_map_dt hp, List.any_eq_false]
  refine forall₂_congr fun c _ => ?_
  show _ ↔ (∃ j, alpha url j = c)
  rw [inAlphabet_iff]; cases (classify url c).isSome <;> simp

/-- A strict group decodes exactly when it holds four symbols (R156). -/
theorem decStrictGroup_ok_iff {p : Params} (hp : p.invalidMarked = true) {url : Bool} {a b c d : Byte} :
    (∃ g, decStrictGroup p url a b c d = .ok g) ↔
    InAlphabet url a ∧ InAlphabet url b ∧ InAlphabet url c ∧ InAlphabet url d := by
  have := bad_lookups_iff hp (url := url) [a, b, c, d]
  simp only [List.map_cons, List.map_nil, List.mem_cons, List.not_mem_nil, or_false, forall_eq_or_imp,
      forall_eq] at this
  rw [← this]
  unfold decStrictGroup
  simp only
  cases bad [dt p.invalid url a, dt p.invalid url b, dt p.invalid url c, dt p.invalid url d] <;> simp

/-- Two characters decode exactly when both are symbols (R157, R159). -/
theorem decPair_ok_iff {p : Params} (hp : p.invalidMarked = true) {url : Bool} {a b : Byte} :
    (∃ g, decPair p url a b = .ok g) ↔
    InAlphabet url a ∧ InAlphabet url b := by
  have := bad_lookups_iff hp (url := url) [a, b]
  simp only [List.map_cons, List.map_nil, List.mem_cons, List.not_mem_nil, or_false, forall_eq_or_imp,
      forall_eq] at this
  rw [← this]
  unfold decPair
  simp only
  cases bad [dt p.invalid url a, dt p.invalid url b] <;> simp

/-- Three characters decode exactly when all are symbols (R157, R159). -/
theorem decTriple_ok_iff {p : Params} (hp : p.invalidMarked = true) {url : Bool} {a b c : Byte} :
    (∃ g, decTriple p url a b c = .ok g) ↔
    InAlphabet url a ∧ InAlphabet url b ∧ InAlphabet url c := by
  have := bad_lookups_iff hp (url := url) [a, b, c]
  simp only [List.map_cons, List.map_nil, List.mem_cons, List.not_mem_nil, or_false, forall_eq_or_imp,
      forall_eq] at this
  rw [← this]
  unfold decTriple
  simp only
  cases bad [dt p.invalid url a, dt p.invalid url b, dt p.invalid url c] <;> simp

/-- A padded group decodes exactly when what precedes the padding are symbols (R157). -/
theorem decPaddedGroup_ok_iff {p : Params} (hp : p.invalidMarked = true) {url : Bool} {a b c : Byte} :
    (∃ g, decPaddedGroup p url a b c = .ok g) ↔
    InAlphabet url a ∧ InAlphabet url b ∧ (c = padChar ∨ InAlphabet url c) := by
  unfold decPaddedGroup
  split_ifs with h
  · rw [decPair_ok_iff hp]; simp [h]
  · rw [decTriple_ok_iff hp]; simp [h]

/-- What the tail of DEC_REF accepts (R157 to R160). -/
def TailAccepts (p : Params) (url pad : Bool) : List Byte → Prop
  | [] => True
  | [_] => False
  | [a, b] => pad = false ∧ InAlphabet url a ∧ InAlphabet url b
  | [a, b, c] => pad = false ∧ InAlphabet url a ∧ InAlphabet url b ∧ InAlphabet url c
  | a :: b :: c :: d :: rest =>
    (d = padChar ∧ InAlphabet url a ∧ InAlphabet url b ∧ (c = padChar ∨ InAlphabet url c) ∧ (rest = [] ∨
        p.postPad = .terminateOk)) ∨
    (InAlphabet url a ∧ InAlphabet url b ∧ InAlphabet url c ∧ InAlphabet url d ∧ TailAccepts p url pad rest)

/-- What the tail of DEC_REF accepts, from group to group (R157 to R160). -/
theorem decTail_ok_iff {p : Params} (hp : p.invalidMarked = true) {url pad : Bool} :
    ∀ x, (∃ out, decTail p url pad x = .ok out) ↔ TailAccepts p url pad x
  | [] => by simp [decTail, TailAccepts]
  | [_] => by simp [decTail, TailAccepts]
  | [a, b] => by
    simp only [decTail, TailAccepts]
    cases pad
    · simpa using decPair_ok_iff hp
    · simp
  | [a, b, c] => by
    simp only [decTail, TailAccepts]
    cases pad
    · simpa using decTriple_ok_iff hp
    · simp
  | a :: b :: c :: d :: rest => by
    have ih := decTail_ok_iff hp (url := url) (pad := pad) rest
    rw [decTail_group, TailAccepts, ← ih]
    by_cases hd : d = padChar
    · rw [if_pos hd]
      have h0 : ¬ InAlphabet url d := hd ▸ padChar_not_inAlphabet
      have h1 := decPaddedGroup_ok_iff hp (url := url) (a := a) (b := b) (c := c)
      have hrw : ((d = padChar ∧ InAlphabet url a ∧ InAlphabet url b ∧ (c = padChar ∨ InAlphabet url c) ∧ (rest =
          [] ∨ p.postPad = .terminateOk)) ∨
          (InAlphabet url a ∧ InAlphabet url b ∧ InAlphabet url c ∧ InAlphabet url d ∧ ∃ out,
              decTail p url pad rest = .ok out)) ↔
          (InAlphabet url a ∧ InAlphabet url b ∧ (c = padChar ∨ InAlphabet url c)) ∧ (rest = [] ∨ p.postPad =
              .terminateOk) := by
        constructor
        · rintro (⟨_, x1, x2, x3, x4⟩ | ⟨_, _, _, x, _⟩)
          · exact ⟨⟨x1, x2, x3⟩, x4⟩
          · exact (h0 x).elim
        · rintro ⟨⟨x1, x2, x3⟩, x4⟩
          exact .inl ⟨hd, x1, x2, x3, x4⟩
      rw [hrw, ← h1]
      cases hg : decPaddedGroup p url a b c with
      | error e => simp [Except.bind]
      | ok g =>
        simp only [Except.bind, afterPad]
        cases hpp : p.postPad <;> cases rest <;> simp
    · rw [if_neg hd]
      have h1 := decStrictGroup_ok_iff hp (url := url) (a := a) (b := b) (c := c) (d := d)
      have hrw : ((d = padChar ∧ InAlphabet url a ∧ InAlphabet url b ∧ (c = padChar ∨ InAlphabet url c) ∧ (rest =
          [] ∨ p.postPad = .terminateOk)) ∨
          (InAlphabet url a ∧ InAlphabet url b ∧ InAlphabet url c ∧ InAlphabet url d ∧ ∃ out,
              decTail p url pad rest = .ok out)) ↔
          (InAlphabet url a ∧ InAlphabet url b ∧ InAlphabet url c ∧ InAlphabet url d) ∧ ∃ out,
              decTail p url pad rest = .ok out := by
        constructor
        · rintro (⟨x, _⟩ | ⟨x1, x2, x3, x4, x5⟩)
          · exact (hd x).elim
          · exact ⟨⟨x1, x2, x3, x4⟩, x5⟩
        · rintro ⟨⟨x1, x2, x3, x4⟩, x5⟩
          exact .inr ⟨x1, x2, x3, x4, x5⟩
      rw [hrw, ← h1]
      cases hg : decStrictGroup p url a b c d with
      | error e => simp [Except.bind]
      | ok g =>
        cases hr : decTail p url pad rest <;> simp [Except.bind]

/-- The bulk decodes exactly when it holds symbols only (R156). -/
theorem decBulk_ok_iff {p : Params} (hp : p.invalidMarked = true) {url : Bool} {x : List Byte} (hl : x.length % 4 =
    0) : (∃ a, decBulk p url x = .ok a) ↔
    ∀ c ∈ x, InAlphabet url c := by
  constructor
  · rintro ⟨a, h⟩; exact decBulk_valid hp hl h
  · intro h
    rcases decBulk_cases p url x hl with hc | ⟨o, hc, _⟩
    · have := (decBulk_error_iff hp url x hl).mp hc
      rw [List.any_eq_true] at this
      obtain ⟨c, hc, hn⟩ := this
      have := (inAlphabet_iff url c).mp (h c hc)
      simp [this] at hn
    · exact ⟨o, hc⟩

/-- A strict group with `=` last is no group (R156). -/
theorem decStrictGroup_padChar {p : Params} (hp : p.invalidMarked = true) {url : Bool} {a b c : Byte} :
    decStrictGroup p url a b c padChar =
    .error .invalidCharacter := by
  rcases decStrictGroup_cases p url a b c padChar with h | ⟨g, h, _⟩
  · exact h
  · exact absurd ((decStrictGroup_ok_iff hp).mp ⟨g, h⟩).2.2.2 padChar_not_inAlphabet

/-- Under REJECT, a tail's group with more after it is a strict group (R157, R158). -/
theorem decTail_group_reject {p : Params} (hp : p.invalidMarked = true) {url pad : Bool} (hrej : p.postPad =
    .reject) {a b c d : Byte} {rest : List Byte}
    (hr : rest ≠ []) :
    decTail p url pad (a :: b :: c :: d :: rest) = (decStrictGroup p url a b c d).bind fun g =>
        (decTail p url pad rest).bind fun o => .ok (g ++ o) := by
  rw [decTail_group]
  split_ifs with hd
  · subst hd
    rw [decStrictGroup_padChar hp]
    rcases decPaddedGroup_cases p url a b c with h | ⟨g, h, _⟩ <;> rw [h]
    · rfl
    · simp [Except.bind, afterPad, hrej, hr]
  · rfl

/-- Under REJECT, the window may as well start at 0. -/
theorem decRefAt_eq_decTail {p : Params} (hp : p.invalidMarked = true) {url pad : Bool} (hrej : p.postPad =
    .reject) : ∀ (t : Nat) (x : List Byte), t % 4 =
    0 → t ≤ x.length - 4 →
    decRefAt p url pad t x = decTail p url pad x
  | t, x, ht, hl => by
    rcases Nat.eq_zero_or_pos t with rfl | hpos
    · simp only [decRefAt, List.take_zero, decBulk_nil, List.drop_zero, bind, Except.bind, List.nil_append]
      cases decTail p url pad x <;> rfl
    · obtain ⟨t, rfl⟩ : ∃ t', t = t' + 4 := ⟨t - 4, by omega⟩
      match x with
      | [] => simp at hl
      | [_] => simp at hl
      | [_, _] => simp at hl
      | [_, _, _] => simp at hl
      | a :: b :: c :: d :: rest =>
        simp only [List.length_cons] at hl
        have ih := decRefAt_eq_decTail hp (url := url) (pad := pad) hrej t rest (by omega) (by omega)
        rw [decTail_group_reject hp hrej (by rintro rfl; simp at hl), ← ih]
        simp only [decRefAt, List.take_succ_cons, List.drop_succ_cons, decBulk_group, bind]
        cases decStrictGroup p url a b c d with
        | error e => rfl
        | ok g =>
          cases decBulk p url (rest.take t) with
          | error e => rfl
          | ok a =>
            cases decTail p url pad (rest.drop t) with
            | error e => rfl
            | ok b => simp [Except.bind, pure, Except.pure]

/-- A tail that starts with whole groups of symbols. -/
theorem decTail_append {p : Params} {url pad : Bool} {y : List Byte} : ∀ x : List Byte, x.length % 4 = 0 →
    (∀ c ∈ x, InAlphabet url c) →
    decTail p url pad (x ++ y) = (decBulk p url x).bind fun a => (decTail p url pad y).bind fun b => .ok (a ++ b)
  | x, hl, hv => by
    rcases group4_cases hl with rfl | ⟨a, b, c, d, rest, rfl, hr⟩
    · simp only [List.nil_append, decBulk_nil, Except.bind]
      cases decTail p url pad y <;> rfl
    · simp only [List.mem_cons, forall_eq_or_imp] at hv
      have ih := decTail_append (p := p) (pad := pad) (y := y) rest hr hv.2.2.2.2
      have hd : d ≠ padChar := by rintro rfl; exact padChar_not_inAlphabet hv.2.2.2.1
      simp only [List.cons_append]
      rw [decTail_group, if_neg hd, decBulk_group, ih]
      cases decStrictGroup p url a b c d with
      | error e => rfl
      | ok g =>
        cases decBulk p url rest with
        | error e => rfl
        | ok a =>
          cases decTail p url pad y with
          | error e => rfl
          | ok b => simp [Except.bind]
termination_by x => x.length
decreasing_by subst_vars; simp; omega

/-- DEC_REF of whole groups of symbols followed by anything, with a window that starts inside them. -/
theorem decRefAt_append {p : Params} {url pad : Bool} {y : List Byte} {x :
    List Byte} (hl : x.length % 4 = 0) (hv :
    ∀ c ∈ x, InAlphabet url c) {t : Nat} (ht : t % 4 = 0) (hle : t ≤ x.length) :
    decRefAt p url pad t (x ++ y) = (decBulk p url x).bind fun a => (decTail p url pad y).bind fun b => .ok
        (a ++ b) := by
  have h1 : (x ++ y).take t = x.take t := by rw [List.take_append_of_le_length hle]
  have h2 : (x ++ y).drop t = x.drop t ++ y := by rw [List.drop_append_of_le_length hle]
  have h3 := decTail_append (p := p) (pad := pad) (y := y) (x.drop t) (by simp; omega) (fun c hc => hv c
      (List.mem_of_mem_drop hc))
  have h4 := decBulk_append p url (x.drop t) (x.take t) (by simp; omega)
  rw [List.take_append_drop] at h4
  simp only [decRefAt, h1, h2, h3, h4, bind]
  cases decBulk p url (x.take t) with
  | error e => rfl
  | ok a =>
    cases decBulk p url (x.drop t) with
    | error e => rfl
    | ok b =>
      cases decTail p url pad y with
      | error e => rfl
      | ok c => simp [Except.bind, pure, Except.pure]

/-- A failed set of lookups holds a byte outside the alphabet. -/
theorem outside_of_bad {p : Params} (hp : p.invalidMarked = true) {url : Bool} {cs : List Byte} (h :
    bad (cs.map (dt p.invalid url)) = true) :
    ∃ c ∈ cs, ∀ j, alpha url j ≠ c := by
  by_contra hn
  push Not at hn
  have := (bad_lookups_iff hp (url := url) cs).mpr (fun c hc => hn c hc)
  simp [this] at h

/-- The errors of the tail and their causes (R159, R160). -/
theorem decTail_error_cause {p : Params} (hp : p.invalidMarked = true) {url pad : Bool} : ∀ {x : List Byte} {e :
    ErrorKind}, decTail p url pad x = .error e →
    (e = .invalidLength ∧ ((pad = true ∧ x.length % 4 ≠ 0) ∨ x.length % 4 = 1)) ∨
    (e = .invalidCharacter ∧ ∃ c ∈ x, ∀ j, alpha url j ≠ c)
  | [], e, h => by simp [decTail] at h
  | [_], e, h => by simp [decTail] at h; simp [← h]
  | [a, b], e, h => by
    cases pad
    · simp only [decTail, Bool.false_eq_true, if_false] at h
      right
      rcases decPair_cases p url a b with hg | ⟨g, hg, hl⟩ <;> rw [hg] at h
      · injection h with h
        refine ⟨h.symm, ?_⟩
        apply outside_of_bad hp
        by_contra hb
        have : bad ([a, b].map (dt p.invalid url)) = false := by simpa using hb
        obtain ⟨g, hg'⟩ := (decPair_ok_iff hp (url := url) (a := a) (b := b)).mpr (by
          simpa using (bad_lookups_iff hp _).mp this)
        rw [hg] at hg'; cases hg'
      · cases h
    · simp [decTail] at h; simp [← h]
  | [a, b, c], e, h => by
    cases pad
    · simp only [decTail, Bool.false_eq_true, if_false] at h
      right
      rcases decTriple_cases p url a b c with hg | ⟨g, hg, hl⟩ <;> rw [hg] at h
      · injection h with h
        refine ⟨h.symm, ?_⟩
        apply outside_of_bad hp
        by_contra hb
        have : bad ([a, b, c].map (dt p.invalid url)) = false := by simpa using hb
        obtain ⟨g, hg'⟩ := (decTriple_ok_iff hp (url := url) (a := a) (b := b) (c := c)).mpr (by
          simpa using (bad_lookups_iff hp _).mp this)
        rw [hg] at hg'; cases hg'
      · cases h
    · simp [decTail] at h; simp [← h]
  | a :: b :: c :: d :: rest, e, h => by
    rw [decTail_group] at h
    split_ifs at h with hd
    · right
      have hdv : ∃ c' ∈ a :: b :: c :: d :: rest, ∀ j, alpha url j ≠ c' := ⟨d, by simp,
          fun j hj => alpha_ne_padChar url j (hj.trans hd)⟩
      refine ⟨?_, hdv⟩
      rcases decPaddedGroup_cases p url a b c with hg | ⟨g, hg, hl⟩ <;> rw [hg] at h
      · simp [Except.bind] at h; exact h.symm
      · simp only [Except.bind, afterPad] at h; split_ifs at h; injection h with h; exact h.symm
    · rcases decStrictGroup_cases p url a b c d with hg | ⟨g, hg, hl⟩ <;> rw [hg] at h
      · simp only [Except.bind] at h; injection h with h
        right
        refine ⟨h.symm, ?_⟩
        by_contra hn
        push Not at hn
        obtain ⟨g, hg'⟩ := (decStrictGroup_ok_iff hp (url := url) (a := a) (b := b) (c := c) (d := d)).mpr ⟨hn a
            (by simp), hn b (by simp), hn c (by simp), hn d (by simp)⟩
        rw [hg] at hg'; cases hg'
      · cases hr : decTail p url pad rest with
        | error e' =>
          rw [hr] at h; simp [Except.bind] at h; subst h
          rcases decTail_error_cause hp hr with ⟨h1, h2⟩ | ⟨h1, c', hc, h2⟩
          · left; refine ⟨h1, ?_⟩
            have : (a :: b :: c :: d :: rest).length % 4 = rest.length % 4 := by simp only [List.length_cons]; omega
            rw [this]; exact h2
          · right; exact ⟨h1, c', by simp [hc], h2⟩
        | ok b => rw [hr] at h; simp [Except.bind] at h

/-- A tail of whole groups gives at most three bytes per group, and exactly three only without padding. -/
theorem decTail_full {p : Params} (hp : p.invalidMarked = true) {url pad : Bool} : ∀ {x out :
    List Byte}, decTail p url pad x = .ok out → x.length % 4 = 0 →
    4 * out.length ≤ 3 * x.length ∧ (4 * out.length = 3 * x.length → ∀ c ∈ x, InAlphabet url c)
  | [], out, h, _ => by simp [decTail] at h; subst h; simp
  | [_], _, _, hl => by simp at hl
  | [_, _], _, _, hl => by simp at hl
  | [_, _, _], _, _, hl => by simp at hl
  | a :: b :: c :: d :: rest, out, h, hl => by
    rw [decTail_group] at h
    simp only [List.length_cons] at hl ⊢
    by_cases hd : d = padChar
    · rw [if_pos hd] at h
      rcases decPaddedGroup_cases p url a b c with hg | ⟨g, hg, h1, h2⟩ <;> rw [hg] at h
      · cases h
      · have := afterPad_ok h
        subst this
        exact ⟨by omega, fun h => by omega⟩
    · rw [if_neg hd] at h
      rcases decStrictGroup_cases p url a b c d with hg | ⟨g, hg, h1⟩ <;> rw [hg] at h
      · cases h
      · have hv := (decStrictGroup_ok_iff hp).mp ⟨g, hg⟩
        cases hr : decTail p url pad rest with
        | error e => rw [hr] at h; cases h
        | ok o =>
          rw [hr] at h
          simp only [Except.bind] at h
          injection h with h
          subst h
          obtain ⟨i1, i2⟩ := decTail_full hp hr (by omega)
          simp only [List.length_append]
          refine ⟨by omega, fun h => ?_⟩
          have i3 := i2 (by omega)
          simp only [List.mem_cons, forall_eq_or_imp]
          exact ⟨hv.1, hv.2.1, hv.2.2.1, hv.2.2.2, i3⟩

/-- A decoding of whole groups that gives three bytes per group had no padding. -/
theorem decRef_full {p : Params} (hp : p.invalidMarked = true) {url pad : Bool} {x out : List Byte} (h :
    decRef p url pad x = .ok out) (hl : x.length % 4 = 0)
    (he : 4 * out.length = 3 * x.length) : ∀ c ∈ x, InAlphabet url c := by
  obtain ⟨a, b, ha, hb, rfl⟩ := decRefAt_ok_iff.mp h
  have hm := tailStart_mod x.length
  have hle := tailStart_le x.length
  have hv := decBulk_valid hp (by simp; omega) ha
  have hal : 4 * a.length = 3 * tailStart x.length := by
    rcases decBulk_cases p url (x.take (tailStart x.length)) (by simp; omega) with hc | ⟨o, hc, ho⟩ <;> rw [ha] at hc
    · cases hc
    · injection hc with hc
      subst hc
      simp at ho
      omega
  have := (decTail_full hp hb (by simp; omega)).2 (by simp at he ⊢; omega)
  intro c hc
  rw [← List.take_append_drop (tailStart x.length) x, List.mem_append] at hc
  rcases hc with hc | hc
  · exact hv c hc
  · exact this c hc

end Sys2Proof.Machine
end

