-- ==== Sys2Proof/Laws/Commands.lean ====
section
/-! SUPPORT. What a command can do, said once for all sixteen (40_engine_ops.md R110 to R127): `runCommand` ignores
a command while BUSY, and otherwise ends in a state that the latched operation's run describes. -/

namespace Sys2Proof.Machine

/-- Every arm is the shared operation on the command's word (30_encoding.md R85). -/
theorem exec_eq (i : Instr) (s : State) : exec i s = runCommand (encode i) s := by cases i <;> rfl

theorem runCommand_busy {s : State} (hb : s.busy = true) (w : BitVec 4) : runCommand w s = .next s := by
  simp [runCommand, hb]

theorem runCommand_idle {s : State} (hb : s.busy = false) (w : BitVec 4) :
    runCommand w s = .next (s.launch w).complete := by
  simp [runCommand, hb]

/-- An operation that ends in its first step (R114, R117). -/
theorem complete_of_one {s t : State} (hs : s.busy = true) (ht : t.busy = false) (hstep : engineStep s = t)
    (hb : 1 ≤ stepBound s.lOp s.lN) : s.complete = t := by
  unfold State.complete
  obtain ⟨k, hk⟩ := Nat.exists_eq_add_of_le' hb
  rw [hk, runEngine, if_pos hs, hstep]
  cases k <;> simp [runEngine, ht]

theorem launch_busy (s : State) (w : BitVec 4) : (s.launch w).busy = true := rfl

/-- An operation whose first step, the row of P_CHECK, ends it (R225). -/
theorem runCommand_of_check {s t : State} (hb : s.busy = false) (w : BitVec 4)
    (hst : 1 ≤ stepBound (cmdOp w) s.ilen) (hc : checkRow (s.launch w) = t) (ht : t.phase = .done) :
    runCommand w s = .next t.nextDraw := by
  rw [runCommand_idle hb]
  congr 1
  refine complete_of_one (launch_busy s w) (by simp [State.busy, ht, Phase.busy, Phase.stateCode]) ?_ hst
  unfold engineStep
  rw [if_pos (launch_busy s w)]
  show (checkRow _).nextDraw = _
  rw [hc]

/-- The frame of the engine, from the launch to the end, is the frame of the command (R255, R256). -/
theorem EngineFrame.command {i : Instr} {s t : State} (h : EngineFrame (s.launch (encode i)) t) (hd : t.phase = .done) :
    CommandFrame i s t :=
  ⟨hd, h.cmd, h.lOp, h.lUrl, h.lPad, h.lN, h.lCap, h.cfg, h.ilen, h.ocap, h.inMem, h.inRace, h.epoch, h.events, h.obs⟩

/-- ENCLEN: one step to Ok with the encoded length (R114). -/
theorem runCommand_enclen {s : State} (hb : s.busy = false) {w : BitVec 4} (hw : cmdOp w = .enclen) :
    runCommand w s = .next ((s.launch w).ok (encodedLen (cmdPad w) s.ilen)).nextDraw := by
  rw [runCommand_idle hb]
  congr 1
  refine complete_of_one (launch_busy s w) rfl ?_ (by simp [stepBound, hw])
  unfold engineStep
  rw [if_pos (launch_busy s w)]
  simp only [engineRow, State.launch_phase, checkRow, State.launch_lOp, hw]
  rfl

/-- DECEST: one step to Ok with the estimate (R117). -/
theorem runCommand_decest {s : State} (hb : s.busy = false) {w : BitVec 4} (hw : cmdOp w = .decest) :
    runCommand w s = .next ((s.launch w).ok (estimateDecodedLen s.ilen)).nextDraw := by
  rw [runCommand_idle hb]
  congr 1
  refine complete_of_one (launch_busy s w) rfl ?_ (by simp [stepBound, hw])
  unfold engineStep
  rw [if_pos (launch_busy s w)]
  simp only [engineRow, State.launch_phase, checkRow, State.launch_lOp, hw]
  rfl

/-- ENC: the run of `EncRun`, ended (R120 to R123). -/
theorem runCommand_enc {s : State} (hb : s.busy = false) {w : BitVec 4} (hw : cmdOp w = .enc) :
    ∃ t, runCommand w s = .next t ∧ EncRun (s.launch w) t ∧ t.phase = .done := by
  obtain ⟨h1, h2⟩ := EncRun.complete (s0 := s.launch w) rfl rfl rfl hw rfl
  exact ⟨_, runCommand_idle hb w, h1, h2⟩

/-- DEC: the run of `DecRun`, ended (R125 to R127). -/
theorem runCommand_dec {s : State} (hb : s.busy = false) {w : BitVec 4} (hw : cmdOp w = .dec)
    (hp : s.cfg.wf = true) :
    ∃ t, runCommand w s = .next t ∧ DecRun (s.launch w) t ∧ t.phase = .done := by
  simp only [Params.wf, Bool.and_eq_true, decide_eq_true_eq] at hp
  obtain ⟨h1, h2⟩ := DecRun.complete (s0 := s.launch w) rfl rfl rfl hw rfl hp.2 hp.1.2
  exact ⟨_, runCommand_idle hb w, h1, h2⟩

end Sys2Proof.Machine
end

