-- ==== Sys2Proof/Laws/Invariant.lean ====
section
/-! SUPPORT. What the rows of the engine, the launch and the host accesses keep of the invariant of `Safety.lean`
(43_dispatcher.md R227, R228; 10_state.md R22 to R37). -/

namespace Sys2Proof.Machine

/-! ### Buffers -/

theorem State.MemoryOk.congr {s t : State} (h : s.MemoryOk) (hc : t.cfg = s.cfg) (hi : t.inMem = s.inMem)
    (ho : t.outMem = s.outMem) : t.MemoryOk := by
  constructor
  · rw [hi]; exact h.inWf
  · rw [ho]; exact h.outWf
  · rw [hi, hc]; exact h.inBound
  · rw [ho, hc]; exact h.outBound

theorem State.MemoryOk.writeOut {s : State} (h : s.MemoryOk) {a : Nat} {bs : List Byte}
    (hb : a + bs.length ≤ 2 ^ s.cfg.lenw) : (s.writeOut a bs).MemoryOk where
  inWf := h.inWf
  outWf := Memory.store_keeps_wf h.outWf a bs
  inBound := h.inBound
  outBound := fun c hc => by
    rcases Memory.mem_store hc with ⟨_, h2⟩ | hc
    · exact lt_of_lt_of_le h2 hb
    · exact h.outBound c hc

theorem State.MemoryOk.freeOut {s : State} (h : s.MemoryOk) {a k : Nat} (hb : a + k ≤ 2 ^ s.cfg.lenw) :
    (s.freeOut a k).MemoryOk :=
  h.writeOut (by simpa using hb)

theorem State.MemoryOk.fill {s : State} (h : s.MemoryOk) {a : Nat} {bs : List Byte}
    (hb : s.located a bs.length = true) : (s.fill a bs).MemoryOk where
  inWf := Memory.store_keeps_wf h.inWf a bs
  outWf := h.outWf
  inBound := fun c hc => by
    rcases Memory.mem_store hc with ⟨h1, h2⟩ | hc
    · simp only [State.located, Bool.or_eq_true, decide_eq_true_eq] at hb
      show c.1 < 2 ^ s.cfg.lenw
      omega
    · exact h.inBound c hc
  outBound := h.outBound

/-! ### Lengths -/

theorem encodedLen_width (pad : Bool) {n w : Nat} (hw : 8 ≤ w) (hn : n < 2 ^ w) : encodedLen pad n < 2 ^ (w + 1) := by
  have : 2 ^ 8 ≤ 2 ^ w := Nat.pow_le_pow_right (by omega) hw
  cases pad <;> simp only [encodedLen, Nat.pow_succ] <;> simp <;> omega

theorem estimate_width {n w : Nat} (hw : 8 ≤ w) (hn : n < 2 ^ w) : estimateDecodedLen n < 2 ^ (w + 1) := by
  have : 2 ^ 8 ≤ 2 ^ w := Nat.pow_le_pow_right (by omega) hw
  simp only [estimateDecodedLen, Nat.pow_succ]
  omega

theorem enc_opos_le (pad : Bool) {i o n : Nat} (ho : 3 * o = 4 * i) (hi : i ≤ n) (h3 : i % 3 = 0) :
    o ≤ encodedLen pad n := by
  cases pad <;> simp only [encodedLen] <;> simp <;> omega

theorem dec_opos_le {i o n : Nat} (ho : 4 * o = 3 * i) (hi : i ≤ n) : o + 3 ≤ estimateDecodedLen n := by
  unfold estimateDecodedLen; omega

theorem Params.wf_lenw {p : Params} (h : p.wf = true) : 8 ≤ p.lenw := by
  simp only [Params.wf, Bool.and_eq_true, decide_eq_true_eq] at h
  exact h.1.1.1.1.1

theorem Params.wf_margin {p : Params} (h : p.wf = true) : 4 ≤ p.vdecMargin := by
  simp only [Params.wf, Bool.and_eq_true, decide_eq_true_eq] at h
  exact h.1.2

/-! ### An operation ends, or goes on in a kernel -/

/-- A step that ends the operation keeps the invariant. -/
theorem State.Inv.ofDone {s t : State} (h : s.Inv) (hf : EngineFrame s t) (hp : t.phase = .done) (hm : t.MemoryOk)
    (ht : tierPresent t.cfg t.tier = true) (hr : t.rlen < 2 ^ (s.cfg.lenw + 1)) (he : t.err ≠ none → t.rlen = 0)
    (hi : t.ipos ≤ s.lN) (ho : t.opos ≤ s.lCap) : t.Inv where
  params := by rw [hf.cfg]; exact h.params
  memory := hm
  widths :=
    { ilen := by rw [hf.ilen, hf.cfg]; exact h.widths.ilen
      ocap := by rw [hf.ocap, hf.cfg]; exact h.widths.ocap
      rlen := by rw [hf.cfg]; exact hr
      lN := by rw [hf.lN, hf.cfg]; exact h.widths.lN
      lCap := by rw [hf.lCap, hf.cfg]; exact h.widths.lCap
      ipos := by rw [hf.lN]; exact hi
      opos := by rw [hf.lCap]; exact ho }
  status := ⟨fun _ => hp, he, by simp [State.busy, hp, Phase.busy, Phase.stateCode]⟩
  latch := by constructor <;> simp [State.busy, hp, Phase.busy, Phase.stateCode]
  kernel := ⟨by simp [hp, Phase.kernel], by simp [hp, Phase.kernel], ht, by simp [hp]⟩
  positions := by constructor <;> simp [hp, Phase.kernel]

theorem Phase.kernel_busy {p : Phase} (h : p.kernel = true) : p.busy = true := by
  rcases Phase.kernel_cases h with rfl | rfl | rfl <;> rfl

/-- A step that goes on in a kernel keeps the invariant. -/
theorem State.Inv.ofKernel {s t : State} (h : s.Inv) (hb : s.busy = true) (hf : EngineFrame s t)
    (hp : t.phase.kernel = true) (he : t.err = s.err) (hr : t.rlen = s.rlen) (hm : t.MemoryOk)
    (ht : tierPresent t.cfg t.tier = true) (hv : t.phase = .vloop → t.tier ≠ .scalar)
    (hop : s.lOp = .enc ∨ s.lOp = .dec) (hroom : s.required ≤ s.lCap)
    (henc : s.lOp = .enc → t.ipos % 3 = 0 ∧ 3 * t.opos = 4 * t.ipos ∧ t.ipos ≤ s.lN)
    (hdec : s.lOp = .dec → t.ipos % 8 = 0 ∧ 4 * t.opos = 3 * t.ipos ∧ t.ipos ≤ tailStart s.lN)
    (htail : t.phase = .tail → s.lOp = .dec → t.ipos = tailStart s.lN) : t.Inv := by
  have hdone : s.phase ≠ .done := by intro hd; simp [State.busy, hd, Phase.busy, Phase.stateCode] at hb
  have herr : s.err = none := by by_contra hne; exact hdone (h.status.errDone hne)
  have hle := tailStart_le s.lN
  refine
    { params := by rw [hf.cfg]; exact h.params
      memory := hm
      widths :=
        { ilen := by rw [hf.ilen, hf.cfg]; exact h.widths.ilen
          ocap := by rw [hf.ocap, hf.cfg]; exact h.widths.ocap
          rlen := by rw [hr, hf.cfg]; exact h.widths.rlen
          lN := by rw [hf.lN, hf.cfg]; exact h.widths.lN
          lCap := by rw [hf.lCap, hf.cfg]; exact h.widths.lCap
          ipos := ?_
          opos := ?_ }
      status := ⟨by simp [he, herr], by simp [he, herr], fun _ => by rw [hr]; exact h.status.busyRlen hb⟩
      latch := ?_
      kernel := ⟨fun _ => by rw [hf.lOp]; exact hop, fun _ => by rw [hf.required, hf.lCap]; exact hroom, ht, hv⟩
      positions := ⟨fun hc => by rw [hc] at hp; simp [Phase.kernel] at hp, fun _ ho => ?_, fun _ ho => ?_, fun hq ho => ?_⟩ }
  · rw [hf.lN]
    rcases hop with ho | ho
    · exact (henc ho).2.2
    · exact le_trans (hdec ho).2.2 hle
  · rw [hf.lCap]
    rcases hop with ho | ho <;> rw [State.required, ho] at hroom <;> refine le_trans ?_ hroom
    · obtain ⟨h1, h2, h3⟩ := henc ho
      exact enc_opos_le _ h2 h3 h1
    · obtain ⟨h1, h2, h3⟩ := hdec ho
      have := dec_opos_le h2 (le_trans h3 hle)
      simp only
      omega
  · have := h.latch
    constructor <;> intro _
    · rw [hf.lOp, hf.cmd]; exact this.op hb
    · rw [hf.lUrl, hf.cmd]; exact this.url hb
    · rw [hf.lPad, hf.cmd]; exact this.pad hb
    · rw [hf.lN, hf.ilen]; exact this.n hb
    · rw [hf.lCap, hf.ocap]; exact this.cap hb
  · rw [hf.lN]; exact henc (hf.lOp ▸ ho)
  · rw [hf.lN]; exact hdec (hf.lOp ▸ ho)
  · rw [hf.lN]; exact htail hq (hf.lOp ▸ ho)

/-- A state that differs in fields the invariant does not name only. -/
theorem State.Inv.nextDraw {s : State} (h : s.Inv) : s.nextDraw.Inv :=
  ⟨h.params, h.memory.congr rfl rfl rfl, ⟨h.widths.1, h.widths.2, h.widths.3, h.widths.4, h.widths.5, h.widths.6,
    h.widths.7⟩, ⟨h.status.1, h.status.2, h.status.3⟩, ⟨h.latch.1, h.latch.2, h.latch.3, h.latch.4, h.latch.5⟩,
    ⟨h.kernel.1, h.kernel.2, h.kernel.3, h.kernel.4⟩, ⟨h.positions.1, h.positions.2, h.positions.3, h.positions.4⟩⟩

theorem State.Inv.setEvents {s : State} (h : s.Inv) (es : List Event) : (s.setEvents es).Inv :=
  ⟨h.params, h.memory.congr rfl rfl rfl, ⟨h.widths.1, h.widths.2, h.widths.3, h.widths.4, h.widths.5, h.widths.6,
    h.widths.7⟩, ⟨h.status.1, h.status.2, h.status.3⟩, ⟨h.latch.1, h.latch.2, h.latch.3, h.latch.4, h.latch.5⟩,
    ⟨h.kernel.1, h.kernel.2, h.kernel.3, h.kernel.4⟩, ⟨h.positions.1, h.positions.2, h.positions.3, h.positions.4⟩⟩

theorem State.Inv.observe {s : State} (h : s.Inv) (o : Obs) : (s.observe o).Inv :=
  ⟨h.params, h.memory.congr rfl rfl rfl, ⟨h.widths.1, h.widths.2, h.widths.3, h.widths.4, h.widths.5, h.widths.6,
    h.widths.7⟩, ⟨h.status.1, h.status.2, h.status.3⟩, ⟨h.latch.1, h.latch.2, h.latch.3, h.latch.4, h.latch.5⟩,
    ⟨h.kernel.1, h.kernel.2, h.kernel.3, h.kernel.4⟩, ⟨h.positions.1, h.positions.2, h.positions.3, h.positions.4⟩⟩

/-! ### The rows -/

theorem State.Inv.room {s : State} (h : s.Inv) (hk : s.phase.kernel = true) : s.required < 2 ^ s.cfg.lenw :=
  lt_of_le_of_lt (h.kernel.room hk) h.widths.lCap

theorem State.Inv.decRaise {s : State} (h : s.Inv) {t : State} (hf : EngineFrame s t)
    (hroom : estimateDecodedLen s.lN ≤ s.lCap) (hm : t.MemoryOk) (ht : tierPresent t.cfg t.tier = true)
    (hi : t.ipos ≤ s.lN) (ho : t.opos ≤ s.lCap) (e : ErrorKind) : (t.decRaise e).Inv := by
  have hcap := h.widths.lCap
  refine h.ofDone (hf.trans (.decRaise t e)) rfl ?_ ht (by simp [State.decRaise]) (fun _ => rfl) hi ho
  refine State.MemoryOk.congr (s := t.freeOut 0 (estimateDecodedLen t.lN)) (hm.freeOut ?_) rfl rfl rfl
  rw [hf.lN, hf.cfg]
  omega

theorem State.Inv.decOk {s : State} (h : s.Inv) {t : State} (hf : EngineFrame s t)
    (hroom : estimateDecodedLen s.lN ≤ s.lCap) (hm : t.MemoryOk) (ht : tierPresent t.cfg t.tier = true)
    (hi : t.ipos ≤ s.lN) (ho : t.opos ≤ estimateDecodedLen s.lN) : t.decOk.Inv := by
  have hcap := h.widths.lCap
  refine h.ofDone (hf.trans (.decOk t)) rfl ?_ ht ?_ (fun hne => (hne rfl).elim) hi (show t.opos ≤ _ by omega)
  · refine State.MemoryOk.congr (s := t.freeOut t.opos (estimateDecodedLen t.lN - t.opos)) (hm.freeOut ?_) rfl rfl rfl
    rw [hf.lN, hf.cfg]
    omega
  · show t.opos < _
    rw [Nat.pow_succ]
    omega

theorem selectTier_present (p : Params) (n : Nat) : tierPresent p (selectTier p n) = true := by
  unfold selectTier
  split_ifs with h1 h2 h3 <;> simp_all [tierPresent]

theorem State.Inv.checkRow {s : State} (h : s.Inv) (hp : s.phase = .check) : (checkRow s).Inv := by
  have hb : s.busy = true := by simp [State.busy, hp, Phase.busy, Phase.stateCode]
  have hw := Params.wf_lenw h.params
  have hpos := h.positions.check hp
  have htp := h.kernel.tierPresent
  have hmok : ∀ m, (s.ok m).MemoryOk := fun m => h.memory.congr rfl rfl rfl
  have hmr : ∀ e, (s.raise e).MemoryOk := fun e => h.memory.congr rfl rfl rfl
  have hok : ∀ m, m < 2 ^ (s.cfg.lenw + 1) → (s.ok m).Inv := fun m hm =>
    h.ofDone (.ok s m) rfl (hmok m) htp hm (fun hne => (hne rfl).elim) h.widths.ipos h.widths.opos
  have hraise : ∀ e, (s.raise e).Inv := fun e =>
    h.ofDone (.raise s e) rfl (hmr e) htp (by simp) (fun _ => rfl) h.widths.ipos h.widths.opos
  have hdisp : (s.lOp = .enc ∨ s.lOp = .dec) → s.required ≤ s.lCap → s.dispatch.Inv := by
    intro hop hroom
    refine h.ofKernel hb (.dispatch s) ?_ rfl rfl (h.memory.congr rfl rfl rfl) (selectTier_present _ _) ?_ hop hroom
      (fun _ => ?_) (fun _ => ?_) ?_
    · simp only [State.dispatch, State.setPhase_phase]; split_ifs <;> rfl
    · simp only [State.dispatch, State.setPhase_phase, State.setPhase_tier, State.setTier_tier]
      split_ifs with ht <;> simp [ht]
    · show s.ipos % 3 = 0 ∧ 3 * s.opos = 4 * s.ipos ∧ s.ipos ≤ s.lN
      omega
    · show s.ipos % 8 = 0 ∧ 4 * s.opos = 3 * s.ipos ∧ s.ipos ≤ tailStart s.lN
      omega
    · simp only [State.dispatch, State.setPhase_phase]
      split_ifs <;> simp
  unfold Machine.checkRow
  split
  · exact hok _ (encodedLen_width _ hw h.widths.lN)
  · exact hok _ (estimate_width hw h.widths.lN)
  · next hop =>
    split_ifs with hc hn
    · exact hraise _
    · exact hok 0 (by positivity)
    · exact hdisp (.inl hop) (by omega)
  · next hop =>
    split_ifs with hc
    · exact hraise _
    · exact hdisp (.inr hop) (by omega)

/-- An encode step of `k` bytes to `o` characters inside the input. -/
theorem State.Inv.encStep {s : State} (h : s.Inv) (hk : s.phase.kernel = true) (hop : s.lOp = .enc) {k o : Nat}
    (hk3 : k % 3 = 0) (ho : 3 * o = 4 * k) (hn : s.ipos + k ≤ s.lN) (v : VecUnits) {w : List Byte} (hw : w.length = o) :
    (((s.setVec v).writeOut s.opos w).advance k o).Inv := by
  obtain ⟨h1, h2, h3⟩ := h.positions.enc hk hop
  have hroom := h.kernel.room hk
  have hcap := h.widths.lCap
  have hle := enc_opos_le s.lPad (i := s.ipos + k) (o := s.opos + o) (n := s.lN) (by omega) (by omega) (by omega)
  have hreq : s.required = encodedLen s.lPad s.lN := by rw [State.required, hop]
  refine h.ofKernel (Phase.kernel_busy hk)
    (((EngineFrame.setVec s v).trans (.writeOut _ _ _)).trans (.advance _ _ _)) hk rfl rfl ?_ h.kernel.tierPresent
    h.kernel.vloopTier (.inl hop) hroom (fun _ => ?_) (fun hd => ?_) (fun _ hd => ?_)
  · refine State.MemoryOk.congr (s := (s.setVec v).writeOut s.opos w)
      (State.MemoryOk.writeOut (h.memory.congr (t := s.setVec v) rfl rfl rfl) ?_) rfl rfl rfl
    show s.opos + w.length ≤ 2 ^ s.cfg.lenw
    omega
  · show (s.ipos + k) % 3 = 0 ∧ 3 * (s.opos + o) = 4 * (s.ipos + k) ∧ s.ipos + k ≤ s.lN
    omega
  · rw [hop] at hd; cases hd
  · rw [hop] at hd; cases hd

theorem State.Inv.move {s : State} (h : s.Inv) (hk : s.phase.kernel = true) {p : Phase} (hp : p.kernel = true)
    (hv : p ≠ .vloop) (ht : p = .tail → s.lOp = .dec → s.ipos = tailStart s.lN) : (s.setPhase p).Inv :=
  h.ofKernel (Phase.kernel_busy hk) (.setPhase s p) hp rfl rfl (h.memory.congr rfl rfl rfl) h.kernel.tierPresent
    (fun hq => (hv hq).elim) (h.kernel.op hk) (h.kernel.room hk) (h.positions.enc hk) (h.positions.dec hk) ht

theorem storeSubLanes_memoryOk : ∀ (k : Nat) (s : State) (o : Nat) (w : List Byte), w.length = 16 * k → s.MemoryOk →
    o + 12 * k + 4 ≤ 2 ^ s.cfg.lenw → (storeSubLanes s o k w).MemoryOk
  | 0, _, _, _, _, h, _ => h
  | k + 1, s, o, w, hw, h, hb => by
    refine storeSubLanes_memoryOk k _ _ _ (by simp; omega) (h.writeOut (by simp; omega)) ?_
    show o + 12 + 12 * k + 4 ≤ 2 ^ s.cfg.lenw
    omega

theorem storeSubLanes_regs : ∀ (k : Nat) (s : State) (o : Nat) (w : List Byte),
    (storeSubLanes s o k w).err = s.err ∧ (storeSubLanes s o k w).rlen = s.rlen
  | 0, _, _, _ => ⟨rfl, rfl⟩
  | k + 1, _, _, _ => storeSubLanes_regs k _ _ _

theorem storeEight_memoryOk {s : State} (h : s.MemoryOk) {v : List Byte} (hb : s.opos + 6 + 6 ≤ 2 ^ s.cfg.lenw) :
    (storeEight s v).MemoryOk := by
  refine State.MemoryOk.congr (State.MemoryOk.writeOut (State.MemoryOk.writeOut h (a := s.opos) ?_) (a := s.opos + 3) ?_)
    rfl rfl rfl
  · simp only [List.length_append, join4_length, State.freeBytes_length]
    omega
  · simp only [List.length_append, join4_length, State.freeBytes_length]
    show s.opos + 3 + 4 ≤ 2 ^ s.cfg.lenw
    omega

/-- A decode step of `k` characters to `o` bytes that stores at most four bytes of garbage after them. -/
theorem State.Inv.decStep {s : State} (h : s.Inv) (hk : s.phase.kernel = true) (ht : s.phase ≠ .tail)
    (hop : s.lOp = .dec) {k o : Nat} (hk8 : k % 8 = 0) (ho : 4 * o = 3 * k) (hn : s.ipos + k + 4 ≤ s.lN) {t : State}
    (hf : EngineFrame s t) (hph : t.phase = s.phase) (hti : t.tier = s.tier) (he : t.err = s.err)
    (hr : t.rlen = s.rlen) (hi : t.ipos = s.ipos + k) (hot : t.opos = s.opos + o)
    (hm : s.opos + o + 6 ≤ 2 ^ s.cfg.lenw → t.MemoryOk) : t.Inv := by
  obtain ⟨h1, h2, h3⟩ := h.positions.dec hk hop
  have hroom := h.kernel.room hk
  have hcap := h.widths.lCap
  have hreq : s.required = estimateDecodedLen s.lN := by rw [State.required, hop]
  have hest := estimate_room (a := s.ipos + k) (n := s.lN) (by omega)
  refine h.ofKernel (Phase.kernel_busy hk) hf (by rw [hph]; exact hk) he hr (hm (by omega))
    (by rw [hf.cfg, hti]; exact h.kernel.tierPresent) (by rw [hph, hti]; exact h.kernel.vloopTier) (.inr hop) hroom
    (fun hd => ?_) (fun _ => ?_) (fun hq => (ht (hph ▸ hq)).elim)
  · rw [hop] at hd; cases hd
  · rw [hi, hot]
    exact ⟨by omega, by omega, le_tailStart (by omega) (by omega)⟩

theorem State.Inv.vloopRow {s : State} (h : s.Inv) (hp : s.phase = .vloop) : (vloopRow s).Inv := by
  have hk : s.phase.kernel = true := by rw [hp]; rfl
  have ht := h.kernel.vloopTier hp
  rcases h.kernel.op hk with hop | hop
  · rw [vloopRow_enc ht hop]
    split_ifs with hn
    · have hlen : (s.readIn s.ipos s.tier.chunkIn).length = 12 * s.tier.subs := by simp [Tier.chunkIn]
      refine h.encStep hk hop ?_ ?_ hn _ (by rw [encChunk_result_length _ _ _ _ hlen]; rfl) <;>
        simp only [Tier.chunkIn, Tier.bytes] <;> omega
    · exact h.move hk rfl (by simp) (by simp)
  · rw [vloopRow_dec ht hop]
    split_ifs with hn
    · have hm := Params.wf_margin h.params
      have hn' : s.ipos + 16 * s.tier.subs + 4 ≤ s.lN := by simp only [Tier.bytes] at hn; omega
      have hroom := h.kernel.room hk
      rw [State.required, hop] at hroom
      unfold vectorDecodeChunk
      simp only
      split_ifs
      · refine h.decRaise ?_ hroom ?_ ?_ ?_ ?_ _
        · exact .setVec s _
        · exact h.memory.congr rfl rfl rfl
        · exact h.kernel.tierPresent
        · exact h.widths.ipos
        · exact h.widths.opos
      · set v := decChunk s.lUrl s.tier.subs s.freeLane (s.readIn s.ipos s.tier.bytes)
        obtain ⟨f1, f2, f3, f4, f5⟩ := storeSubLanes_fields s.tier.subs (s.setVec (s.vec.update s.tier v)) s.opos v.result
        obtain ⟨g1, g2⟩ := storeSubLanes_regs s.tier.subs (s.setVec (s.vec.update s.tier v)) s.opos v.result
        refine h.decStep hk (by simp [hp]) hop (k := 16 * s.tier.subs) (o := 12 * s.tier.subs) (by omega) (by omega) hn'
          (((EngineFrame.setVec s _).trans (.storeSubLanes _ _ _ _)).trans (.advance _ _ _)) f1 f2 g1 g2 ?_ ?_ ?_
        · simpa [Tier.bytes] using f3
        · simpa [Tier.chunkIn] using f4
        · intro hb
          refine State.MemoryOk.congr (s := storeSubLanes (s.setVec (s.vec.update s.tier v)) s.opos s.tier.subs v.result) ?_ rfl rfl rfl
          exact storeSubLanes_memoryOk _ _ _ _ (decChunk_result_length _ _ _ _ (by simp [Tier.bytes])) (h.memory.congr rfl rfl rfl)
            (show s.opos + 12 * s.tier.subs + 4 ≤ 2 ^ s.cfg.lenw by omega)
    · exact h.move hk rfl (by simp) (by simp)

theorem State.Inv.sloopRow {s : State} (h : s.Inv) (hp : s.phase = .sloop) : (sloopRow s).Inv := by
  have hk : s.phase.kernel = true := by rw [hp]; rfl
  unfold Machine.sloopRow
  rcases h.kernel.op hk with hop | hop
  · simp only [hop]
    split_ifs with hn
    · exact h.encStep hk hop (k := 6) (o := 8) (by omega) (by omega) hn s.vec (by simp)
    · exact h.move hk rfl (by simp) (by simp [hop])
  · have hroom := h.kernel.room hk
    rw [State.required, hop] at hroom
    simp only [hop]
    split_ifs with hn
    · unfold scalarDecodeStep
      simp only
      split_ifs
      · refine h.decRaise ?_ hroom ?_ ?_ ?_ ?_ _
        · exact .setAcc s _
        · exact h.memory.congr rfl rfl rfl
        · exact h.kernel.tierPresent
        · exact h.widths.ipos
        · exact h.widths.opos
      · refine h.decStep hk (by simp [hp]) hop (k := 8) (o := 6) (by omega) (by omega) (by omega)
          ((EngineFrame.setAcc s _).trans (.storeEight _ _)) rfl rfl rfl rfl rfl rfl ?_
        intro hb
        refine storeEight_memoryOk (s := s.setAcc (orAll ((s.readIn s.ipos 8).map (dt s.cfg.invalid s.lUrl)))) ?_ hb
        exact h.memory.congr rfl rfl rfl
    · refine h.move hk rfl (by simp) fun _ _ => ?_
      obtain ⟨h1, h2, h3⟩ := h.positions.dec hk hop
      exact eq_tailStart h1 h3 (by omega)

/-! ### The tails -/

/-- What the tail's parts keep, `e` being the capacity the operation requires: the frame, the phase, the buffers, the
tier, and positions inside. -/
structure TailOk (s t : State) (e : Nat) : Prop where
  frame : EngineFrame s t
  memory : t.MemoryOk
  tier : t.tier = s.tier
  ipos : t.ipos ≤ s.lN
  opos : t.opos ≤ e

theorem State.Inv.encodeTail {s : State} (h : s.Inv) (hp : s.phase = .tail) (hop : s.lOp = .enc) :
    (encodeTail s).Inv := by
  have hk : s.phase.kernel = true := by rw [hp]; rfl
  have hg : (encodeTailGroup s).Inv ∧ EngineFrame s (encodeTailGroup s) ∧ (encodeTailGroup s).phase = .tail := by
    unfold encodeTailGroup
    simp only
    split_ifs with hn
    · exact ⟨h.encStep hk hop (k := 3) (o := 4) (by omega) (by omega) hn s.vec (by simp),
        (EngineFrame.writeOut s _ _).trans (.advance _ _ _), hp⟩
    · exact ⟨h, .refl s, hp⟩
  unfold Machine.encodeTail
  obtain ⟨hi, hf, hp'⟩ := hg
  generalize encodeTailGroup s = u at hi hf hp'
  have hk' : u.phase.kernel = true := by rw [hp']; rfl
  have hop' := hf.lOp.trans hop
  obtain ⟨h1, h2, h3⟩ := hi.positions.enc hk' hop'
  have hroom := hi.kernel.room hk'
  have hcap := hi.widths.lCap
  rw [State.required, hop'] at hroom
  simp only at hroom ⊢
  have step : ∀ (k : Nat) (w : List Byte), u.ipos + k ≤ u.lN → u.opos + w.length ≤ encodedLen u.lPad u.lN →
      (((u.writeOut u.opos w).advance k w.length).ok (u.opos + w.length)).Inv := by
    intro k w hkn hw
    refine hi.ofDone (((EngineFrame.writeOut u u.opos w).trans (.advance _ k w.length)).trans (.ok _ _)) rfl ?_
      hi.kernel.tierPresent ?_ (fun hne => (hne rfl).elim) hkn (show u.opos + w.length ≤ _ by omega)
    · exact State.MemoryOk.congr (State.MemoryOk.writeOut hi.memory (a := u.opos) (bs := w) (by omega)) rfl rfl rfl
    · show u.opos + w.length < _
      rw [Nat.pow_succ]
      omega
  unfold encodeTailRem
  simp only
  split_ifs with hc1 hc2
  · refine step 1 _ (by omega) ?_
    cases hpad : u.lPad <;> simp [encodedLen] <;> omega
  · refine step 2 _ (by omega) ?_
    cases hpad : u.lPad <;> simp [encodedLen] <;> omega
  · exact step 0 [] (by omega) (by
      have := enc_opos_le u.lPad h2 h3 h1
      simpa using this)

theorem decodeTail_keepsInv {s : State} (h : s.Inv) (hroom : estimateDecodedLen s.lN ≤ s.lCap) :
    ∀ (fuel : Nat) (t : State), EngineFrame s t → t.MemoryOk → t.tier = s.tier → t.ipos ≤ s.lN →
      4 * t.opos = 3 * t.ipos → (s.lN - t.ipos) / 4 ≤ fuel → (decodeTail fuel t).Inv := by
  have hcap := h.widths.lCap
  have htier : ∀ {t : State}, EngineFrame s t → t.tier = s.tier → tierPresent t.cfg t.tier = true := by
    intro t hf ht; rw [hf.cfg, ht]; exact h.kernel.tierPresent
  have hraise : ∀ (t : State) (e : ErrorKind), EngineFrame s t → t.MemoryOk → t.tier = s.tier → t.ipos ≤ s.lN →
      t.opos ≤ estimateDecodedLen s.lN → (t.decRaise e).Inv := fun t e hf hm ht hi ho =>
    h.decRaise hf hroom hm (htier hf ht) hi (by omega) e
  have hemit : ∀ (t : State) (k : Nat) (g : List Byte), EngineFrame s t → t.MemoryOk → t.ipos + k ≤ s.lN →
      t.opos + g.length ≤ estimateDecodedLen s.lN → (t.emit k g).MemoryOk := by
    intro t k g hf hm _ ho
    exact State.MemoryOk.congr (State.MemoryOk.writeOut hm (a := t.opos) (bs := g) (by rw [hf.cfg]; omega)) rfl rfl rfl
  have hlast : ∀ (t : State) (k : Nat) (g : List Byte), EngineFrame s t → t.MemoryOk → t.tier = s.tier →
      t.ipos + k ≤ s.lN → t.opos + g.length ≤ estimateDecodedLen s.lN → (t.emit k g).decOk.Inv :=
    fun t k g hf hm ht hi ho => h.decOk (hf.trans (.emit t k g)) hroom (hemit t k g hf hm hi ho)
      (htier (hf.trans (.emit t k g)) ht) hi ho
  have hrem : ∀ t : State, EngineFrame s t → t.MemoryOk → t.tier = s.tier → t.ipos ≤ s.lN → 4 * t.opos = 3 * t.ipos →
      (s.lN - t.ipos) / 4 = 0 → (decodeTailRem t).Inv := by
    intro t hf hm ht hi ho hz
    have hop := dec_opos_le ho hi
    unfold decodeTailRem
    simp only [hf.lN]
    split_ifs with c1 c2 c3
    · exact h.decOk hf hroom hm (htier hf ht) hi (by omega)
    · exact hraise t _ hf hm ht hi (by omega)
    · rcases decPair_cases t.cfg t.lUrl (t.inByte (t.ipos + 0)) (t.inByte (t.ipos + 1)) with hg | ⟨g, hg, hl⟩ <;> rw [hg]
      · exact hraise t _ hf hm ht hi (by omega)
      · exact hlast t 2 g hf hm ht (by omega) (by omega)
    · simp only [Bool.or_eq_true, decide_eq_true_eq, not_or] at c2
      rcases decTriple_cases t.cfg t.lUrl (t.inByte (t.ipos + 0)) (t.inByte (t.ipos + 1)) (t.inByte (t.ipos + 2))
        with hg | ⟨g, hg, hl⟩ <;> rw [hg]
      · exact hraise t _ hf hm ht hi (by omega)
      · exact hlast t 3 g hf hm ht (by omega) (by omega)
  intro fuel
  induction fuel with
  | zero => exact fun t hf hm ht hi ho hz => hrem t hf hm ht hi ho (by omega)
  | succ fuel ih =>
    intro t hf hm ht hi ho hfuel
    have hop := dec_opos_le ho hi
    unfold decodeTail
    simp only [hf.lN]
    split_ifs with hn hpad
    · rcases decPaddedGroup_cases t.cfg t.lUrl (t.inByte (t.ipos + 0)) (t.inByte (t.ipos + 1)) (t.inByte (t.ipos + 2))
        with hg | ⟨g, hg, hl⟩ <;> rw [hg]
      · exact hraise t _ hf hm ht hi (by omega)
      · simp only
        split
        · exact hraise _ _ (hf.trans (.emit t 4 g)) (hemit t 4 g hf hm hn (by omega)) ht hn
            (show t.opos + g.length ≤ _ by omega)
        · exact hlast t 4 g hf hm ht hn (by omega)
    · rcases decStrictGroup_cases t.cfg t.lUrl (t.inByte (t.ipos + 0)) (t.inByte (t.ipos + 1)) (t.inByte (t.ipos + 2))
        (t.inByte (t.ipos + 3)) with hg | ⟨g, hg, hl⟩ <;> rw [hg]
      · exact hraise t _ hf hm ht hi (by omega)
      · refine ih (t.emit 4 g) (hf.trans (.emit t 4 g)) (hemit t 4 g hf hm hn (by omega)) ht hn ?_ ?_
        · show 4 * (t.opos + g.length) = 3 * (t.ipos + 4)
          omega
        · show (s.lN - (t.ipos + 4)) / 4 ≤ fuel
          omega
    · exact hrem t hf hm ht hi ho (by omega)

/-- Every engine step keeps the invariant. -/
theorem State.Inv.engineStep {s : State} (h : s.Inv) : (engineStep s).Inv := by
  unfold Machine.engineStep
  split_ifs with hb
  swap
  · exact h
  suffices hrow : (engineRow s).Inv from hrow.nextDraw
  unfold engineRow
  split
  · exact h
  · exact h
  · next hp => exact h.checkRow hp
  · next hp => exact h.vloopRow hp
  · next hp => exact h.sloopRow hp
  · next hp =>
    have hk : s.phase.kernel = true := by rw [hp]; rfl
    unfold tailRow
    rcases h.kernel.op hk with hop | hop
    · simp only [hop]
      exact h.encodeTail hp hop
    · have hroom := h.kernel.room hk
      rw [State.required, hop] at hroom
      simp only [hop]
      exact decodeTail_keepsInv h hroom _ s (.refl s) h.memory rfl h.widths.ipos (h.positions.dec hk hop).2.1 (by omega)

theorem State.Inv.runEngine : ∀ (fuel : Nat) {s : State}, s.Inv → (runEngine fuel s).Inv
  | 0, _, h => h
  | fuel + 1, s, h => by
    unfold Machine.runEngine
    split_ifs
    · exact State.Inv.runEngine fuel h.engineStep
    · exact h

theorem State.Inv.launch {s : State} (h : s.Inv) (w : BitVec 4) : (s.launch w).Inv where
  params := h.params
  memory := h.memory.congr rfl rfl rfl
  widths := ⟨h.widths.ilen, h.widths.ocap, by simp, h.widths.ilen, h.widths.ocap, by simp, by simp⟩
  status := ⟨by simp, by simp, by simp⟩
  latch := ⟨fun _ => rfl, fun _ => rfl, fun _ => rfl, fun _ => rfl, fun _ => rfl⟩
  kernel := ⟨by simp [Phase.kernel], by simp [Phase.kernel], h.kernel.tierPresent, by simp⟩
  positions := ⟨by simp, by simp [Phase.kernel], by simp [Phase.kernel], by simp⟩

/-- A whole command keeps the invariant, and always gives a next state. -/
theorem runCommand_keepsInv {s : State} (h : s.Inv) (w : BitVec 4) : ∃ t, runCommand w s = .next t ∧ t.Inv := by
  unfold runCommand
  split_ifs
  · exact ⟨s, rfl, h⟩
  · exact ⟨_, rfl, State.Inv.runEngine _ (h.launch w)⟩

end Sys2Proof.Machine
end

