-- ==== Sys2Proof/Laws/Progress.lean ====
section
/-! SUPPORT. Progress of an operation from any state of the invariant (70_reset_and_hazards.md R296): every row lowers
the number of steps left, and none goes back to P_IDLE. -/

namespace Sys2Proof.Machine

/-- A vector tier has at least one sub-lane (42_vector_kernels.md R180). -/
theorem Tier.subs_pos (t : Tier) (h : t ≠ .scalar) : 1 ≤ t.subs := by cases t <;> simp_all [Tier.subs]

/-- Every row of the phase machine lowers the number of steps left, whatever the host wrote while BUSY (R296). -/
theorem engineRow_stepsLeft {s : State} (h : s.Inv) (hb : s.busy = true) (u : Nat)
    (hu : u = 6 ∧ s.lOp = .enc ∨ u = 8 ∧ s.lOp = .dec) : stepsLeft u (engineRow s) < stepsLeft u s := by
  unfold engineRow
  have hm := Params.wf_margin h.params
  split
  · next hp => simp [State.busy, hp, Phase.busy, Phase.stateCode] at hb
  · next hp => simp [State.busy, hp, Phase.busy, Phase.stateCode] at hb
  · next hp =>
    have hd : stepsLeft u s.dispatch < stepsLeft u s := by
      simp only [stepsLeft, State.dispatch, State.setPhase_phase, State.setPhase_ipos, State.setTier_ipos,
        State.setPhase_lN, State.setTier_lN, hp]
      split_ifs <;> simp
    have he : ∀ e, stepsLeft u (s.raise e) < stepsLeft u s := fun e => by simp [stepsLeft, hp]
    have ho : ∀ m, stepsLeft u (s.ok m) < stepsLeft u s := fun e => by simp [stepsLeft, hp]
    unfold checkRow
    split
    · exact ho _
    · exact ho _
    · split_ifs
      · exact he _
      · exact ho _
      · exact hd
    · split_ifs
      · exact he _
      · exact hd
  · next hp =>
    have ht := h.kernel.vloopTier hp
    have hs := Tier.subs_pos _ ht
    have hv : stepsLeft u (s.setPhase .sloop) < stepsLeft u s := by simp [stepsLeft, hp]
    rcases hu with ⟨rfl, hop⟩ | ⟨rfl, hop⟩
    · rw [vloopRow_enc ht hop]
      split_ifs with hn
      · have e1 : (vectorEncodeChunk s).phase = .vloop := hp
        have e2 : (vectorEncodeChunk s).ipos = s.ipos + s.tier.chunkIn := rfl
        have e3 : (vectorEncodeChunk s).lN = s.lN := rfl
        simp only [stepsLeft, e1, e2, e3, hp]
        simp only [Tier.chunkIn] at *
        omega
      · exact hv
    · rw [vloopRow_dec ht hop]
      split_ifs with hn
      · unfold vectorDecodeChunk
        simp only
        let v := decChunk s.lUrl s.tier.subs s.freeLane (s.readIn s.ipos s.tier.bytes)
        obtain ⟨f1, f2, f3, f4, f5⟩ :=
          storeSubLanes_fields s.tier.subs (s.setVec (s.vec.update s.tier v)) s.opos v.result
        split_ifs
        · simp [stepsLeft, hp]
        · simp only [stepsLeft, State.advance_phase, State.advance_ipos, State.advance_lN, v, f1, f3, f5,
            State.setVec_phase, State.setVec_ipos, State.setVec_lN, hp]
          simp only [Tier.bytes] at *
          omega
      · exact hv
  · next hp =>
    have hv : stepsLeft u (s.setPhase .tail) < stepsLeft u s := by simp [stepsLeft, hp]
    unfold sloopRow
    rcases hu with ⟨rfl, hop⟩ | ⟨rfl, hop⟩
    · simp only [hop]
      split_ifs with hn
      · have e1 : (scalarEncodeStep s).phase = .sloop := hp
        have e2 : (scalarEncodeStep s).ipos = s.ipos + 6 := rfl
        have e3 : (scalarEncodeStep s).lN = s.lN := rfl
        simp only [stepsLeft, e1, e2, e3, hp]
        omega
      · exact hv
    · simp only [hop]
      split_ifs with hn
      · rw [scalarDecodeStep_eq]
        split_ifs
        · simp [stepsLeft, hp]
        · simp [stepsLeft, hp]; omega
      · exact hv
  · next hp =>
    unfold tailRow
    rcases hu with ⟨rfl, hop⟩ | ⟨rfl, hop⟩
    · simp only [hop]; simp [stepsLeft, hp, Machine.encodeTail]
    · simp only [hop]
      simp [stepsLeft, hp, decodeTail_done]

/-- No row of an operation in progress leads to P_IDLE (43_dispatcher.md R225). -/
theorem engineRow_ne_idle {s : State} (h : s.Inv) (hb : s.busy = true) (hu : s.lOp = .enc ∨ s.lOp = .dec) :
    (engineRow s).phase ≠ .idle := by
  intro hidle
  have hdisp : s.dispatch.phase ≠ .idle := by
    simp only [State.dispatch, State.setPhase_phase]; split_ifs <;> simp
  unfold engineRow at hidle
  split at hidle
  · next hp => simp [State.busy, hp, Phase.busy, Phase.stateCode] at hb
  · next hp => rw [hp] at hidle; cases hidle
  · unfold checkRow at hidle
    split at hidle
    · cases hidle
    · cases hidle
    · split_ifs at hidle <;> first | exact hdisp hidle | cases hidle
    · split_ifs at hidle <;> first | exact hdisp hidle | cases hidle
  · next hp =>
    have ht := h.kernel.vloopTier hp
    rcases hu with hop | hop
    · rw [vloopRow_enc ht hop] at hidle
      split_ifs at hidle
      · have e1 : (vectorEncodeChunk s).phase = .vloop := hp
        rw [e1] at hidle; cases hidle
      · cases hidle
    · rw [vloopRow_dec ht hop] at hidle
      split_ifs at hidle
      · unfold vectorDecodeChunk at hidle
        simp only at hidle
        split_ifs at hidle
        · cases hidle
        · rw [State.advance_phase, (storeSubLanes_fields _ _ _ _).1, State.setVec_phase, hp] at hidle; cases hidle
      · cases hidle
  · next hp =>
    unfold sloopRow at hidle
    rcases hu with hop | hop
    · simp only [hop] at hidle
      split_ifs at hidle
      · have e1 : (scalarEncodeStep s).phase = .sloop := hp
        rw [e1] at hidle; cases hidle
      · cases hidle
    · simp only [hop] at hidle
      split_ifs at hidle
      · rw [scalarDecodeStep_eq] at hidle
        split_ifs at hidle
        · cases hidle
        · simp [hp] at hidle
      · cases hidle
  · next hp =>
    unfold tailRow at hidle
    rcases hu with hop | hop
    · simp only [hop] at hidle; cases hidle
    · simp only [hop, decodeTail_done] at hidle; cases hidle

/-- From a state of the invariant an operation has a bounded number of steps left (R296). -/
theorem stepsLeft_le (u : Nat) (s : State) : stepsLeft u s ≤ s.lN / u + 4 := by
  have : (s.lN - s.ipos) / u ≤ s.lN / u := Nat.div_le_div_right (Nat.sub_le _ _)
  unfold stepsLeft
  generalize (s.lN - s.ipos) / u = a at *
  generalize s.lN / u = b at *
  split <;> omega

/-- While BUSY, STATUS reads busy without error and RLEN 0 (R24, R25). -/
theorem State.Inv.status_of_busy {s : State} (hi : s.Inv) (hb : s.busy = true) : s.status = 0b0001#4 ∧ s.rlen = 0 := by
  have he : s.err = none := by
    by_contra hne
    have := hi.status.errDone hne
    simp [State.busy, this, Phase.busy, Phase.stateCode] at hb
  refine ⟨?_, hi.status.busyRlen hb⟩
  have hp : s.phase.stateCode = 1#2 := by simpa [State.busy, Phase.busy] using hb
  unfold State.status
  rw [he, hp]; rfl

/-- A step of an operation in progress leaves it in progress or ends it (R225, R282). -/
theorem engineStep_busy_or_done {s : State} (hi : s.Inv) (hb : s.busy = true) :
    (engineStep s).busy = true ∨ (engineStep s).phase = .done := by
  have h : (engineStep s).phase ≠ .idle := by
    unfold engineStep; rw [if_pos hb]
    show (engineRow s).phase ≠ .idle
    by_cases hop : s.lOp = .enc ∨ s.lOp = .dec
    · exact engineRow_ne_idle hi hb hop
    · have hk : s.phase.kernel = false := by
        by_contra hk
        exact hop (hi.kernel.op (by simpa using hk))
      have hp : s.phase = .check := by
        cases hp : s.phase <;> simp_all [Phase.kernel, State.busy, Phase.busy, Phase.stateCode]
      unfold engineRow; rw [hp]; simp only; unfold checkRow
      cases ho : s.lOp <;> simp_all [State.ok]
  cases hp : (engineStep s).phase <;> simp_all [State.busy, Phase.busy, Phase.stateCode]

end Sys2Proof.Machine
end

