-- ==== Sys2Proof/Laws/Bounds.lean ====
section
/-! SUPPORT. Where a row of the phase machine reads and writes (20_memory.md R59, R60): no byte of IN at or beyond
L_N, no byte of OUT at or beyond the capacity the operation requires. -/

namespace Sys2Proof.Machine

section Reads
variable (m : Memory)

/-- A state with other contents of IN. -/
def State.withIn (s : State) (m : Memory) : State := { s with inMem := m }

theorem withIn_inByte {s : State} (h : ∀ a, a < s.lN → (s.withIn m).inCell a = s.inCell a) {a : Nat} (ha : a < s.lN) :
    (s.withIn m).inByte a = s.inByte a := by
  unfold State.inByte
  rw [h a ha]; rfl

theorem withIn_readIn {s : State} (h : ∀ a, a < s.lN → (s.withIn m).inCell a = s.inCell a) {a k : Nat} (ha :
    a + k ≤ s.lN) :
    (s.withIn m).readIn a k = s.readIn a k := by
  unfold State.readIn
  apply List.map_congr_left
  intro i hi
  have := List.mem_range.mp hi
  exact withIn_inByte m h (by omega)

theorem withIn_decodeTailRem {s : State} (h : ∀ a, a < s.lN → (s.withIn m).inCell a = s.inCell a) :
    decodeTailRem (s.withIn m) = (decodeTailRem s).withIn m := by
  unfold decodeTailRem
  simp only
  have e1 : (s.withIn m).ipos = s.ipos := rfl
  have e2 : (s.withIn m).lN = s.lN := rfl
  have e3 : (s.withIn m).lPad = s.lPad := rfl
  have e4 : (s.withIn m).lUrl = s.lUrl := rfl
  have e5 : (s.withIn m).cfg = s.cfg := rfl
  rw [e1, e2, e3, e4, e5]
  split_ifs with c1 c2 c3
  · rfl
  · rfl
  · rw [withIn_inByte m h (by omega), withIn_inByte m h (by omega)]
    split <;> rfl
  · simp only [Bool.or_eq_true, decide_eq_true_eq, not_or] at c2
    rw [withIn_inByte m h (by omega), withIn_inByte m h (by omega), withIn_inByte m h (by omega)]
    split <;> rfl

theorem withIn_decodeTail : ∀ (f : Nat) {s : State}, (∀ a, a < s.lN → (s.withIn m).inCell a = s.inCell a) →
    decodeTail f (s.withIn m) = (decodeTail f s).withIn m
  | 0, s, h => withIn_decodeTailRem m h
  | f + 1, s, h => by
    unfold decodeTail
    simp only
    have e1 : (s.withIn m).ipos = s.ipos := rfl
    have e2 : (s.withIn m).lN = s.lN := rfl
    have e3 : (s.withIn m).lPad = s.lPad := rfl
    have e4 : (s.withIn m).lUrl = s.lUrl := rfl
    have e5 : (s.withIn m).cfg = s.cfg := rfl
    rw [e1, e2, e4, e5]
    split_ifs with c1 c2 c3 c4
    · rw [withIn_inByte m h (by omega), withIn_inByte m h (by omega), withIn_inByte m h (by omega)]
      split
      · rfl
      · have e6 : ∀ o, ((s.withIn m).emit 4 o).cfg = (s.emit 4 o).cfg := fun _ => rfl
        have e7 : ∀ o, ((s.withIn m).emit 4 o).ipos = (s.emit 4 o).ipos := fun _ => rfl
        have e8 : ∀ o, ((s.withIn m).emit 4 o).lN = (s.emit 4 o).lN := fun _ => rfl
        rw [e7, e8]
        split <;> rfl
    · exact absurd c2 (by rw [withIn_inByte m h (by omega)]; assumption)
    · exact absurd (by assumption) (by rw [← withIn_inByte m h (by omega : s.ipos + 3 < s.lN)]; assumption)
    · rw [withIn_inByte m h (by omega), withIn_inByte m h (by omega), withIn_inByte m h (by omega),
        withIn_inByte m h (by omega)]
      split
      · rfl
      · next g hg =>
        exact withIn_decodeTail f (s := s.emit 4 g) h
    · exact withIn_decodeTailRem m h

theorem withIn_encodeTail {s : State} (h : ∀ a, a < s.lN → (s.withIn m).inCell a = s.inCell a) :
    encodeTail (s.withIn m) = (encodeTail s).withIn m := by
  have hg : encodeTailGroup (s.withIn m) = (encodeTailGroup s).withIn m := by
    unfold encodeTailGroup
    have e1 : (s.withIn m).ipos = s.ipos := rfl
    have e2 : (s.withIn m).lN = s.lN := rfl
    simp only [e1, e2]
    split_ifs with c
    · rw [withIn_inByte m h (by omega), withIn_inByte m h (by omega), withIn_inByte m h (by omega)]; rfl
    · rfl
  have hr : ∀ s : State, (∀ a, a < s.lN → (s.withIn m).inCell a = s.inCell a) → encodeTailRem (s.withIn m) =
      (encodeTailRem s).withIn m := by
    intro s h
    unfold encodeTailRem
    have e1 : (s.withIn m).ipos = s.ipos := rfl
    have e2 : (s.withIn m).lN = s.lN := rfl
    simp only [e1, e2]
    split_ifs with c c'
    · rw [withIn_inByte m h (by omega)]; rfl
    · rw [withIn_inByte m h (by omega), withIn_inByte m h (by omega)]; rfl
    · rfl
  unfold encodeTail
  simp only
  rw [hg, hr _ (by unfold encodeTailGroup; simp only; split_ifs <;> exact h)]
  rfl

theorem withIn_storeSubLanes : ∀ (k : Nat) (s : State) (o : Nat) (w : List Byte),
    storeSubLanes (s.withIn m) o k w = (storeSubLanes s o k w).withIn m
  | 0, _, _, _ => rfl
  | k + 1, s, o, w =>
    withIn_storeSubLanes k (s.writeOut o (w.take 16)) (o + 12) (w.drop 16)

/-- A row reads no byte of IN at or beyond L_N (R59). -/
theorem withIn_engineRow {s : State} (h : ∀ a, a < s.lN → (s.withIn m).inCell a = s.inCell a) :
    engineRow (s.withIn m) = (engineRow s).withIn m := by
  unfold engineRow
  have ep : (s.withIn m).phase = s.phase := rfl
  rw [ep]
  have e1 : (s.withIn m).ipos = s.ipos := rfl
  have e2 : (s.withIn m).lN = s.lN := rfl
  have e3 : (s.withIn m).lOp = s.lOp := rfl
  have e4 : (s.withIn m).tier = s.tier := rfl
  have e5 : (s.withIn m).cfg = s.cfg := rfl
  have e6 : (s.withIn m).lUrl = s.lUrl := rfl
  cases hp : s.phase
  · rfl
  · simp only [checkRow, e2, e3]
    have e6 : (s.withIn m).lCap = s.lCap := rfl
    have e7 : (s.withIn m).required = s.required := rfl
    cases s.lOp <;> simp only [e6, e7] <;> first | rfl | (split_ifs <;> rfl)
  · simp only
    by_cases ht : s.tier = .scalar
    · unfold vloopRow; rw [e4, ht]
    · cases hop : s.lOp
      · unfold vloopRow; rw [e3, e4, hop]; cases hti : s.tier <;> rfl
      · unfold vloopRow; rw [e3, e4, hop]; cases hti : s.tier <;> rfl
      · rw [vloopRow_enc (s := s.withIn m) ht hop, vloopRow_enc ht hop, e1, e2, e4]
        split_ifs with c
        · unfold vectorEncodeChunk
          simp only [e1, e4, e6]
          rw [withIn_readIn m h c]; rfl
        · rfl
      · rw [vloopRow_dec (s := s.withIn m) ht hop, vloopRow_dec ht hop, e1, e2, e4, e5]
        split_ifs with c
        · unfold vectorDecodeChunk
          simp only [e1, e4, e6]
          have e7 : (s.withIn m).freeLane = s.freeLane := rfl
          rw [withIn_readIn m h (by omega), e7]
          split_ifs
          · rfl
          · exact congrArg (fun u => State.advance u s.tier.bytes s.tier.chunkIn)
              (withIn_storeSubLanes m s.tier.subs (s.setVec _) s.opos _)
        · rfl
  · simp only [sloopRow, e3]
    cases hop : s.lOp <;> simp only [e1, e2] <;> split_ifs with c <;> (try rfl)
    · unfold scalarEncodeStep
      simp only [e1, e6]
      rw [withIn_inByte m h (by omega), withIn_inByte m h (by omega), withIn_inByte m h (by omega),
          withIn_inByte m h (by omega), withIn_inByte m h (by omega), withIn_inByte m h (by omega)]; rfl
    · rw [scalarDecodeStep_eq, scalarDecodeStep_eq, e1, e5, e6, withIn_readIn m h (by omega)]
      split_ifs <;> rfl
  · simp only [tailRow, e3]
    cases hop : s.lOp
    · rfl
    · rfl
    · exact withIn_encodeTail m h
    · exact withIn_decodeTail m _ h
  · rfl
end Reads

section Writes

theorem writeOut_beyond (s : State) {a e : Nat} {w : List Byte} (h : a + w.length ≤ e) : ∀ x, e ≤ x →
    (s.writeOut a w).outCell x = s.outCell x :=
  fun x hx => State.outCell_writeOut_outside s (.inr (by omega))

theorem decRaise_beyond (s : State) {e : Nat} (h : estimateDecodedLen s.lN ≤ e) (k : ErrorKind) : ∀ x, e ≤ x →
    (s.decRaise k).outCell x = s.outCell x := by
  intro x hx
  show (s.freeOut 0 _).outCell x = _
  exact State.outCell_freeOut_outside s (.inr (by omega))

theorem decOk_beyond (s : State) {e : Nat} (h : estimateDecodedLen s.lN ≤ e) (ho : s.opos ≤ e) : ∀ x, e ≤ x →
    (s.decOk).outCell x = s.outCell x := by
  intro x hx
  show (s.freeOut s.opos _).outCell x = _
  exact State.outCell_freeOut_outside s (.inr (by omega))

theorem emit_beyond (s : State) {k e : Nat} {w : List Byte} (h : s.opos + w.length ≤ e) : ∀ x, e ≤ x →
    (s.emit k w).outCell x = s.outCell x :=
  writeOut_beyond s h

theorem decodeTailRem_beyond (s : State) (hi : s.ipos ≤ s.lN) (ho : 4 * s.opos = 3 * s.ipos) :
    ∀ x, estimateDecodedLen s.lN ≤ x → (decodeTailRem s).outCell x = s.outCell x := by
  intro x hx
  have hop := dec_opos_le ho hi
  unfold decodeTailRem
  simp only
  split_ifs with c1 c2 c3
  · exact decOk_beyond s (le_refl _) (by omega) x hx
  · exact decRaise_beyond s (le_refl _) _ x hx
  · rcases decPair_cases s.cfg s.lUrl (s.inByte (s.ipos + 0)) (s.inByte (s.ipos + 1)) with hg | ⟨g, hg, hl⟩ <;> rw [hg]
    · exact decRaise_beyond s (le_refl _) _ x hx
    · exact (decOk_beyond (s.emit 2 g) (le_refl _)
        (show s.opos + g.length ≤ estimateDecodedLen s.lN by omega) x hx).trans (emit_beyond s
            (show s.opos + g.length ≤ estimateDecodedLen s.lN by omega) x hx)
  · rcases decTriple_cases s.cfg s.lUrl (s.inByte (s.ipos + 0)) (s.inByte (s.ipos + 1)) (s.inByte
      (s.ipos + 2)) with hg | ⟨g, hg, hl⟩ <;> rw [hg]
    · exact decRaise_beyond s (le_refl _) _ x hx
    · exact (decOk_beyond (s.emit 3 g) (le_refl _)
        (show s.opos + g.length ≤ estimateDecodedLen s.lN by omega) x hx).trans (emit_beyond s
            (show s.opos + g.length ≤ estimateDecodedLen s.lN by omega) x hx)

theorem decodeTail_beyond : ∀ (f : Nat) (s : State), s.ipos ≤ s.lN → 4 * s.opos = 3 * s.ipos →
    (s.lN - s.ipos) / 4 ≤ f → 
    ∀ x, estimateDecodedLen s.lN ≤ x → (decodeTail f s).outCell x = s.outCell x
  | 0, s, hi, ho, hf, x, hx => decodeTailRem_beyond s hi ho x hx
  | f + 1, s, hi, ho, hf, x, hx => by
    have hop := dec_opos_le ho hi
    unfold decodeTail
    simp only
    split_ifs with c1 c2
    · rcases decPaddedGroup_cases s.cfg s.lUrl (s.inByte (s.ipos + 0)) (s.inByte (s.ipos + 1)) (s.inByte
        (s.ipos + 2)) with hg | ⟨g, hg, hl⟩ <;> rw [hg]
      · exact decRaise_beyond s (le_refl _) _ x hx
      · simp only
        have hb := emit_beyond s (k := 4) (w := g) (show s.opos + g.length ≤ estimateDecodedLen s.lN by omega) x hx
        split
        · exact (decRaise_beyond (s.emit 4 g) (le_refl _) _ x hx).trans hb
        · exact (decOk_beyond (s.emit 4 g) (le_refl _)
            (show s.opos + g.length ≤ estimateDecodedLen s.lN by omega) x hx).trans hb
    · rcases decStrictGroup_cases s.cfg s.lUrl (s.inByte (s.ipos + 0)) (s.inByte (s.ipos + 1)) (s.inByte
        (s.ipos + 2)) (s.inByte (s.ipos + 3)) with hg | ⟨g, hg, hl⟩ <;> rw [hg]
      · exact decRaise_beyond s (le_refl _) _ x hx
      · have hb := emit_beyond s (k := 4) (w := g) (show s.opos + g.length ≤ estimateDecodedLen s.lN by omega) x hx
        refine (decodeTail_beyond f (s.emit 4 g) c1 ?_ ?_ x hx).trans hb
        · show 4 * (s.opos + g.length) = 3 * (s.ipos + 4); omega
        · show (s.lN - (s.ipos + 4)) / 4 ≤ f; omega
    · exact decodeTailRem_beyond s hi ho x hx

theorem encodeTail_beyond (s : State) (hi : s.ipos ≤ s.lN) (h3 : s.ipos % 3 = 0) (ho : 3 * s.opos = 4 * s.ipos) :
    ∀ x, encodedLen s.lPad s.lN ≤ x → (encodeTail s).outCell x = s.outCell x := by
  intro x hx
  have hg : (encodeTailGroup s).outCell x = s.outCell x ∧ (encodeTailGroup s).ipos ≤ s.lN ∧
      (encodeTailGroup s).ipos % 3 = 0 ∧ 3 * (encodeTailGroup s).opos = 4 * (encodeTailGroup s).ipos ∧
          (encodeTailGroup s).lN = s.lN ∧ (encodeTailGroup s).lPad = s.lPad := by
    unfold encodeTailGroup
    simp only
    split_ifs with c
    · refine ⟨writeOut_beyond s (e := encodedLen s.lPad s.lN) ?_ x hx, c, by simp; omega, by simp; omega, rfl, rfl⟩
      have := enc_opos_le s.lPad (i := s.ipos + 3) (o := s.opos + 4) (n := s.lN) (by omega) (by omega) (by omega)
      simpa using this
    · exact ⟨rfl, hi, h3, ho, rfl, rfl⟩
  obtain ⟨g1, g2, g3, g4, g5, g6⟩ := hg
  show (encodeTailRem (encodeTailGroup s)).outCell x = _
  rw [← g1]
  generalize encodeTailGroup s = u at *
  rw [← g5, ← g6] at hx
  unfold encodeTailRem
  simp only
  split_ifs with c1 c2
  · refine writeOut_beyond u (e := encodedLen u.lPad u.lN) ?_ x hx
    cases hpad : u.lPad <;> simp [encodedLen] <;> omega
  · refine writeOut_beyond u (e := encodedLen u.lPad u.lN) ?_ x hx
    cases hpad : u.lPad <;> simp [encodedLen] <;> omega
  · rfl

/-- A row writes no byte of OUT at or beyond the capacity required (R60). -/
theorem engineRow_beyond {s : State} (h : s.Inv) : ∀ x, s.required ≤ x → (engineRow s).outCell x = s.outCell x := by
  intro x hx
  have hm := Params.wf_margin h.params
  unfold engineRow
  split
  · rfl
  · rfl
  · unfold checkRow
    split
    · rfl
    · rfl
    · split_ifs <;> rfl
    · split_ifs <;> rfl
  · next hp =>
    have hk : s.phase.kernel = true := by rw [hp]; rfl
    have ht := h.kernel.vloopTier hp
    have hs := Tier.subs_pos _ ht
    rcases h.kernel.op hk with hop | hop
    · rw [State.required, hop] at hx
      simp only at hx
      obtain ⟨h1, h2, h3⟩ := h.positions.enc hk hop
      rw [vloopRow_enc ht hop]
      split_ifs with hn
      · have hl := encChunk_result_length s.lUrl s.tier.subs s.freeLane (s.readIn s.ipos s.tier.chunkIn) (by simp [Tier.chunkIn])
        refine writeOut_beyond (s.setVec _) (e := encodedLen s.lPad s.lN) ?_ x hx
        rw [hl]
        simp only [Tier.chunkIn] at *
        have := enc_opos_le s.lPad (i := s.ipos + 12 * s.tier.subs) (o := s.opos + 16 * s.tier.subs) (n := s.lN)
            (by omega) (by omega) (by omega)
        exact this
      · rfl
    · rw [State.required, hop] at hx
      simp only at hx
      obtain ⟨h1, h2, h3⟩ := h.positions.dec hk hop
      rw [vloopRow_dec ht hop]
      split_ifs with hn
      · unfold vectorDecodeChunk
        simp only
        split_ifs
        · exact decRaise_beyond (s.setVec _) (le_refl _) _ x hx
        · rw [State.advance_outCell]
          obtain ⟨g1, g2, g3⟩ := storeSubLanes_outCell s.tier.subs (s.setVec (s.vec.update s.tier (decChunk s.lUrl s.tier.subs s.freeLane (s.readIn s.ipos s.tier.bytes))))
              s.opos (decChunk s.lUrl s.tier.subs s.freeLane (s.readIn s.ipos s.tier.bytes)).result
              (decChunk_result_length _ _ _ _ (by simp [Tier.bytes]))
          refine g3 x ?_
          have := estimate_room (a := s.ipos + 16 * s.tier.subs) (n := s.lN) (by simp only [Tier.bytes] at hn; omega)
          omega
      · rfl
  · next hp =>
    have hk : s.phase.kernel = true := by rw [hp]; rfl
    unfold sloopRow
    rcases h.kernel.op hk with hop | hop
    · rw [State.required, hop] at hx
      simp only at hx
      obtain ⟨h1, h2, h3⟩ := h.positions.enc hk hop
      simp only [hop]
      split_ifs with hn
      · refine writeOut_beyond s (e := encodedLen s.lPad s.lN) ?_ x hx
        have := enc_opos_le s.lPad (i := s.ipos + 6) (o := s.opos + 8) (n := s.lN) (by omega) (by omega) (by omega)
        simpa using this
      · rfl
    · rw [State.required, hop] at hx
      simp only at hx
      obtain ⟨h1, h2, h3⟩ := h.positions.dec hk hop
      simp only [hop]
      split_ifs with hn
      · rw [scalarDecodeStep_eq]
        split_ifs
        · exact decRaise_beyond (s.setAcc _) (le_refl _) _ x hx
        · refine (storeEight_outCell (s.setAcc _) _).2 x (.inr ?_)
          show s.opos + 7 ≤ x
          have := estimate_room (a := s.ipos + 8) (n := s.lN) (by omega)
          omega
      · rfl
  · next hp =>
    have hk : s.phase.kernel = true := by rw [hp]; rfl
    unfold tailRow
    rcases h.kernel.op hk with hop | hop
    · rw [State.required, hop] at hx
      obtain ⟨h1, h2, h3⟩ := h.positions.enc hk hop
      simp only [hop]
      exact encodeTail_beyond s h3 h1 h2 x hx
    · rw [State.required, hop] at hx
      obtain ⟨h1, h2, h3⟩ := h.positions.dec hk hop
      simp only [hop]
      exact decodeTail_beyond _ s h.widths.ipos h2 (by omega) x hx

end Writes

end Sys2Proof.Machine
end

