-- ==== Sys2Proof/Laws/HostCalls.lean ====
section
/-! SUPPORT. The result of a command as a function of its operands (40_engine_ops.md R110 to R127), of the host
programs that run one (30_encoding.md R102 to R105), and of one chunk of the chunker (44_parallel_chunker.md R242,
R243). -/

namespace Sys2Proof.Machine

/-- What an operation gives (R114, R117, R120, R126): the error, RLEN and, for ENC and DEC, the bytes. -/
def resultOf (p : Params) (op : Op) (url pad : Bool) (n cap : Nat)
    (x : List Byte) : Option ErrorKind × Nat × List Byte :=
  match op with
  | .enclen => (none, encodedLen pad n, [])
  | .decest => (none, estimateDecodedLen n, [])
  | .enc => if cap < encodedLen pad n then (some .bufferTooSmall, 0, []) else (none, encodedLen pad n, encRef url pad x)
  | .dec => if cap < estimateDecodedLen n then (some .bufferTooSmall, 0, []) else
    match decRef p url pad x with
    | .ok o => (none, o.length, o)
    | .error e => (some e, 0, [])

/-- Every command ends with the operation's result (R110). -/
theorem runCommand_result (i : Instr) (s : State) (hb : s.busy = false) (hwf : s.cfg.wf = true) :
    ∃ t, exec i s = .next t ∧ t.err = (resultOf s.cfg i.op i.url i.pad s.ilen s.ocap (s.input s.ilen)).1 ∧
      t.rlen = (resultOf s.cfg i.op i.url i.pad s.ilen s.ocap (s.input s.ilen)).2.1 ∧
      (t.err = none → i.op = .enc ∨ i.op = .dec → t.output t.rlen = (resultOf s.cfg i.op i.url i.pad s.ilen s.ocap
          (s.input s.ilen)).2.2) ∧
      (i.op ≠ .enc → i.op ≠ .dec → t.outCell = s.outCell) := by
  unfold resultOf
  cases hop : i.op with
  | enclen =>
    refine ⟨((s.launch (encode i)).ok (encodedLen (cmdPad (encode i)) s.ilen)).nextDraw, ?_, rfl, rfl, by simp,
        fun _ _ => rfl⟩
    rw [exec_eq, runCommand_enclen hb (show cmdOp (encode i) = .enclen from hop)]
  | decest =>
    refine ⟨((s.launch (encode i)).ok (estimateDecodedLen s.ilen)).nextDraw, ?_, rfl, rfl, by simp, fun _ _ => rfl⟩
    rw [exec_eq, runCommand_decest hb (show cmdOp (encode i) = .decest from hop)]
  | enc =>
    obtain ⟨t, ht, hr, hd⟩ := runCommand_enc hb (show cmdOp (encode i) = .enc from hop)
    refine ⟨t, by rw [exec_eq, ht], ?_⟩
    simp only
    split_ifs with hc
    · have := hr.short hd hc
      exact ⟨this.1, this.2.1, by simp [this.1], by simp⟩
    · have := hr.done hd (not_lt.mp hc)
      exact ⟨this.1, this.2.1, fun _ _ => by rw [this.2.1]; exact this.2.2.2.2, by simp⟩
  | dec =>
    obtain ⟨t, ht, hr, hd⟩ := runCommand_dec hb (show cmdOp (encode i) = .dec from hop) hwf
    refine ⟨t, by rw [exec_eq, ht], ?_⟩
    simp only
    split_ifs with hc
    · have := hr.short hd hc
      exact ⟨this.1, this.2.1, by simp [this.1], by simp⟩
    · have := hr.done hd (not_lt.mp hc)
      have h' : EndsAs (decRef s.cfg i.url i.pad (s.input s.ilen)) t := this
      revert h'
      cases decRef s.cfg i.url i.pad (s.input s.ilen) with
      | error e => exact fun h => ⟨h.1, h.2, by simp [h.1], by simp⟩
      | ok o => exact fun h => ⟨h.1, h.2.1, fun _ _ => by rw [h.2.1]; exact h.2.2.2, by simp⟩

/-- A command ends with STATE DONE (40_engine_ops.md R110). -/
theorem runCommand_done {i : Instr} {s t : State} (hb : s.busy = false) (hwf : s.cfg.wf = true)
    (h : exec i s = .next t) : t.phase = .done := by
  rw [exec_eq] at h
  cases hop : i.op with
  | enclen =>
    rw [runCommand_enclen hb (show cmdOp (encode i) = .enclen from hop)] at h
    injection h with h; rw [← h]; rfl
  | decest =>
    rw [runCommand_decest hb (show cmdOp (encode i) = .decest from hop)] at h
    injection h with h; rw [← h]; rfl
  | enc =>
    obtain ⟨u, hu, _, hp⟩ := runCommand_enc hb (show cmdOp (encode i) = .enc from hop)
    rw [hu] at h; injection h with h; rw [← h]; exact hp
  | dec =>
    obtain ⟨u, hu, _, hp⟩ := runCommand_dec hb (show cmdOp (encode i) = .dec from hop) hwf
    rw [hu] at h; injection h with h; rw [← h]; exact hp

theorem State.busy_of_done {s : State} (h : s.phase = .done) : s.busy = false := by
  simp [State.busy, h, Phase.busy, Phase.stateCode]

/-- Running a block on which nothing is in progress changes nothing (43_dispatcher.md R226). -/
theorem State.complete_of_not_busy {s : State} (h : s.busy = false) : s.complete = s := by
  unfold State.complete
  cases stepBound s.lOp s.lN <;> simp [runEngine, h]

/-- A WAIT that finds DONE ends at once (30_encoding.md R101). -/
theorem State.waitDone_of_done {s : State} (h : s.phase = .done) : s.waitDone = some s := by
  simp [State.waitDone, State.complete_of_not_busy (State.busy_of_done h), h]

/-- A command accepted, and its WAIT: what the command answers (30_encoding.md R102, R103). -/
theorem commandAndWait_of_next {i : Instr} {s t : State} (hb : s.busy = false) (hwf : s.cfg.wf = true)
    (h : exec i s = .next t) : commandAndWait i s = some t := by
  simp only [commandAndWait, h, nextState, bind, Option.bind]
  exact State.waitDone_of_done (runCommand_done hb hwf h)

/-- A command ignored, and its WAIT: the operation in progress is waited for (10_state.md R28; 30_encoding.md R101). -/
theorem commandAndWait_busy {s : State} (i : Instr) (hb : s.busy = true) : commandAndWait i s = s.waitDone := by
  simp only [commandAndWait, exec_eq, runCommand_busy hb, nextState, bind, Option.bind]

/-- The command with given fields has them (R80). -/
theorem ofFields_fields (op : Op) (url pad : Bool) : (Instr.ofFields op url pad).op =
    op ∧ (Instr.ofFields op url pad).url = url ∧ (Instr.ofFields op url pad).pad = pad := by
  cases op <;> cases url <;> cases pad <;> decide

/-- `encode_into` and `decode_into` give the operation's result (30_encoding.md R103). -/
theorem callInto_result (op : Op) (url pad : Bool) (x : List Byte) (cap : Nat) (s : State)
    (hop : op = .enc ∨ op = .dec) (hb : s.busy = false) (hwf : s.cfg.wf = true) (hl : x.length < 2 ^ s.cfg.lenw)
    (hc : cap < 2 ^ s.cfg.lenw) :
    ∃ t, callInto op url pad x cap s
        = some ((match (resultOf s.cfg op url pad x.length cap x).1 with
            | none => .ok (resultOf s.cfg op url pad x.length cap x).2.2
            | some e => .error e), t) ∧
      t.busy = false ∧ t.cfg = s.cfg := by
  have hloc : s.located 0 x.length = true := by
    simp only [State.located, Bool.or_eq_true, decide_eq_true_eq]; right; omega
  set u := s.fill 0 x with hu
  have hub : u.busy = false := hb
  set w := hostWrite 3 cap (hostWrite 2 x.length u) with hw'
  have hw : w = { u with ilen := x.length, ocap := cap } := by
    have hub2 : ({ u with ilen := x.length } : State).busy = false := hb
    have e1 : hostWrite 2 x.length u = { u with ilen := x.length } := by
      simp only [hostWrite, hub]
      have : x.length % 2 ^ u.cfg.lenw = x.length := Nat.mod_eq_of_lt hl
      rw [this]; rfl
    rw [hw', e1]
    simp only [hostWrite, hub2]
    have : cap % 2 ^ u.cfg.lenw = cap := Nat.mod_eq_of_lt hc
    rw [this]; rfl
  have hwb : w.busy = false := by rw [hw]; exact hb
  have hwn : w.ilen = x.length := by rw [hw]
  have hwc : w.ocap = cap := by rw [hw]
  have hwcfg : w.cfg = s.cfg := by rw [hw]; rfl
  have hin : w.input x.length = x := by
    have : w.input x.length = u.input x.length := by rw [hw]; rfl
    rw [this]
    apply List.ext_getElem
    · simp
    · intro k k1 k2
      simp only [State.input, List.getElem_map, List.getElem_range]
      show u.inCell k = _
      simp [hu, State.inCell, State.fill, Memory.get_store, k2]
  obtain ⟨f1, f2, f3⟩ := ofFields_fields op url pad
  obtain ⟨t, ht, h1, h2, h3, h4⟩ := runCommand_result (Instr.ofFields op url pad) w hwb (by rw [hwcfg]; exact hwf)
  rw [f1, f2, f3, hwcfg, hwn, hwc, hin] at h1 h2
  rw [f1, f2, f3, hwcfg, hwn, hwc, hin] at h3
  refine ⟨t, ?_, ?_, ?_⟩
  · simp only [callInto, hostFillIn, hloc, if_true, nextState, bind, Option.bind]
    rw [← hw', commandAndWait_of_next hwb (by rw [hwcfg]; exact hwf) ht]
    simp only [pure]
    congr 2
    unfold State.result
    rw [h1]
    cases hr : (resultOf s.cfg op url pad x.length cap x).1 with
    | none => simp only; rw [h3 (by rw [h1, hr]) hop]
    | some e => rfl
  · exact State.busy_of_done (runCommand_done hwb (by rw [hwcfg]; exact hwf) ht)
  · rw [exec_eq, runCommand_idle hwb] at ht
    injection ht with ht
    rw [← ht, (EngineFrame.complete _).cfg]
    exact hwcfg

/-- The length functions give the lengths (30_encoding.md R102). -/
theorem callLength_result (op : Op) (url pad : Bool) (n : Nat) (s : State) (hb : s.busy = false)
    (hop : op = .enclen ∨ op = .decest) (hl : n < 2 ^ s.cfg.lenw) :
    ∃ t, callLength op url pad n s = some ((if op = .enclen then encodedLen pad n else estimateDecodedLen n), t) ∧
        t.busy = false ∧ t.cfg = s.cfg := by
  have e1 : hostWrite 2 n s = { s with ilen := n } := by
    simp only [hostWrite, hb]
    have : n % 2 ^ s.cfg.lenw = n := Nat.mod_eq_of_lt hl
    rw [this]; rfl
  obtain ⟨f1, f2, f3⟩ := ofFields_fields op url pad
  have hb' : ({ s with ilen := n } : State).busy = false := hb
  have key : ∀ t, exec (Instr.ofFields op url pad) { s with ilen := n } = .next t → t.phase = .done →
      callLength op url pad n s = some (t.regValue 4, t) := by
    intro t ht hd
    simp only [callLength, commandAndWait, e1, ht, nextState, bind, Option.bind, State.waitDone_of_done hd, pure]
  rcases hop with rfl | rfl
  · have h := key _ ((exec_eq _ _).trans (runCommand_enclen hb' f1)) rfl
    refine ⟨_, h.trans (congrArg some (Prod.ext ?_ rfl)), rfl, rfl⟩
    show encodedLen (cmdPad (encode (Instr.ofFields .enclen url pad))) n = _
    rw [show cmdPad (encode (Instr.ofFields .enclen url pad)) = pad from f3]; rfl
  · exact ⟨_, key _ ((exec_eq _ _).trans (runCommand_decest hb' f1)) rfl, rfl, rfl⟩

/-- One chunk of a chunked encode (44_parallel_chunker.md R242). -/
theorem chunkResult_enc (url pad : Bool) (x : List Byte) (b : State) (hb : b.busy = false) (hwf : b.cfg.wf =
    true) (hx : x.length < 2 ^ b.cfg.lenw) (he : encodedLen pad x.length < 2 ^ b.cfg.lenw) :
    chunkResult .enc url pad x b = some (.ok (encRef url pad x)) := by
  obtain ⟨t, ht, _⟩ := callInto_result .enc url pad x (encodedLen pad x.length) b (.inl rfl) hb hwf hx he
  unfold chunkResult
  simp only [if_true]
  rw [ht]
  simp [resultOf]

/-- One chunk of a chunked decode (44_parallel_chunker.md R243). -/
theorem chunkResult_dec (url pad : Bool) (x : List Byte) (b : State) (hb : b.busy = false) (hwf : b.cfg.wf =
    true) (hx : x.length < 2 ^ b.cfg.lenw) (he : estimateDecodedLen x.length < 2 ^ b.cfg.lenw) :
    chunkResult .dec url pad x b = some (decRef b.cfg url pad x) := by
  obtain ⟨t, ht, _⟩ := callInto_result .dec url pad x (estimateDecodedLen x.length) b (.inr rfl) hb hwf hx he
  unfold chunkResult
  simp only
  rw [show (if Op.dec = Op.enc then encodedLen pad x.length else estimateDecodedLen x.length) =
      estimateDecodedLen x.length from rfl, ht]
  simp only [resultOf, lt_irrefl, if_false, Option.map_some]
  cases decRef b.cfg url pad x <;> rfl

theorem encodedLen_mono (pad : Bool) {m n : Nat} (h : m ≤ n) : encodedLen pad m ≤ encodedLen pad n := by
  cases pad <;> simp only [encodedLen] <;> simp <;> omega

theorem estimateDecodedLen_mono {m n : Nat} (h : m ≤ n) : estimateDecodedLen m ≤ estimateDecodedLen n := by
  unfold estimateDecodedLen; omega

end Sys2Proof.Machine
end

