-- ==== Sys2Proof/Laws/PerInstr.lean ====
section
/-! SUPPORT. What holds of every command as syntax (30_encoding.md R80, R82, R85, R100), one lemma per constructor. -/

namespace Sys2Proof.Laws.CommandFields

/-- A command is well formed; its word decodes to it and is the only word that does; the word's fields are the
command's; the byte that carries it decodes to it (R80, R82, R85). -/
def Statement (i : Instr) : Prop :=
  i.wf = true ∧ decode (encode i) = i ∧ (∀ w : BitVec 4, decode w = i → w = encode i) ∧
    i = Instr.ofFields i.op i.url i.pad ∧ decodeByte i.byte = .ok i ∧
    (encode i).toNat = (if i.pad then 8 else 0) + (if i.url then 4 else 0)
      + (match i.op with | .enclen => 0 | .decest => 1 | .enc => 2 | .dec => 3)

/-- ENCLEN.SN. -/
theorem enclenSN : Statement Instr.enclenSN := by unfold Statement; decide

/-- DECEST.SN. -/
theorem decestSN : Statement Instr.decestSN := by unfold Statement; decide

/-- ENC.SN. -/
theorem encSN : Statement Instr.encSN := by unfold Statement; decide

/-- DEC.SN. -/
theorem decSN : Statement Instr.decSN := by unfold Statement; decide

/-- ENCLEN.UN. -/
theorem enclenUN : Statement Instr.enclenUN := by unfold Statement; decide

/-- DECEST.UN. -/
theorem decestUN : Statement Instr.decestUN := by unfold Statement; decide

/-- ENC.UN. -/
theorem encUN : Statement Instr.encUN := by unfold Statement; decide

/-- DEC.UN. -/
theorem decUN : Statement Instr.decUN := by unfold Statement; decide

/-- ENCLEN.SP. -/
theorem enclenSP : Statement Instr.enclenSP := by unfold Statement; decide

/-- DECEST.SP. -/
theorem decestSP : Statement Instr.decestSP := by unfold Statement; decide

/-- ENC.SP. -/
theorem encSP : Statement Instr.encSP := by unfold Statement; decide

/-- DEC.SP. -/
theorem decSP : Statement Instr.decSP := by unfold Statement; decide

/-- ENCLEN.UP. -/
theorem enclenUP : Statement Instr.enclenUP := by unfold Statement; decide

/-- DECEST.UP. -/
theorem decestUP : Statement Instr.decestUP := by unfold Statement; decide

/-- ENC.UP. -/
theorem encUP : Statement Instr.encUP := by unfold Statement; decide

/-- DEC.UP. -/
theorem decUP : Statement Instr.decUP := by unfold Statement; decide

end Sys2Proof.Laws.CommandFields
end

