-- ==== Sys2Proof/Laws/Registers.lean ====
section
/-! SUPPORT. Which registers each row of the phase machine (43_dispatcher.md R225) may change: TIER only P_CHECK, ACC
only P_SLOOP of a DEC, the vector registers only P_VLOOP, ERR and RLEN only at the end. -/

namespace Sys2Proof.Machine

/-- TIER, ACC and the vector registers are the same in both states (R32, R34, R35). -/
structure Keeps (s t : State) : Prop where
  tier : t.tier = s.tier
  acc : t.acc = s.acc
  vec : t.vec = s.vec

theorem Keeps.trans {s t u : State} (h : Keeps s t) (h' : Keeps t u) : Keeps s u :=
  ⟨h'.tier.trans h.tier, h'.acc.trans h.acc, h'.vec.trans h.vec⟩

theorem keeps_storeSubLanes : ∀ (k : Nat) (s : State) (o : Nat) (w : List Byte),
    Keeps s (storeSubLanes s o k w) ∧ (storeSubLanes s o k w).err = s.err ∧ (storeSubLanes s o k w).rlen = s.rlen
  | 0, _, _, _ => ⟨⟨rfl, rfl, rfl⟩, rfl, rfl⟩
  | k + 1, s, o, w => by
    obtain ⟨a, b, c⟩ := keeps_storeSubLanes k (s.writeOut o (w.take 16)) (o + 12) (w.drop 16)
    exact ⟨⟨a.tier, a.acc, a.vec⟩, b, c⟩

theorem keeps_encodeTail (s : State) : Keeps s (encodeTail s) := by
  have h1 : Keeps s (encodeTailGroup s) := by
    unfold encodeTailGroup; split_ifs <;> exact ⟨rfl, rfl, rfl⟩
  have h2 : ∀ s, Keeps s (encodeTailRem s) := by
    intro s; unfold encodeTailRem; split_ifs <;> exact ⟨rfl, rfl, rfl⟩
  exact (h1.trans (h2 _)).trans ⟨rfl, rfl, rfl⟩

theorem keeps_decodeTailRem (s : State) : Keeps s (decodeTailRem s) := by
  unfold decodeTailRem
  simp only
  split_ifs
  · exact ⟨rfl, rfl, rfl⟩
  · exact ⟨rfl, rfl, rfl⟩
  · split <;> exact ⟨rfl, rfl, rfl⟩
  · split <;> exact ⟨rfl, rfl, rfl⟩

theorem keeps_decodeTail : ∀ (fuel : Nat) (s : State), Keeps s (decodeTail fuel s)
  | 0, s => keeps_decodeTailRem s
  | fuel + 1, s => by
    unfold decodeTail
    simp only
    split_ifs
    · split
      · exact ⟨rfl, rfl, rfl⟩
      · split <;> exact ⟨rfl, rfl, rfl⟩
    · split
      · exact ⟨rfl, rfl, rfl⟩
      · have k := keeps_decodeTail fuel (s.emit 4 ‹List Byte›)
        exact ⟨k.tier, k.acc, k.vec⟩
    · exact keeps_decodeTailRem s

/-- Which registers a row of the phase machine may change, and where (R225). -/
structure RowChanges (s t : State) : Prop where
  tier : t.tier ≠ s.tier → s.phase = .check
  acc : t.acc ≠ s.acc → s.phase = .sloop ∧ s.lOp = .dec
  vec : t.vec ≠ s.vec → s.phase = .vloop
  kern : t.ipos ≠ s.ipos ∨ t.opos ≠ s.opos ∨ t.outMem ≠ s.outMem → s.phase.kernel = true
  fin : t.err ≠ s.err ∨ t.rlen ≠ s.rlen → t.phase = .done

/-- Every row of R225. -/
theorem engineRow_changes (s : State) : RowChanges s (engineRow s) := by
  unfold engineRow
  cases hp : s.phase
  case idle => exact ⟨by simp, by simp, by simp, by simp, by simp⟩
  case done => exact ⟨by simp, by simp, by simp, by simp, by simp⟩
  case check =>
    have key : ∀ t : State, t.acc = s.acc → t.vec = s.vec → t.ipos = s.ipos → t.opos = s.opos → t.outMem = s.outMem →
        (t.err = s.err ∧ t.rlen = s.rlen ∨ t.phase = .done) → RowChanges s t := by
      intro t a b c d e f
      refine ⟨fun _ => hp, by simp [a], by simp [b], by simp [c, d, e], fun h => ?_⟩
      rcases f with ⟨f, g⟩ | f
      · simp [f, g] at h
      · exact f
    simp only
    unfold checkRow
    split
    · exact key _ rfl rfl rfl rfl rfl (.inr rfl)
    · exact key _ rfl rfl rfl rfl rfl (.inr rfl)
    · split_ifs
      · exact key _ rfl rfl rfl rfl rfl (.inr rfl)
      · exact key _ rfl rfl rfl rfl rfl (.inr rfl)
      · exact key _ rfl rfl rfl rfl rfl (.inl ⟨rfl, rfl⟩)
    · split_ifs
      · exact key _ rfl rfl rfl rfl rfl (.inr rfl)
      · exact key _ rfl rfl rfl rfl rfl (.inl ⟨rfl, rfl⟩)
  case vloop =>
    have key : ∀ t : State, t.tier = s.tier → t.acc = s.acc →
        (t.err = s.err ∧ t.rlen = s.rlen ∨ t.phase = .done) → RowChanges s t := by
      intro t a b f
      refine ⟨by simp [a], by simp [b], fun _ => hp, fun _ => by simp [hp, Phase.kernel], fun h => ?_⟩
      rcases f with ⟨f, g⟩ | f
      · simp [f, g] at h
      · exact f
    have hd : RowChanges s (vectorDecodeChunk s) := by
      unfold vectorDecodeChunk
      simp only
      split
      · exact key _ rfl rfl (.inr rfl)
      · have ⟨a, b, c⟩ := keeps_storeSubLanes s.tier.subs (s.setVec (s.vec.update s.tier (decChunk s.lUrl s.tier.subs s.freeLane (s.readIn s.ipos s.tier.bytes))))
          s.opos (decChunk s.lUrl s.tier.subs s.freeLane (s.readIn s.ipos s.tier.bytes)).result
        exact key _ a.tier a.acc (.inl ⟨b, c⟩)
    simp only
    unfold vloopRow
    split
    · exact key _ rfl rfl (.inl ⟨rfl, rfl⟩)
    · split_ifs <;> exact key _ rfl rfl (.inl ⟨rfl, rfl⟩)
    · split_ifs
      · exact hd
      · exact key _ rfl rfl (.inl ⟨rfl, rfl⟩)
    · exact key _ rfl rfl (.inl ⟨rfl, rfl⟩)
    · exact key _ rfl rfl (.inl ⟨rfl, rfl⟩)
  case sloop =>
    have key : ∀ t : State, t.tier = s.tier → t.vec = s.vec → (t.acc = s.acc ∨ s.lOp = .dec) →
        (t.err = s.err ∧ t.rlen = s.rlen ∨ t.phase = .done) → RowChanges s t := by
      intro t a b c f
      refine ⟨by simp [a], fun h => ⟨hp, ?_⟩, by simp [b], fun _ => by simp [hp, Phase.kernel], fun h => ?_⟩
      · rcases c with c | c
        · exact absurd c h
        · exact c
      rcases f with ⟨f, g⟩ | f
      · simp [f, g] at h
      · exact f
    simp only
    unfold sloopRow
    split
    · split_ifs <;> exact key _ rfl rfl (.inl rfl) (.inl ⟨rfl, rfl⟩)
    · rename_i ho
      split_ifs
      · rw [scalarDecodeStep_eq]
        split_ifs
        · exact key _ rfl rfl (.inr ho) (.inr rfl)
        · exact key _ (by simp) rfl (.inr ho) (.inl ⟨by simp, by simp⟩)
      · exact key _ rfl rfl (.inl rfl) (.inl ⟨rfl, rfl⟩)
    · exact key _ rfl rfl (.inl rfl) (.inl ⟨rfl, rfl⟩)
    · exact key _ rfl rfl (.inl rfl) (.inl ⟨rfl, rfl⟩)
  case tail =>
    have key : ∀ t : State, Keeps s t →
        (t.err = s.err ∧ t.rlen = s.rlen ∨ t.phase = .done) → RowChanges s t := by
      intro t a f
      refine ⟨by simp [a.tier], by simp [a.acc], by simp [a.vec], fun _ => by simp [hp, Phase.kernel], fun h => ?_⟩
      rcases f with ⟨f, g⟩ | f
      · simp [f, g] at h
      · exact f
    simp only
    unfold tailRow
    split
    · exact key _ (keeps_encodeTail s) (.inr rfl)
    · exact key _ (keeps_decodeTail _ s) (.inr (decodeTail_done _ _))
    · exact key _ ⟨rfl, rfl, rfl⟩ (.inl ⟨rfl, rfl⟩)
    · exact key _ ⟨rfl, rfl, rfl⟩ (.inl ⟨rfl, rfl⟩)

/-- An ENC never writes ACC (R34, R170, R172, R185). -/
theorem runEngine_enc_acc : ∀ (fuel : Nat) (s : State), s.lOp = .enc → (runEngine fuel s).acc = s.acc
  | 0, _, _ => rfl
  | fuel + 1, s, h => by
    unfold runEngine
    split
    · rename_i hb
      rw [runEngine_enc_acc fuel _ ((EngineFrame.engineStep s).lOp.trans h)]
      by_contra hn
      have := (engineRow_changes s).acc (by
        unfold engineStep at hn; rw [if_pos hb] at hn; exact hn)
      rw [h] at this; exact absurd this.2 (by decide)
    · rfl

end Sys2Proof.Machine
end

