-- ==== Sys2Proof/Laws/Widths.lean ====
section
/-! SUPPORT. The vector working registers have their tier's width (10_state.md R35): every stage of a sub-lane fills 16
byte lanes, a chunk of `k` sub-lanes `16 k`, and what one chunk step leaves in the registers of the tiers. -/

namespace Sys2Proof.Machine

/-- Every working register of a tier has `n` byte lanes. -/
def VecRegs.Lanes (n : Nat) (v : VecRegs) : Prop := ∀ r ∈ v.registers, r.length = n

theorem VecRegs.Lanes.append {m n : Nat} {a b : VecRegs} (ha : a.Lanes m) (hb : b.Lanes n) :
    (a.append b).Lanes (m + n) := by
  simp only [VecRegs.Lanes, VecRegs.registers, List.mem_cons, List.not_mem_nil, or_false, forall_eq_or_imp, forall_eq,
    VecRegs.append, List.length_append] at *
  omega

/-- A failed chunk keeps the width (R199). -/
theorem VecRegs.Lanes.failed {n : Nat} {v : VecRegs} (h : v.Lanes n) (g : Nat → Nat → Byte) : (v.failed g n).Lanes n := by
  simp only [VecRegs.Lanes, VecRegs.registers, List.mem_cons, List.not_mem_nil, or_false, forall_eq_or_imp, forall_eq,
    VecRegs.failed, freeLanes_length, true_and, and_true] at *
  tauto

theorem encSubLane_lanes (url : Bool) (g : Nat → Nat → Byte) (x : List Byte) (h : x.length = 12) :
    (encSubLane url g x).Lanes 16 := by
  simp [VecRegs.Lanes, VecRegs.registers, encSubLane, shuffleBytes, encPattern, lanes32, h, bytes32]

theorem decSubLane_lanes (url : Bool) (g : Nat → Nat → Byte) (x : List Byte) (h : x.length = 16) :
    (decSubLane url g x).Lanes 16 := by
  obtain ⟨a0, a1, a2, a3, a4, a5, a6, a7, a8, a9, a10, a11, a12, a13, a14, a15, rfl⟩ :
      ∃ a0 a1 a2 a3 a4 a5 a6 a7 a8 a9 a10 a11 a12 a13 a14 a15,
        x = [a0, a1, a2, a3, a4, a5, a6, a7, a8, a9, a10, a11, a12, a13, a14, a15] := by
    match x, h with
    | [a0, a1, a2, a3, a4, a5, a6, a7, a8, a9, a10, a11, a12, a13, a14, a15], _ =>
      exact ⟨a0, a1, a2, a3, a4, a5, a6, a7, a8, a9, a10, a11, a12, a13, a14, a15, rfl⟩
  simp [VecRegs.Lanes, VecRegs.registers, decSubLane, shuffleBytes, packPattern, pairLanes, quadLanes, bytes32, bytes16]

/-- A chunk of `k` sub-lanes has 16 lanes for each (R207). -/
theorem onSubLanes_lanes {f : (Nat → Nat → Byte) → List Byte → VecRegs} {sub : Nat}
    (hf : ∀ g x, x.length = sub → (f g x).Lanes 16) :
    ∀ (k : Nat) (g : Nat → Nat → Byte) (x : List Byte), x.length = sub * k → (onSubLanes f sub k g x).Lanes (16 * k)
  | 0, _, _, _ => by simp [VecRegs.Lanes, onSubLanes, VecRegs.empty, VecRegs.zero, VecRegs.registers]
  | k + 1, g, x, h => by
    have := (hf g (x.take sub) (by rw [List.length_take, h, Nat.mul_succ]; omega)).append
      (onSubLanes_lanes hf k (fun r i => g r (16 + i)) (x.drop sub)
        (by rw [List.length_drop, h, Nat.mul_succ]; omega))
    rwa [show 16 + 16 * k = 16 * (k + 1) by omega] at this

/-- The registers of the tier just replaced. -/
theorem VecUnits.regs_update (u : VecUnits) {t : Tier} (v : VecRegs) (h : t ≠ .scalar) : (u.update t v).regs t = v := by
  cases t <;> first | contradiction | rfl

/-- The registers of the other tiers. -/
theorem VecUnits.regs_update_ne (u : VecUnits) {t t' : Tier} (v : VecRegs) (h : t' ≠ t) :
    (u.update t v).regs t' = u.regs t' := by
  cases t <;> cases t' <;> first | contradiction | rfl

/-- What an encode chunk step leaves in the vector registers (R185). -/
theorem engineStep_vec_enc {s : State} (hp : s.phase = .vloop) (ht : s.tier ≠ .scalar) (hop : s.lOp = .enc)
    (hn : s.ipos + s.tier.chunkIn ≤ s.lN) :
    (engineStep s).vec
      = s.vec.update s.tier (encChunk s.lUrl s.tier.subs s.freeLane (s.readIn s.ipos s.tier.chunkIn)) := by
  have hb : s.busy = true := by simp [State.busy, hp, Phase.busy, Phase.stateCode]
  simp only [engineStep, if_pos hb, engineRow, hp]
  rw [vloopRow_enc ht hop, if_pos hn]
  rfl

/-- What a decode chunk step leaves in the vector registers (R196, R199). -/
theorem engineStep_vec_dec {s : State} (hp : s.phase = .vloop) (ht : s.tier ≠ .scalar) (hop : s.lOp = .dec)
    (hn : s.ipos + s.tier.bytes + s.cfg.vdecMargin ≤ s.lN) :
    (engineStep s).vec
      = s.vec.update s.tier (let v := decChunk s.lUrl s.tier.subs s.freeLane (s.readIn s.ipos s.tier.bytes)
          if chunkFails v then v.failed s.freeLane s.tier.bytes else v) := by
  have hb : s.busy = true := by simp [State.busy, hp, Phase.busy, Phase.stateCode]
  simp only [engineStep, if_pos hb, engineRow, hp]
  rw [vloopRow_dec ht hop, if_pos hn]
  simp only [vectorDecodeChunk]
  split_ifs
  · rfl
  · exact (keeps_storeSubLanes _ _ _ _).1.vec

end Sys2Proof.Machine
end

