-- ==== Sys2Proof/Tests/Slice0.lean ====
section
/-! SUPPORT. Tests: ill-formed data refused, every command word decoded, one operation per command with the expected
values of spec/95_test_vectors.md (T, V entries) or of a rule's own example, and for each obligation with hypotheses a
state that meets them. -/

namespace Sys2Proof.Tests

open Sys2Proof.Machine

/-! ### Helpers -/

/-- A block after reset whose host has filled IN and set ILEN and OCAP. -/
def block (input : List Byte) (cap : Nat) : State :=
  { State.reset with inMem := Memory.store [] 0 input, ilen := input.length, ocap := cap }

/-- A block after reset whose host has set ILEN. -/
def lengthBlock (n : Nat) : State := { State.reset with ilen := n }

/-- STATUS and RLEN after a step. -/
def regsAfter : Host.Outcome State Fault Refusal → Option (Nat × Nat)
  | .next t => some (t.status.toNat, t.rlen)
  | _ => none

/-- STATUS and `OUT[0..RLEN)` after a step. -/
def outAfter : Host.Outcome State Fault Refusal → Option (Nat × List Byte)
  | .next t => some (t.status.toNat, t.output t.rlen)
  | _ => none

/-- `Hello world` (T1). -/
def hello : List Byte := [0x48, 0x65, 0x6C, 0x6C, 0x6F, 0x20, 0x77, 0x6F, 0x72, 0x6C, 0x64]

/-- `SGVsbG8gd29ybGQ=` (T1). -/
def hello64 : List Byte :=
  [0x53, 0x47, 0x56, 0x73, 0x62, 0x47, 0x38, 0x67, 0x64, 0x32, 0x39, 0x79, 0x62, 0x47, 0x51, 0x3D]

/-- `Hello world!` (V3, V20). -/
def helloBang : List Byte := hello ++ [0x21]

/-- `SGVsbG8gd29ybGQh` (V3, V21). -/
def helloBang64 : List Byte := hello64.take 14 ++ [0x51, 0x68]

/-! ### Well-formedness: one ill-formed datum for each check, refused (00_scope.md R8) -/

theorem test_wf_reference : Params.reference.wf = true := by decide
theorem test_wf_lenw : ({ Params.reference with lenw := 7 } : Params).wf = false := by decide
theorem test_wf_minlen128 : ({ Params.reference with minlen128 := 15 } : Params).wf = false := by decide
theorem test_wf_minlen256 : ({ Params.reference with minlen256 := 31 } : Params).wf = false := by decide
theorem test_wf_minlen512 : ({ Params.reference with minlen512 := 63 } : Params).wf = false := by decide
theorem test_wf_margin : ({ Params.reference with vdecMargin := 3 } : Params).wf = false := by decide
theorem test_wf_invalid_bit7 : ({ Params.reference with invalid := 0x7F#8 } : Params).wf = false := by decide
theorem test_wf_invalid_bit6 : ({ Params.reference with invalid := 0xBF#8 } : Params).wf = false := by decide
theorem test_wf_par : (ParParams.mk 0 3 8).wf = true := by decide
theorem test_wf_par_enc_zero : (ParParams.mk 0 0 8).wf = false := by decide
theorem test_wf_par_enc_multiple : (ParParams.mk 0 4 8).wf = false := by decide
theorem test_wf_par_dec_zero : (ParParams.mk 0 3 0).wf = false := by decide
theorem test_wf_par_dec_multiple : (ParParams.mk 0 3 4).wf = false := by decide
theorem test_wf_command : Event.wf Params.reference (.command 0x10#8) = false := by decide
theorem test_wf_write_cmd : Event.wf Params.reference (.write 0 16) = false := by decide
theorem test_wf_write_status : Event.wf Params.reference (.write 1 16) = false := by decide
theorem test_wf_write_ilen : Event.wf Params.reference (.write 2 (2 ^ 64)) = false := by decide
theorem test_wf_write_ocap : Event.wf Params.reference (.write 3 (2 ^ 64)) = false := by decide
theorem test_wf_write_rlen : Event.wf Params.reference (.write 4 (2 ^ 65)) = false := by decide
theorem test_wf_write_caps : Event.wf Params.reference (.write 5 8) = false := by decide
theorem test_wf_fillIn : Event.wf Params.reference (.fillIn (2 ^ 64) [0#8]) = false := by decide
theorem test_wf_readOut : Event.wf Params.reference (.readOut 1 (2 ^ 64)) = false := by decide

/-! ### Decoding: every word of the opcode map, PAD, URL, OP written out (30_encoding.md R80, R85) -/

theorem test_decode_enclenSN : decode 0b0000#4 = .enclenSN := by decide
theorem test_decode_decestSN : decode 0b0001#4 = .decestSN := by decide
theorem test_decode_encSN : decode 0b0010#4 = .encSN := by decide
theorem test_decode_decSN : decode 0b0011#4 = .decSN := by decide
theorem test_decode_enclenUN : decode 0b0100#4 = .enclenUN := by decide
theorem test_decode_decestUN : decode 0b0101#4 = .decestUN := by decide
theorem test_decode_encUN : decode 0b0110#4 = .encUN := by decide
theorem test_decode_decUN : decode 0b0111#4 = .decUN := by decide
theorem test_decode_enclenSP : decode 0b1000#4 = .enclenSP := by decide
theorem test_decode_decestSP : decode 0b1001#4 = .decestSP := by decide
theorem test_decode_encSP : decode 0b1010#4 = .encSP := by decide
theorem test_decode_decSP : decode 0b1011#4 = .decSP := by decide
theorem test_decode_enclenUP : decode 0b1100#4 = .enclenUP := by decide
theorem test_decode_decestUP : decode 0b1101#4 = .decestUP := by decide
theorem test_decode_encUP : decode 0b1110#4 = .encUP := by decide
theorem test_decode_decUP : decode 0b1111#4 = .decUP := by decide

/-- A byte with a bit above bit 3 is no CMD4 word (R80; log 22). -/
theorem test_decode_wide : decodeByte 0x1A#8 = .error (.widerThanCmd4 0x1A#8) := by decide

theorem test_decodeTableWord : decodeTableWord 8 0x0B = some .decSP := by decide

/-! ### Commands -/

/-- V1, `n = 4`, not padded. -/
theorem test_enclenSN : regsAfter (exec .enclenSN (lengthBlock 4)) = some (0x2, 6) := by decide
/-- V1, `n = 1`, not padded. -/
theorem test_enclenUN : regsAfter (exec .enclenUN (lengthBlock 1)) = some (0x2, 2) := by decide
/-- T2, `n = 1`, padded. -/
theorem test_enclenSP : regsAfter (exec .enclenSP (lengthBlock 1)) = some (0x2, 4) := by decide
/-- V1, `n = 2^64 - 1`: the result needs RLEN's 65th bit. -/
theorem test_enclenUP : regsAfter (exec .enclenUP (lengthBlock 18446744073709551615)) = some (0x2, 24595658764946068820) := by
  decide
/-- V2, `n = 0`. -/
theorem test_decestSN : regsAfter (exec .decestSN (lengthBlock 0)) = some (0x2, 3) := by decide
/-- V2, `n = 16`. -/
theorem test_decestUN : regsAfter (exec .decestUN (lengthBlock 16)) = some (0x2, 15) := by decide
/-- V2, `n = 255`. -/
theorem test_decestSP : regsAfter (exec .decestSP (lengthBlock 255)) = some (0x2, 192) := by decide
/-- V2, `n = 2^64 - 1`. -/
theorem test_decestUP : regsAfter (exec .decestUP (lengthBlock 18446744073709551615)) = some (0x2, 13835058055282163712) := by
  decide

/-- V3, `FB FF`: `+/8`. -/
theorem test_encSN : outAfter (exec .encSN (block [0xFB, 0xFF] 3)) = some (0x2, [0x2B, 0x2F, 0x38]) := by decide
/-- V3, `FF`: `_w`. -/
theorem test_encUN : outAfter (exec .encUN (block [0xFF] 2)) = some (0x2, [0x5F, 0x77]) := by decide
/-- V4: all 64 indices, two V256 chunks. -/
theorem test_encUN_vector : outAfter (exec .encUN (block
    [0x69, 0xB7, 0x1D, 0x79, 0xF8, 0x21, 0x8A, 0x39, 0x25, 0x9A, 0x7A, 0x29, 0xAA, 0xBB, 0x2D, 0xBA, 0xFC,
     0x31, 0xCB, 0x30, 0x01, 0x08, 0x31, 0x05, 0x18, 0x72, 0x09, 0x28, 0xB3, 0x0D, 0x38, 0xF4, 0x11, 0x49,
     0x35, 0x15, 0x59, 0x76, 0x19, 0xD3, 0x5D, 0xB7, 0xE3, 0x9E, 0xBB, 0xF3, 0xDF, 0xBF] 64))
    = some (0x2,
    [0x61, 0x62, 0x63, 0x64, 0x65, 0x66, 0x67, 0x68, 0x69, 0x6A, 0x6B, 0x6C, 0x6D, 0x6E, 0x6F, 0x70, 0x71,
     0x72, 0x73, 0x74, 0x75, 0x76, 0x77, 0x78, 0x79, 0x7A, 0x41, 0x42, 0x43, 0x44, 0x45, 0x46, 0x47, 0x48,
     0x49, 0x4A, 0x4B, 0x4C, 0x4D, 0x4E, 0x4F, 0x50, 0x51, 0x52, 0x53, 0x54, 0x55, 0x56, 0x57, 0x58, 0x59,
     0x5A, 0x30, 0x31, 0x32, 0x33, 0x34, 0x35, 0x36, 0x37, 0x38, 0x39, 0x2D, 0x5F]) := by
  decide
/-- T1. -/
theorem test_encSP : outAfter (exec .encSP (block hello 16)) = some (0x2, hello64) := by decide
/-- V5, `OCAP = 7`: one byte short. -/
theorem test_encSP_short : regsAfter (exec .encSP (block [0x4D, 0x61, 0x6E, 0x4D] 7)) = some (0xE, 0) := by decide
/-- V3, `FB FF BF`: `-_-_`. -/
theorem test_encUP : outAfter (exec .encUP (block [0xFB, 0xFF, 0xBF] 4)) = some (0x2, [0x2D, 0x5F, 0x2D, 0x5F]) := by
  decide

/-- V6, `TWFuTQ`: a remainder of two. -/
theorem test_decSN : outAfter (exec .decSN (block [0x54, 0x57, 0x46, 0x75, 0x54, 0x51] 6))
    = some (0x2, [0x4D, 0x61, 0x6E, 0x4D]) := by decide
/-- V6, `-_8`: a remainder of three. -/
theorem test_decUN : outAfter (exec .decUN (block [0x2D, 0x5F, 0x38] 3)) = some (0x2, [0xFB, 0xFF]) := by decide
/-- V22: one V256 chunk of two sub-lanes, then the tail. -/
theorem test_decUN_vector : outAfter (exec .decUN (block
    [0x51, 0x55, 0x4A, 0x44, 0x52, 0x45, 0x56, 0x47, 0x52, 0x30, 0x68, 0x4A, 0x53, 0x6B, 0x74, 0x4D, 0x54,
     0x55, 0x35, 0x50, 0x55, 0x46, 0x46, 0x53, 0x55, 0x31, 0x52, 0x56, 0x56, 0x6C, 0x64, 0x59, 0x57, 0x56,
     0x6F, 0x3D] 30))
    = some (0x2,
    [0x41, 0x42, 0x43, 0x44, 0x45, 0x46, 0x47, 0x48, 0x49, 0x4A, 0x4B, 0x4C, 0x4D, 0x4E, 0x4F, 0x50, 0x51,
     0x52, 0x53, 0x54, 0x55, 0x56, 0x57, 0x58, 0x59, 0x5A]) := by
  decide
/-- T1. -/
theorem test_decSP : outAfter (exec .decSP (block hello64 15)) = some (0x2, hello) := by decide
/-- V6, `A*A`: a short remainder is not examined when padding is required. -/
theorem test_decSP_length : regsAfter (exec .decSP (block [0x41, 0x2A, 0x41] 3)) = some (0x6, 0) := by decide
/-- T3, `Abc-`, valid under the URL-safe alphabet. -/
theorem test_decUP : outAfter (exec .decUP (block [0x41, 0x62, 0x63, 0x2D] 6)) = some (0x2, [0x01, 0xB7, 0x3E]) := by decide
/-- V8, `****` with a capacity of 5: the size check comes first. -/
theorem test_decUP_short : regsAfter (exec .decUP (block [0x2A, 0x2A, 0x2A, 0x2A] 5)) = some (0xE, 0) := by decide
/-- T3, `Abc-` under the standard alphabet. -/
theorem test_decSN_alphabet : regsAfter (exec .decSN (block [0x41, 0x62, 0x63, 0x2D] 6)) = some (0xA, 0) := by decide

/-- V7, `TQ==` and a line feed, TERMINATE_OK. -/
theorem test_postPad_terminateOk : decRef Params.reference false true [0x54, 0x51, 0x3D, 0x3D, 0x0A] = .ok [0x4D] := by decide
/-- V7, the same, REJECT. -/
theorem test_postPad_reject :
    decRef { Params.reference with postPad := .reject } false true [0x54, 0x51, 0x3D, 0x3D, 0x0A]
      = .error .invalidCharacter := by decide

/-! ### The vector stages (V20, V21) -/

/-- Lanes for what a stage leaves unspecified; no test looks at them. -/
def noLanes : Nat → Nat → Byte := fun _ _ => 0xEE#8

theorem test_stage_shuffle : (encSubLane false noLanes helloBang).shuffled
    = [0x65, 0x48, 0x6C, 0x65, 0x6F, 0x6C, 0x20, 0x6F, 0x6F, 0x77, 0x72, 0x6F, 0x64, 0x6C, 0x21, 0x64] := by decide
theorem test_stage_mulhi : lanes32 (encSubLane false noLanes helloBang).product1
    = [0x00150012, 0x003C001B, 0x003D001D, 0x0010001B] := by decide
theorem test_stage_mullo : lanes32 (encSubLane false noLanes helloBang).product2
    = [0x2C000600, 0x20000600, 0x32003600, 0x21000600] := by decide
theorem test_stage_characters : (encSubLane false noLanes helloBang).result = helloBang64 := by decide
theorem test_stage_index : (decSubLane false noLanes helloBang64).index
    = [0x12, 0x06, 0x15, 0x2C, 0x1B, 0x06, 0x3C, 0x20, 0x1D, 0x36, 0x3D, 0x32, 0x1B, 0x06, 0x10, 0x21] := by decide
theorem test_stage_multiplyAdd : pairLanes (decSubLane false noLanes helloBang64).index
    = [0x0486, 0x056C, 0x06C6, 0x0F20, 0x0776, 0x0F72, 0x06C6, 0x0421] := by decide
theorem test_stage_widen : lanes32 (decSubLane false noLanes helloBang64).product2
    = [0x0048656C, 0x006C6F20, 0x00776F72, 0x006C6421] := by decide
theorem test_stage_pack : (decSubLane false noLanes helloBang64).result.take 12 = helloBang := by decide

/-! ### Step and fetch -/

/-- A word placed in the state after reset is the next step's command (V1, `n = 0`, padded). -/
theorem test_step_reset : regsAfter (step (State.reset.withFetchWord 8 0x08)) = some (0x2, 0) := by decide
/-- T1 through `step`. -/
theorem test_step_encSP : outAfter (step ((block hello 16).withFetchWord 8 0x0A)) = some (0x2, hello64) := by decide
/-- 43_dispatcher.md R226: with no operation the engine takes no step. -/
theorem test_step_idle : step State.reset = .next State.reset := by rfl

/-! ### Witnesses: for each obligation with hypotheses, a state and operands that meet them, clause by clause -/

/-- Twenty characters, `QUJDREVGR0hJSktMTU4=` (V9). -/
def twenty : List Byte :=
  [0x51, 0x55, 0x4A, 0x44, 0x52, 0x45, 0x56, 0x47, 0x52, 0x30, 0x68, 0x4A, 0x53, 0x6B, 0x74, 0x4D, 0x54, 0x55, 0x34, 0x3D]

/-- A block whose outside does one thing next. -/
def facing (s : State) (e : Event) : State := s.setEvents [e]

/-- A block with an operation in progress: ENC.SP of `Hello world`. -/
def busyEnc : State := (block hello 16).launch 0xA#4

/-- A block with an operation in progress: DEC.SP of twenty characters. -/
def busyDec : State := (block twenty 18).launch 0xB#4

theorem witness_inv : (block hello 16).Inv where
  params := by decide
  memory := by constructor <;> decide
  widths := by constructor <;> decide
  status := by constructor <;> decide
  latch := by constructor <;> decide
  kernel := by constructor <;> decide
  positions := by constructor <;> decide

theorem witness_inv_busy : busyEnc.Inv ∧ busyEnc.busy = true := ⟨witness_inv.launch _, by decide⟩

theorem witness_inv_dec : (block twenty 18).Inv where
  params := by decide
  memory := by constructor <;> decide
  widths := by constructor <;> decide
  status := by constructor <;> decide
  latch := by constructor <;> decide
  kernel := by constructor <;> decide
  positions := by constructor <;> decide

theorem witness_DecodeAndEncodeAgree_clause4 : 16 ≤ (0x10#8).toNat ∧ 16 ≤ (0xFF#8).toNat := by decide

theorem witness_StepRunsTheDecodedCommand_clause1 :
    (facing State.reset (.command 0x0F#8)).events = .command 0x0F#8 :: [] ∧ decodeByte 0x0F#8 = .ok .decUP := by decide
theorem witness_StepRunsTheDecodedCommand_clause2 :
    (facing State.reset (.command 0x10#8)).events = .command 0x10#8 :: [] ∧
      decodeByte 0x10#8 = .error (.widerThanCmd4 0x10#8) := by decide
theorem witness_StepRunsTheDecodedCommand_clause3 : State.reset.busy = false := by decide

theorem witness_AlphabetClosedForm : alpha true 0#6 = alpha true 0#6 := rfl

theorem witness_DecodeTableInvertsAlphabet : Params.reference.invalidMarked = true ∧ alpha false 63#6 = 0x2F#8 ∧
    (∀ i : Sextet, alpha false i ≠ 0x3D#8) ∧ 0x80 ≤ (0x80#8).toNat := by decide

theorem witness_EncodingsComposeAtGroups : ([1#8, 2#8, 3#8] : List Byte).length % 3 = 0 := by decide

theorem witness_EncodedLengthForms : 2 ≤ 3 := by decide

theorem witness_ExternalResetAbandonsTheOperation : (facing busyEnc .reset).events = .reset :: [] := rfl

theorem witness_HostReadsReturnTheRegister (reg : Nat) : (facing busyEnc (.read reg)).events = .read reg :: [] := rfl

theorem witness_HostWritesFollowTheAccessTable_busy :
    (facing busyEnc (.write 0 3)).events = .write 0 3 :: [] ∧ (facing busyEnc (.write 0 3)).busy = true := by decide
theorem witness_HostWritesFollowTheAccessTable_ilen :
    (facing State.reset (.write 2 (2 ^ 64 - 1))).busy = false ∧ 2 ^ 64 - 1 < 2 ^ State.reset.cfg.lenw := by decide
theorem witness_HostWritesFollowTheAccessTable_ocap :
    (facing State.reset (.write 3 0)).busy = false ∧ 0 < 2 ^ State.reset.cfg.lenw := by decide
theorem witness_HostWritesFollowTheAccessTable_ignored :
    (facing busyEnc (.write 6 1)).events = .write 6 1 :: [] ∧ (6 = 1 ∨ 6 = 4 ∨ 6 = 5 ∨ 6 ≤ 6) := by decide

theorem witness_WritingCmdLaunches :
    (facing State.reset (.write 0 (0xF#4).toNat)).events = .write 0 (0xF#4).toNat :: [] ∧
      (facing State.reset (.write 0 (0xF#4).toNat)).busy = false := by decide

theorem witness_FillInWritesItsBytesOnly_inside :
    (2 ^ 64 - 1) + [7#8].length ≤ 2 ^ State.reset.cfg.lenw ∧
      (facing State.reset (.fillIn (2 ^ 64 - 1) [7#8])).busy = false := by decide
theorem witness_FillInWritesItsBytesOnly_outside :
    ([7#8, 8#8] : List Byte) ≠ [] ∧ 2 ^ State.reset.cfg.lenw < (2 ^ 64 - 1) + [7#8, 8#8].length := by decide

theorem witness_ReadOutReturnsOut_idle :
    (2 ^ 64 - 1) + 1 ≤ 2 ^ State.reset.cfg.lenw ∧ (facing State.reset (.readOut (2 ^ 64 - 1) 1)).busy = false := by decide
theorem witness_ReadOutReturnsOut_busy :
    0 + 1 ≤ 2 ^ busyEnc.cfg.lenw ∧ (facing busyEnc (.readOut 0 1)).busy = true := by decide
theorem witness_ReadOutReturnsOut_outside : 1 ≠ 0 ∧ 2 ^ State.reset.cfg.lenw < 2 ^ 64 + 1 := by decide

theorem witness_InWriteWhileBusyIsOldOrNew :
    (facing busyEnc (.fillIn 10 [1#8, 2#8])).busy = true ∧ (facing busyEnc (.fillIn 10 [1#8, 2#8])).inRace = [] ∧
      10 + [1#8, 2#8].length ≤ 2 ^ busyEnc.cfg.lenw := by decide
theorem witness_InWriteWhileBusyIsOldOrNew_outside :
    (facing busyEnc (.fillIn 11 [1#8])).busy = true ∧ busyEnc.lN ≤ 11 := by decide

theorem witness_WellBehavedHostNeverRaces :
    (facing State.reset (.fillIn 0 [1#8])).inRace = [] ∧ (facing State.reset (.fillIn 0 [1#8])).hostObliges ∧
      ∃ t, step (facing State.reset (.fillIn 0 [1#8])) = .next t :=
  ⟨rfl, (by decide : State.reset.busy = false), _, rfl⟩

theorem witness_EnclenLeavesTheLength :
    [Instr.enclenSN, .enclenUN, .enclenSP, .enclenUP].all (fun i => decide (i.op = .enclen)) = true ∧
      (lengthBlock 0).busy = false := by decide
theorem witness_DecestLeavesTheEstimate :
    [Instr.decestSN, .decestUN, .decestSP, .decestUP].all (fun i => decide (i.op = .decest)) = true ∧
      (lengthBlock 0).busy = false := by decide

theorem witness_EncCompletesWithTheEncoding :
    [Instr.encSN, .encUN, .encSP, .encUP].all (fun i => decide
      (i.op = .enc ∧ (block hello 16).busy = false ∧ encodedLen i.pad (block hello 16).ilen ≤ (block hello 16).ocap))
      = true := by decide
theorem witness_EncWithShortCapacityIsRefused :
    [Instr.encSN, .encUN, .encSP, .encUP].all (fun i => decide
      (i.op = .enc ∧ (block hello 14).busy = false ∧ (block hello 14).ocap < encodedLen i.pad (block hello 14).ilen))
      = true := by decide
theorem witness_EncOfNothingWritesNothing :
    Instr.encSP.op = .enc ∧ State.reset.busy = false ∧ State.reset.ilen = 0 := by decide

theorem witness_DecCompletesWithTheBytes :
    [Instr.decSN, .decUN, .decSP, .decUP].all (fun i => decide
      (i.op = .dec ∧ (block hello64 15).busy = false ∧ (block hello64 15).cfg.wf = true ∧
        estimateDecodedLen (block hello64 15).ilen ≤ (block hello64 15).ocap)) = true ∧
    decRef Params.reference false true ((block hello64 15).input 16) = .ok hello ∧
    decRef Params.reference true true ((block hello64 15).input 16) = .ok hello := by decide
theorem witness_DecEndsWithTheError_capacity :
    Instr.decSP.op = .dec ∧ (block hello64 14).busy = false ∧
      (block hello64 14).ocap < estimateDecodedLen (block hello64 14).ilen := by decide
theorem witness_DecEndsWithTheError_length :
    estimateDecodedLen (block hello 9).ilen ≤ (block hello 9).ocap ∧
      decRef Params.reference false true ((block [0x41#8] 3).input 1) = .error .invalidLength := by decide
theorem witness_DecEndsWithTheError_character :
    estimateDecodedLen (block hello 9).ilen ≤ (block hello 9).ocap ∧
      decRef (block hello 9).cfg Instr.decSN.url Instr.decSN.pad ((block hello 9).input (block hello 9).ilen)
        = .error .invalidCharacter := by decide

theorem witness_CommandWhileBusyIsIgnored : busyEnc.busy = true := by decide

theorem witness_WaysAnOperationEnds : (block hello 16).busy = false ∧ (block hello 16).cfg.wf = true := by decide
theorem witness_CommandIsLaunchThenSteps : (block hello64 15).busy = false ∧ (block hello64 15).cfg.wf = true := by decide

theorem witness_NoHiddenState :
    (block hello 16).busy = false ∧ { block hello 16 with rlen := 9, phase := .done }.busy = false ∧
      { block hello 16 with rlen := 9, phase := .done }.input 11 = (block hello 16).input 11 := by decide

theorem witness_TiersAreEquivalent :
    (block hello64 15).busy = false ∧ (block hello64 15).cfg.wf = true ∧ 16 ≤ 16 ∧ 32 ≤ 33 ∧ 64 ≤ 64 ∧ 4 ≤ 5 := by decide

theorem witness_DecodeOfEncodeIsTheInput :
    Params.reference.invalidMarked = true ∧ Instr.encSP.op = .enc ∧ Instr.decSP.op = .dec ∧
      Instr.decSP.url = Instr.encSP.url ∧ Instr.decSP.pad = Instr.encSP.pad ∧ (block hello 16).busy = false ∧
      (block hello 16).cfg.wf = true ∧ (block hello 16).ilen < 2 ^ (block hello 16).cfg.lenw ∧
      encodedLen true (block hello 16).ilen < 2 ^ (block hello 16).cfg.lenw ∧
      encodedLen true (block hello 16).ilen ≤ (block hello 16).ocap ∧ 15 < 2 ^ (block hello 16).cfg.lenw ∧
      estimateDecodedLen (encodedLen true (block hello 16).ilen) ≤ 15 := by decide

/-- A block in P_CHECK of an ENC of `n` bytes. -/
def checking (n : Nat) : State := ({ State.reset with ilen := n, ocap := 2 * n + 4 } : State).launch 0x2#4

theorem witness_TheWidestPresentTierIsSelected :
    [15, 16, 31, 32, 63, 64].all (fun n => decide ((checking n).phase = .check ∧ (checking n).lOp = .enc ∧
      (checking n).lN ≠ 0 ∧ (checking n).required ≤ (checking n).lCap)) = true := by decide
theorem witness_TheWidestPresentTierIsSelected_512 :
    (checking 64).cfg.caps.getLsbD 2 = true ∧ (checking 64).cfg.minlen512 ≤ (checking 64).lN := by decide
theorem witness_TheWidestPresentTierIsSelected_256 :
    ¬(checking 63).cfg.minlen512 ≤ (checking 63).lN ∧ (checking 63).cfg.caps.getLsbD 1 = true ∧
      (checking 63).cfg.minlen256 ≤ (checking 63).lN := by decide
theorem witness_TheWidestPresentTierIsSelected_128 :
    ¬(checking 31).cfg.minlen256 ≤ (checking 31).lN ∧ (checking 31).cfg.caps.getLsbD 0 = true ∧
      (checking 31).cfg.minlen128 ≤ (checking 31).lN := by decide
theorem witness_TheWidestPresentTierIsSelected_scalar : ¬(checking 15).cfg.minlen128 ≤ (checking 15).lN := by decide
theorem witness_TheWidestPresentTierIsSelected_other : State.reset.phase ≠ .check := by decide

/-- A kernel phase of an operation, at position 0. -/
def inKernel (s : State) (t : Tier) (p : Phase) : State := (s.setTier t).setPhase p

/-- ENC of sixteen bytes in P_VLOOP on V128. -/
def encLoop : State := inKernel ((block hello64 24).launch 0xA#4) .v128 .vloop

/-- DEC of twenty characters in P_VLOOP on V128. -/
def decLoop : State := inKernel busyDec .v128 .vloop

/-- DEC of twenty bytes outside the alphabet in P_VLOOP on V128. -/
def badLoop : State := inKernel ((block (List.replicate 20 0x2A#8) 18).launch 0xB#4) .v128 .vloop

theorem witness_VectorChunkDoesWhatATierOwes_enc :
    encLoop.phase = .vloop ∧ encLoop.tier ≠ .scalar ∧ encLoop.inRace = [] ∧ encLoop.cfg.wf = true ∧ encLoop.lOp = .enc ∧
      encLoop.ipos + encLoop.tier.chunkIn ≤ encLoop.lN := by decide
theorem witness_VectorChunkDoesWhatATierOwes_dec :
    decLoop.phase = .vloop ∧ decLoop.tier ≠ .scalar ∧ decLoop.inRace = [] ∧ decLoop.cfg.wf = true ∧ decLoop.lOp = .dec ∧
      decLoop.ipos + decLoop.tier.bytes + decLoop.cfg.vdecMargin ≤ decLoop.lN ∧
      ∀ x ∈ decLoop.readIn 0 16, dt decLoop.cfg.invalid false x ≠ decLoop.cfg.invalid := by decide
theorem witness_VectorChunkDoesWhatATierOwes_fail :
    badLoop.phase = .vloop ∧ badLoop.tier ≠ .scalar ∧ badLoop.lOp = .dec ∧
      badLoop.ipos + badLoop.tier.bytes + badLoop.cfg.vdecMargin ≤ badLoop.lN ∧
      ∃ x ∈ badLoop.readIn 0 16, dt badLoop.cfg.invalid false x = badLoop.cfg.invalid := by decide

theorem witness_VectorStagesComputeTheirFunctions :
    encLoop.phase = .vloop ∧ encLoop.tier ≠ .scalar ∧ encLoop.cfg.wf = true ∧
      encLoop.ipos + encLoop.tier.chunkIn ≤ encLoop.lN ∧ 4 * 3 < encLoop.tier.bytes := by decide
theorem witness_VectorStagesComputeTheirFunctions_dec :
    decLoop.phase = .vloop ∧ decLoop.tier ≠ .scalar ∧ decLoop.cfg.wf = true ∧ 15 < decLoop.tier.bytes ∧
      decLoop.ipos + decLoop.tier.bytes + decLoop.cfg.vdecMargin ≤ decLoop.lN ∧
      ∀ x ∈ decLoop.readIn 0 16, ∃ j, alpha false j = x := by decide

/-- ENC of eleven bytes in P_SLOOP. -/
def encScalar : State := inKernel busyEnc .scalar .sloop

/-- DEC of twenty characters in P_SLOOP. -/
def decScalar : State := inKernel busyDec .scalar .sloop

theorem witness_ScalarFastStepsMoveSixAndEight_enc :
    encScalar.phase = .sloop ∧ encScalar.inRace = [] ∧ encScalar.cfg.wf = true ∧ encScalar.lOp = .enc ∧
      encScalar.ipos + 6 ≤ encScalar.lN := by decide
theorem witness_ScalarFastStepsMoveSixAndEight_dec :
    decScalar.phase = .sloop ∧ decScalar.inRace = [] ∧ decScalar.cfg.wf = true ∧ decScalar.lOp = .dec ∧
      decScalar.ipos + 12 ≤ decScalar.lN ∧
      ∀ x ∈ decScalar.readIn 0 8, dt decScalar.cfg.invalid false x ≠ decScalar.cfg.invalid := by decide
theorem witness_ScalarFastStepsMoveSixAndEight_fail :
    (badLoop.setPhase .sloop).ipos + 12 ≤ (badLoop.setPhase .sloop).lN ∧
      ∃ x ∈ (badLoop.setPhase .sloop).readIn 0 8, dt badLoop.cfg.invalid false x = badLoop.cfg.invalid := by decide

/-- ENC.SP of `Hello world` after its first fast step. -/
def encLater : State := engineStep (engineStep busyEnc)

theorem witness_EngineStepChangesOnlyItsRegisters :
    (engineStep (checking 64)).tier ≠ (checking 64).tier ∧ (engineStep decScalar).acc ≠ decScalar.acc ∧
      (engineStep encLoop).vec ≠ encLoop.vec ∧ (engineStep encScalar).ipos ≠ encScalar.ipos ∧
      (engineStep badLoop).err ≠ badLoop.err ∧ State.reset.busy = false := by decide

theorem witness_PositionsAndDataAtEveryStep_enc :
    (block hello 16).busy = false ∧ (block hello 16).cfg.wf = true ∧
      (engineStep^[2] ((block hello 16).launch (encode .encSP))).busy = true := by decide
theorem witness_PositionsAndDataAtEveryStep_dec :
    (block twenty 18).busy = false ∧ (engineStep^[1] ((block twenty 18).launch (encode .decSP))).phase.kernel = true ∧
      (engineStep^[4] ((block twenty 18).launch (encode .decSP))).phase = .tail := by decide

theorem witness_EngineReadsInsideTheInput :
    ∀ a, a < encScalar.lN →
      ({ encScalar with inMem := encScalar.inMem ++ [(99, 1#8)] } : State).inCell a = encScalar.inCell a := by decide

theorem witness_EngineWritesInsideTheOutput : busyEnc.Inv ∧ busyEnc.busy = true := witness_inv_busy
theorem witness_EveryOperationEndsInTime : busyDec.Inv ∧ busyDec.busy = true := ⟨witness_inv_dec.launch _, by decide⟩
theorem witness_WaitSeesDone :
    (facing busyDec .wait).Inv ∧ (facing busyDec .wait).phase ≠ .idle ∧ (facing busyDec .wait).events = .wait :: [] :=
  ⟨(witness_inv_dec.launch _).setEvents _, by decide, rfl⟩

theorem witness_EachElementHasItsWriters :
    step (facing busyEnc .engine) = .next (engineStep (busyEnc.setEvents [])) ∧
      ∀ rest, (facing busyEnc .engine).events ≠ .reset :: rest := ⟨rfl, fun _ h => by cases h⟩
theorem witness_StatusChangesAtLaunchAndCompletion :
    (facing (block hello 16) (.write 0 10)).Inv ∧
      step (facing (block hello 16) (.write 0 10)) = .next ((block hello 16).setEvents [] |>.launch 10#4) ∧
      ((block hello 16).setEvents [] |>.launch 10#4).status ≠ (facing (block hello 16) (.write 0 10)).status :=
  ⟨witness_inv.setEvents _, rfl, by decide⟩
theorem witness_StepKeepsTheVectorWidths : busyDec.VectorsOk ∧ step busyDec = .next (engineStep busyDec) :=
  ⟨by constructor <;> decide, rfl⟩
theorem witness_StepKeepsTheData :
    encLater.Inv ∧ encLater.inRace = [] ∧ encLater.hostObliges ∧ encLater.DataOk ∧ encLater.phase.kernel = true ∧
      encLater.opos = 8 ∧ step encLater = .next (engineStep encLater) :=
  ⟨(witness_inv.launch _).engineStep.engineStep, by decide, trivial, ⟨by decide, by decide, by decide, by decide⟩,
    by decide, by decide, rfl⟩
theorem witness_DecodedGroupsByTheShiftFormulas :
    Params.reference.invalidMarked = true ∧ (0b010011#6) >>> 4 = (0b010000#6) >>> 4 ∧
      (0b010011#6) >>> 2 = (0b010000#6) >>> 2 := by decide
theorem witness_StepKeepsTheInvariant : busyDec.Inv ∧ step busyDec = .next (engineStep busyDec) :=
  ⟨witness_inv_dec.launch _, rfl⟩

theorem witness_DecodeAcceptsExactlyTheseInputs : Params.reference.invalidMarked = true := by decide
theorem witness_WindowDoesNotMatterUnderReject :
    { Params.reference with postPad := .reject }.invalidMarked = true ∧
      { Params.reference with postPad := .reject }.postPad = .reject ∧ 4 % 4 = 0 ∧ 4 ≤ hello64.length - 4 := by decide
theorem witness_DecodingsComposeAtMultiplesOfEight :
    Params.reference.invalidMarked = true ∧ (∀ c ∈ hello64.take 8, ∃ j, alpha false j = c) ∧
      (hello64.take 8).length % 8 = 0 := by decide
theorem witness_DecodingsComposeAtMultiplesOfEight_reject :
    { Params.reference with postPad := .reject }.invalidMarked = true ∧ (∀ c ∈ hello64.take 4, ∃ j, alpha true j = c) ∧
      (hello64.take 4).length % 4 = 0 := by decide
theorem witness_DecodedLengthIsBelowTheEstimate : decRef Params.reference false true hello64 = .ok hello := by decide
theorem witness_DecodeErrorsHaveTheirCauses_length :
    Params.reference.invalidMarked = true ∧ decRef Params.reference false true [0x41, 0x41] = .error .invalidLength := by
  decide
theorem witness_DecodeErrorsHaveTheirCauses_character :
    Params.reference.invalidMarked = true ∧
      decRef Params.reference false false [0x41, 0x3D] = .error .invalidCharacter := by decide

theorem witness_HostCallsReturnTheFunctions :
    State.reset.busy = false ∧ State.reset.cfg.wf = true ∧ 2 ^ 64 - 1 < 2 ^ State.reset.cfg.lenw ∧
      hello64.length < 2 ^ State.reset.cfg.lenw ∧ encodedLen true hello64.length < 2 ^ State.reset.cfg.lenw ∧
      estimateDecodedLen hello64.length < 2 ^ State.reset.cfg.lenw := by decide
theorem witness_HostCallsWaitForTheOperationInProgress :
    busyEnc.Inv ∧ busyEnc.busy = true ∧ [1#8].length ≤ 2 ^ busyEnc.cfg.lenw :=
  ⟨witness_inv_busy.1, witness_inv_busy.2, by decide⟩
/-- R102 on a block that runs ENC.SP of 11 bytes: the WAIT is for it, and RLEN is its 16 (R113). -/
theorem test_callLength_waits :
    (callLength .enclen false false 100 busyEnc).map (fun r => (r.1, r.2.phase)) = some (16, .done) := by decide
theorem witness_ChunkedEncodeIsSerial :
    (ParParams.mk 4 3 8).wf = true ∧ ∀ k : Nat, ((fun _ => State.reset : Nat → State) k).busy = false ∧
      ((fun _ => State.reset : Nat → State) k).cfg.wf = true ∧
      hello.length < 2 ^ ((fun _ => State.reset : Nat → State) k).cfg.lenw ∧
      encodedLen true hello.length < 2 ^ ((fun _ => State.reset : Nat → State) k).cfg.lenw :=
  ⟨by decide, fun _ => (by decide : State.reset.busy = false ∧ State.reset.cfg.wf = true ∧
    hello.length < 2 ^ State.reset.cfg.lenw ∧ encodedLen true hello.length < 2 ^ State.reset.cfg.lenw)⟩
theorem witness_ChunkedDecodeIsSerial :
    (ParParams.mk 4 3 8).wf = true ∧ (∀ k : Nat, ((fun _ => State.reset : Nat → State) k).busy = false ∧
      ((fun _ => State.reset : Nat → State) k).cfg = Params.reference) ∧ Params.reference.wf = true ∧
      hello64.length < 2 ^ Params.reference.lenw ∧ estimateDecodedLen hello64.length < 2 ^ Params.reference.lenw :=
  ⟨by decide, fun _ => ⟨rfl, rfl⟩, by decide, by decide, by decide⟩

/-- R249: the split of an encode into chunks of three, the last shorter; of a decode, a last chunk of 1 to 3 characters
joined to the one before it. -/
theorem test_split : splitPlain 3 11 hello = [[0x48, 0x65, 0x6C], [0x6C, 0x6F, 0x20], [0x77, 0x6F, 0x72], [0x6C, 0x64]] ∧
    (splitDecode 8 16 (hello64 ++ [0x41])).map List.length = [8, 9] := by decide

end Sys2Proof.Tests
end

section
/-! A whole operation as single engine steps (70_reset_and_hazards.md R296): what `runEngine` computes is an iterate of
`engineStep`, and a command is its launch followed by that iterate (40_engine_ops.md R110; log 7). -/

namespace Sys2Proof.Machine

/-- A run with fuel takes engine steps from states in progress only, and no more of them than its fuel. -/
theorem runEngine_eq_iterate : ∀ (fuel : Nat) (s : State), ∃ k, k ≤ fuel ∧ runEngine fuel s = engineStep^[k] s ∧
    ∀ j, j < k → (engineStep^[j] s).busy = true
  | 0, s => ⟨0, le_rfl, rfl, fun _ hj => absurd hj (Nat.not_lt_zero _)⟩
  | fuel + 1, s => by
    unfold runEngine
    split_ifs with hb
    · obtain ⟨k, hk, hrun, hbusy⟩ := runEngine_eq_iterate fuel (engineStep s)
      refine ⟨k + 1, Nat.succ_le_succ hk, hrun, fun j hj => ?_⟩
      cases j with
      | zero => exact hb
      | succ j => exact hbusy j (Nat.lt_of_succ_lt_succ hj)
    · exact ⟨0, Nat.zero_le _, rfl, fun _ hj => absurd hj (Nat.not_lt_zero _)⟩

/-- An operation run to its end is at most `stepBound` engine steps, each from a state in progress. -/
theorem State.complete_eq_iterate (s : State) : ∃ k, k ≤ stepBound s.lOp s.lN ∧ s.complete = engineStep^[k] s ∧
    ∀ j, j < k → (engineStep^[j] s).busy = true :=
  runEngine_eq_iterate _ s

/-- Settles O31: the fuel of `complete` counts engine steps, and the state it ends in is DONE by `runCommand_done`. -/
theorem commandIsLaunchThenSteps : Obligations.CommandIsLaunchThenSteps := by
  intro i s hidle hwf
  obtain ⟨k, hk, hcomplete, hbusy⟩ := (s.launch (encode i)).complete_eq_iterate
  have hexec : exec i s = .next (engineStep^[k] (s.launch (encode i))) := by
    rw [exec_eq, runCommand_idle hidle, hcomplete]
  exact ⟨k, hk, hexec, runCommand_done hidle hwf hexec, hbusy⟩

end Sys2Proof.Machine
end

section
/-! What one step of the whole machine does, said once: an equation per event, an equation per register write, and the
closed list of what a step can answer (`step_cases`; 70_reset_and_hazards.md R280, R291, 10_state.md R28, R30). -/

namespace Sys2Proof.Machine

/-! ### One equation per event (log 8) -/

section Events
variable {s : State} {rest : List Event}

theorem step_noEvent (h : s.events = []) : step s = .next (engineStep s) := by simp only [step, h]

theorem step_command {w : Byte} (h : s.events = .command w :: rest) : step s = runFetched w (s.setEvents rest) := by
  simp only [step, h]

theorem step_write {reg v : Nat} (h : s.events = .write reg v :: rest) :
    step s = .next (hostWrite reg v (s.setEvents rest)) := by
  simp only [step, h]

theorem step_read {reg : Nat} (h : s.events = .read reg :: rest) :
    step s = .next (hostRead reg (s.setEvents rest)) := by
  simp only [step, h]

theorem step_fillIn {a : Nat} {bytes : List Byte} (h : s.events = .fillIn a bytes :: rest) :
    step s = hostFillIn a bytes (s.setEvents rest) := by
  simp only [step, h]

theorem step_readOut {a k : Nat} (h : s.events = .readOut a k :: rest) :
    step s = hostReadOut a k (s.setEvents rest) := by
  simp only [step, h]

theorem step_wait (h : s.events = .wait :: rest) : step s = .next (hostWait rest s) := by simp only [step, h]

theorem step_engine (h : s.events = .engine :: rest) : step s = .next (engineStep (s.setEvents rest)) := by
  simp only [step, h]

theorem step_reset (h : s.events = .reset :: rest) : step s = .next (externalReset (s.setEvents rest)) := by
  simp only [step, h]

end Events

/-! ### Register writes (10_state.md R28, R30, R292) -/

/-- While BUSY every write is ignored. -/
theorem hostWrite_busy {s : State} (hb : s.busy = true) (reg v : Nat) : hostWrite reg v s = s := by
  unfold hostWrite
  split
  · exact if_pos hb
  · exact if_pos hb
  · exact if_pos hb
  · rfl

theorem hostWrite_cmd {s : State} (hb : s.busy = false) (v : Nat) :
    hostWrite 0 v s = s.launch (BitVec.ofNat 4 v) := by
  simp [hostWrite, hb]

theorem hostWrite_ilen {s : State} (hb : s.busy = false) (v : Nat) :
    hostWrite 2 v s = { s with ilen := v % 2 ^ s.cfg.lenw } := by
  simp [hostWrite, hb]

theorem hostWrite_ocap {s : State} (hb : s.busy = false) (v : Nat) :
    hostWrite 3 v s = { s with ocap := v % 2 ^ s.cfg.lenw } := by
  simp [hostWrite, hb]

/-- Numbers other than those of CMD, ILEN and OCAP ignore every write. -/
theorem hostWrite_ignored {reg : Nat} (h0 : reg ≠ 0) (h2 : reg ≠ 2) (h3 : reg ≠ 3) (v : Nat) (s : State) :
    hostWrite reg v s = s := by
  unfold hostWrite
  split
  · exact absurd rfl h0
  · exact absurd rfl h2
  · exact absurd rfl h3
  · rfl

/-! ### FILL IN and READ OUT (10_state.md R37; log 15) -/

theorem State.located_iff {s : State} {a k : Nat} : s.located a k = true ↔ k = 0 ∨ a + k ≤ 2 ^ s.cfg.lenw := by
  simp [State.located]

theorem hostFillIn_located {s : State} {a : Nat} {bytes : List Byte} (h : s.located a bytes.length = true) :
    hostFillIn a bytes s = .next (s.fill a bytes) :=
  if_pos h

theorem hostFillIn_not_located {s : State} {a : Nat} {bytes : List Byte} (h : ¬ s.located a bytes.length = true) :
    hostFillIn a bytes s = .fault (.noSuchLocation .bufIn (max a (2 ^ s.cfg.lenw))) :=
  if_neg h

theorem hostReadOut_idle {s : State} {a k : Nat} (h : s.located a k = true) (hb : s.busy = false) :
    hostReadOut a k s = .next (s.observe (.out a ((List.range k).map fun i => s.outCell (a + i)))) := by
  simp [hostReadOut, h, hb]

theorem hostReadOut_busy {s : State} {a k : Nat} (h : s.located a k = true) (hb : s.busy = true) :
    hostReadOut a k s = .next (s.observe (.out a (s.freeBytes a k))).nextDraw := by
  simp [hostReadOut, h, hb]

theorem hostReadOut_not_located {s : State} {a k : Nat} (h : ¬ s.located a k = true) :
    hostReadOut a k s = .fault (.noSuchLocation .bufOut (max a (2 ^ s.cfg.lenw))) :=
  if_neg h

/-- While not BUSY a FILL IN changes nothing but the contents of IN. -/
theorem State.fill_idle {s : State} (hb : s.busy = false) (a : Nat) (bytes : List Byte) :
    s.fill a bytes = { s with inMem := s.inMem.store a bytes } := by
  simp [State.fill, hb]

/-- A byte of IN after a FILL IN: the byte given inside the range, the old byte outside. -/
theorem State.inCell_fill (s : State) (a : Nat) (bytes : List Byte) (x : Nat) :
    (s.fill a bytes).inCell x = if a ≤ x ∧ x < a + bytes.length then bytes.getD (x - a) 0#8 else s.inCell x := by
  simp only [State.inCell, State.fill, Memory.get_store]
  split_ifs with h
  · have hx : x - a < bytes.length := by omega
    simp [List.getD_eq_getElem?_getD, hx]
  · rfl

/-! ### The engine's step -/

/-- No step unless an operation is in progress (43_dispatcher.md R226). -/
theorem engineStep_not_busy {s : State} (hb : s.busy = false) : engineStep s = s := by
  simp [engineStep, hb]

/-- An engine step changes what its row may change (43_dispatcher.md R225, R226). -/
theorem engineStep_changes (s : State) : RowChanges s (engineStep s) := by
  unfold engineStep
  split_ifs
  · obtain ⟨tier, acc, vec, kern, fin⟩ := engineRow_changes s
    exact ⟨tier, acc, vec, kern, fin⟩
  · exact ⟨by simp, by simp, by simp, by simp, by simp⟩

/-! ### What a step can answer -/

/-- What a step that does not stop can leave, with the event that had it so where a statement asks for it. -/
inductive StepCase (s : State) : State → Prop
  /-- An event that is only taken off: ignored while BUSY, a register that takes no write, a WAIT that sees DONE. -/
  | nothing (rest : List Event) : StepCase s (s.setEvents rest)
  /-- An engine step: no event, an `engine` event, a WAIT that stays. -/
  | engine (es es' : List Event) : StepCase s ((engineStep (s.setEvents es)).setEvents es')
  /-- A command accepted and run to its end (log 7). -/
  | command (w : Byte) (rest : List Event) (i : Instr) (idle : s.busy = false) (ev : s.events = .command w :: rest)
      (decoded : decodeByte w = .ok i) : StepCase s ((s.setEvents rest).launch (encode i)).complete
  /-- A launch by a write of CMD (R28). -/
  | launch (v : Nat) (rest : List Event) (idle : s.busy = false) (ev : s.events = .write 0 v :: rest) :
      StepCase s ((s.setEvents rest).launch (BitVec.ofNat 4 v))
  /-- ILEN takes the low bits of the value written (R22; log 3). -/
  | ilen (v : Nat) (rest : List Event) (idle : s.busy = false) (ev : s.events = .write 2 v :: rest) :
      StepCase s { s.setEvents rest with ilen := v % 2 ^ s.cfg.lenw }
  /-- OCAP takes the low bits of the value written (R23; log 3). -/
  | ocap (v : Nat) (rest : List Event) (idle : s.busy = false) (ev : s.events = .write 3 v :: rest) :
      StepCase s { s.setEvents rest with ocap := v % 2 ^ s.cfg.lenw }
  /-- A read of a register, or of OUT while not BUSY. -/
  | observe (rest : List Event) (o : Obs) : StepCase s ((s.setEvents rest).observe o)
  /-- A read of OUT while BUSY (log 11). -/
  | observeFree (rest : List Event) (o : Obs) : StepCase s ((s.setEvents rest).observe o).nextDraw
  /-- FILL IN, BUSY or not (R37; log 10). -/
  | fill (a : Nat) (bytes : List Byte) (rest : List Event) (located : s.located a bytes.length = true)
      (ev : s.events = .fillIn a bytes :: rest) : StepCase s ((s.setEvents rest).fill a bytes)
  /-- The external reset (R280). -/
  | reset (rest : List Event) (ev : s.events = .reset :: rest) : StepCase s (externalReset (s.setEvents rest))

/-- A write of a register launches, sets ILEN or OCAP, or changes nothing. -/
theorem StepCase.ofWrite {s : State} {reg v : Nat} {rest : List Event} (h : s.events = .write reg v :: rest) :
    StepCase s (hostWrite reg v (s.setEvents rest)) := by
  cases hb : s.busy with
  | true =>
    rw [hostWrite_busy (s := s.setEvents rest) hb]
    exact .nothing rest
  | false =>
    by_cases h0 : reg = 0
    · subst h0
      rw [hostWrite_cmd (s := s.setEvents rest) hb]
      exact .launch v rest hb h
    by_cases h2 : reg = 2
    · subst h2
      rw [hostWrite_ilen (s := s.setEvents rest) hb]
      exact .ilen v rest hb h
    by_cases h3 : reg = 3
    · subst h3
      rw [hostWrite_ocap (s := s.setEvents rest) hb]
      exact .ocap v rest hb h
    rw [hostWrite_ignored h0 h2 h3]
    exact .nothing rest

/-- A command byte that is not refused runs, or is dropped while BUSY (R28; log 26). -/
theorem StepCase.ofCommand {s t : State} {w : Byte} {rest : List Event} (h : s.events = .command w :: rest)
    (ht : runFetched w (s.setEvents rest) = .next t) : StepCase s t := by
  unfold runFetched at ht
  split at ht
  case h_1 i hdecode =>
    rw [exec_eq] at ht
    cases hb : s.busy with
    | true =>
      rw [runCommand_busy (s := s.setEvents rest) hb] at ht
      cases ht
      exact .nothing rest
    | false =>
      rw [runCommand_idle (s := s.setEvents rest) hb] at ht
      cases ht
      exact .command w rest i hb h hdecode
  case h_2 => cases ht

/-- A FILL IN that does not fault writes its bytes (log 15). -/
theorem StepCase.ofFillIn {s t : State} {a : Nat} {bytes : List Byte} {rest : List Event}
    (h : s.events = .fillIn a bytes :: rest) (ht : hostFillIn a bytes (s.setEvents rest) = .next t) :
    StepCase s t := by
  by_cases hl : (s.setEvents rest).located a bytes.length = true
  · rw [hostFillIn_located hl] at ht
    cases ht
    exact .fill a bytes rest hl h
  · rw [hostFillIn_not_located hl] at ht
    cases ht

/-- A READ OUT that does not fault records what it returned (logs 11, 15, 27). -/
theorem StepCase.ofReadOut {s t : State} {a k : Nat} {rest : List Event}
    (ht : hostReadOut a k (s.setEvents rest) = .next t) : StepCase s t := by
  by_cases hl : (s.setEvents rest).located a k = true
  · cases hb : s.busy with
    | true =>
      rw [hostReadOut_busy hl hb] at ht
      cases ht
      exact .observeFree rest _
    | false =>
      rw [hostReadOut_idle hl hb] at ht
      cases ht
      exact .observe rest _
  · rw [hostReadOut_not_located hl] at ht
    cases ht

/-- The closed list of what a step can answer. -/
theorem step_cases {s t : State} (h : step s = .next t) : StepCase s t := by
  match hev : s.events with
  | [] =>
    rw [step_noEvent hev] at h
    cases h
    exact .engine s.events (engineStep s).events
  | .command w :: rest => exact .ofCommand hev (step_command hev ▸ h)
  | .write reg v :: rest =>
    rw [step_write hev] at h
    cases h
    exact .ofWrite hev
  | .read reg :: rest =>
    rw [step_read hev] at h
    cases h
    exact .observe rest _
  | .fillIn a bytes :: rest => exact .ofFillIn hev (step_fillIn hev ▸ h)
  | .readOut a k :: rest => exact .ofReadOut (step_readOut hev ▸ h)
  | .wait :: rest =>
    rw [step_wait hev] at h
    cases h
    unfold hostWait
    split_ifs
    · exact .nothing rest
    · exact .engine s.events (.wait :: rest)
  | .engine :: rest =>
    rw [step_engine hev] at h
    cases h
    exact .engine rest (engineStep (s.setEvents rest)).events
  | .reset :: rest =>
    rw [step_reset hev] at h
    cases h
    exact .reset rest hev

end Sys2Proof.Machine
end

section
/-! The invariant of `Safety.lean` and the widths of the vector registers over every step of the whole machine
(10_state.md R22 to R37, R39; 43_dispatcher.md R227, R228; 70_reset_and_hazards.md R280, R292). -/

namespace Sys2Proof.Machine

/-! ### What every engine step keeps, a whole operation keeps -/

theorem State.complete_keeps {P : State → Prop} (hstep : ∀ s, P s → P (engineStep s)) {s : State} (h : P s) :
    P s.complete := by
  obtain ⟨k, _, hk, _⟩ := s.complete_eq_iterate
  rw [hk]
  exact Function.Iterate.rec P h hstep k

/-! ### Parts of the invariant that concern states not in progress -/

section NotBusy
variable {s : State} (hidle : s.busy = false)
include hidle

theorem State.LatchOk.of_not_busy : s.LatchOk := by
  constructor <;> simp [hidle]

theorem State.phase_of_not_busy : s.phase = .idle ∨ s.phase = .done := by
  cases hp : s.phase <;> simp_all [State.busy, Phase.busy, Phase.stateCode]

/-- With no operation in progress a kernel is only asked for a present tier. -/
theorem State.KernelOk.of_not_busy (ht : Machine.tierPresent s.cfg s.tier = true) : s.KernelOk := by
  rcases State.phase_of_not_busy hidle with hp | hp <;>
    exact ⟨by simp [hp, Phase.kernel], by simp [hp, Phase.kernel], ht, by simp [hp]⟩

theorem State.PositionsOk.of_not_busy : s.PositionsOk := by
  rcases State.phase_of_not_busy hidle with hp | hp <;> constructor <;> simp [hp, Phase.kernel]

end NotBusy

/-! ### The host's registers -/

/-- ILEN and OCAP take values of their width while not BUSY (R22, R23). -/
theorem State.Inv.setOperands {s : State} (h : s.Inv) (hidle : s.busy = false) {n c : Nat} (hn : n < 2 ^ s.cfg.lenw)
    (hc : c < 2 ^ s.cfg.lenw) : ({ s with ilen := n, ocap := c } : State).Inv where
  params := h.params
  memory := h.memory.congr rfl rfl rfl
  widths := ⟨hn, hc, h.widths.rlen, h.widths.lN, h.widths.lCap, h.widths.ipos, h.widths.opos⟩
  status := ⟨h.status.errDone, h.status.errRlen, h.status.busyRlen⟩
  latch := .of_not_busy hidle
  kernel := .of_not_busy hidle h.kernel.tierPresent
  positions := .of_not_busy hidle

/-- FILL IN inside the buffer, BUSY or not (R37; log 10): nothing but the buffer is in the invariant. -/
theorem State.Inv.fill {s : State} (h : s.Inv) {a : Nat} {bytes : List Byte}
    (hl : s.located a bytes.length = true) : (s.fill a bytes).Inv where
  params := h.params
  memory := h.memory.fill hl
  widths := ⟨h.widths.ilen, h.widths.ocap, h.widths.rlen, h.widths.lN, h.widths.lCap, h.widths.ipos, h.widths.opos⟩
  status := ⟨h.status.errDone, h.status.errRlen, h.status.busyRlen⟩
  latch := ⟨h.latch.op, h.latch.url, h.latch.pad, h.latch.n, h.latch.cap⟩
  kernel := ⟨h.kernel.op, h.kernel.room, h.kernel.tierPresent, h.kernel.vloopTier⟩
  positions := ⟨h.positions.check, h.positions.enc, h.positions.dec, h.positions.tail⟩

/-! ### Reset -/

/-- Every register has its reset value: only the parameters and the model's own fields may differ (R39). -/
def State.IsReset (t : State) : Prop :=
  t = { State.reset with cfg := t.cfg, epoch := t.epoch, draws := t.draws, events := t.events, obs := t.obs }

theorem State.isReset_reset : State.reset.IsReset := rfl

theorem State.isReset_externalReset (s : State) : (externalReset s).IsReset := rfl

/-- A reset block with parameters in their ranges meets the invariant. -/
theorem State.IsReset.inv {t : State} (h : t.IsReset) (hwf : t.cfg.wf = true) : t.Inv := by
  have hidle : t.busy = false := by rw [h]; rfl
  refine ⟨hwf, ?_, ?_, ?_, .of_not_busy hidle, .of_not_busy hidle ?_, .of_not_busy hidle⟩
  · rw [h]; constructor <;> simp [State.reset]
  · rw [h]; constructor <;> simp [State.reset]
  · rw [h]; constructor <;> simp [State.reset]
  · rw [h]; rfl

theorem State.IsReset.vec {t : State} (h : t.IsReset) : t.vec = State.reset.vec := by rw [h]

/-! ### The widths of the vector registers (R35) -/

/-- `VectorsOk` over the tiers: each has registers of its byte width, the scalar tier none. -/
theorem State.vectorsOk_iff {s : State} : s.VectorsOk ↔ ∀ t, (s.vec.regs t).Lanes t.bytes := by
  constructor
  · rintro ⟨h128, h256, h512⟩ t
    cases t
    case scalar =>
      simp [VecUnits.regs, VecRegs.Lanes, VecRegs.registers, VecRegs.empty, VecRegs.zero, Tier.bytes, Tier.subs]
    case v128 => exact h128
    case v256 => exact h256
    case v512 => exact h512
  · exact fun h => ⟨h .v128, h .v256, h .v512⟩

theorem State.VectorsOk.congr {s t : State} (h : s.VectorsOk) (hv : t.vec = s.vec) : t.VectorsOk := by
  rw [State.vectorsOk_iff] at *
  rwa [hv]

/-- The registers of one vector tier replaced by registers of its width. -/
theorem State.VectorsOk.update {s t : State} (h : s.VectorsOk) {tier : Tier} {v : VecRegs} (ht : tier ≠ .scalar)
    (hl : v.Lanes tier.bytes) (hv : t.vec = s.vec.update tier v) : t.VectorsOk := by
  rw [State.vectorsOk_iff] at *
  intro t'
  rw [hv]
  by_cases he : t' = tier
  · subst he
    rwa [VecUnits.regs_update _ _ ht]
  · rw [VecUnits.regs_update_ne _ _ he]
    exact h t'

theorem encChunk_lanes (url : Bool) (g : Nat → Nat → Byte) (t : Tier) {x : List Byte} (hx : x.length = t.chunkIn) :
    (encChunk url t.subs g x).Lanes t.bytes :=
  onSubLanes_lanes (encSubLane_lanes url) t.subs g x hx

theorem decChunk_lanes_bytes (url : Bool) (g : Nat → Nat → Byte) (t : Tier) {x : List Byte} (hx : x.length = t.bytes) :
    (decChunk url t.subs g x).Lanes t.bytes :=
  onSubLanes_lanes (decSubLane_lanes url) t.subs g x hx

/-- P_VLOOP on the scalar tier has no row (log 17). -/
theorem vloopRow_scalar {s : State} (ht : s.tier = .scalar) : vloopRow s = s := by
  unfold vloopRow
  rw [ht]

/-- P_VLOOP of a length command has no row (log 17). -/
theorem vloopRow_length {s : State} (h1 : s.lOp ≠ .enc) (h2 : s.lOp ≠ .dec) : vloopRow s = s := by
  unfold vloopRow
  split
  next => rfl
  next hop _ => exact absurd hop h1
  next hop _ => exact absurd hop h2
  next => rfl
  next => rfl

/-- A row of P_VLOOP that takes no chunk leaves the vector registers. -/
theorem vloopRow_vec_of_noChunk {s : State}
    (henc : s.tier ≠ .scalar → s.lOp = .enc → ¬ s.ipos + s.tier.chunkIn ≤ s.lN)
    (hdec : s.tier ≠ .scalar → s.lOp = .dec → ¬ s.ipos + s.tier.bytes + s.cfg.vdecMargin ≤ s.lN) :
    (vloopRow s).vec = s.vec := by
  by_cases ht : s.tier = .scalar
  · rw [vloopRow_scalar ht]
  by_cases h1 : s.lOp = .enc
  · rw [vloopRow_enc ht h1, if_neg (henc ht h1), State.setPhase_vec]
  by_cases h2 : s.lOp = .dec
  · rw [vloopRow_dec ht h2, if_neg (hdec ht h2), State.setPhase_vec]
  · rw [vloopRow_length h1 h2]

/-- An engine step keeps the widths: it leaves the registers, or replaces those of TIER by a chunk of TIER's width. -/
theorem State.VectorsOk.engineStep {s : State} (h : s.VectorsOk) : (engineStep s).VectorsOk := by
  by_cases hp : s.phase = .vloop
  swap
  · exact h.congr (not_not.mp (mt (engineStep_changes s).vec hp))
  by_cases henc : s.tier ≠ .scalar ∧ s.lOp = .enc ∧ s.ipos + s.tier.chunkIn ≤ s.lN
  · obtain ⟨ht, hop, hn⟩ := henc
    exact h.update ht (encChunk_lanes _ _ _ (by simp)) (engineStep_vec_enc hp ht hop hn)
  by_cases hdec : s.tier ≠ .scalar ∧ s.lOp = .dec ∧ s.ipos + s.tier.bytes + s.cfg.vdecMargin ≤ s.lN
  · obtain ⟨ht, hop, hn⟩ := hdec
    refine h.update ht ?_ (engineStep_vec_dec hp ht hop hn)
    have hl := decChunk_lanes_bytes s.lUrl s.freeLane s.tier (x := s.readIn s.ipos s.tier.bytes) (by simp)
    simp only
    split_ifs
    · exact hl.failed _
    · exact hl
  · have hvec := vloopRow_vec_of_noChunk (s := s) (fun ht hop hn => henc ⟨ht, hop, hn⟩)
      (fun ht hop hn => hdec ⟨ht, hop, hn⟩)
    have hb : s.busy = true := by simp [State.busy, hp, Phase.busy, Phase.stateCode]
    refine h.congr ?_
    simpa only [Machine.engineStep, if_pos hb, engineRow, hp, State.nextDraw_vec] using hvec

theorem vectorsOk_reset : State.reset.VectorsOk := by
  constructor <;> decide

/-! ### The statements -/

/-- Settles O45, case by case of what a step can answer. -/
theorem stepKeepsTheInvariant : Obligations.StepKeepsTheInvariant := by
  intro s t h ht
  cases step_cases ht with
  | nothing rest => exact h.setEvents rest
  | engine es es' => exact (h.setEvents es).engineStep.setEvents es'
  | command _ rest i _ _ _ =>
    exact State.complete_keeps (P := State.Inv) (fun _ => State.Inv.engineStep) ((h.setEvents rest).launch (encode i))
  | launch v rest _ _ => exact (h.setEvents rest).launch (BitVec.ofNat 4 v)
  | ilen v rest hidle _ => exact (h.setEvents rest).setOperands hidle (Nat.mod_lt v (Nat.two_pow_pos _)) h.widths.ocap
  | ocap v rest hidle _ => exact (h.setEvents rest).setOperands hidle h.widths.ilen (Nat.mod_lt v (Nat.two_pow_pos _))
  | observe rest o => exact (h.setEvents rest).observe o
  | observeFree rest o => exact ((h.setEvents rest).observe o).nextDraw
  | fill a bytes rest hl _ => exact (h.setEvents rest).fill hl
  | reset rest _ => exact (State.isReset_externalReset _).inv h.params

/-- Settles O58: only the engine writes the vector registers, and a reset puts them at their width. -/
theorem stepKeepsTheVectorWidths : Obligations.StepKeepsTheVectorWidths := by
  intro s t h ht
  have hkeep : ∀ u : State, u.VectorsOk → (engineStep u).VectorsOk := fun _ => State.VectorsOk.engineStep
  cases step_cases ht with
  | nothing rest => exact h.congr rfl
  | engine es es' => exact (hkeep (s.setEvents es) (h.congr rfl)).congr rfl
  | command _ rest i _ _ _ => exact State.complete_keeps hkeep (h.congr rfl)
  | launch v rest _ _ => exact h.congr rfl
  | ilen _ rest _ _ => exact h.congr rfl
  | ocap _ rest _ _ => exact h.congr rfl
  | observe rest o => exact h.congr rfl
  | observeFree rest o => exact h.congr rfl
  | fill _ _ rest _ _ => exact h.congr rfl
  | reset rest _ => exact vectorsOk_reset.congr (State.isReset_externalReset _).vec

/-- Settles O12: the reference parameters are in their ranges, and no kernel runs after reset. -/
theorem resetMeetsTheInvariant : Obligations.ResetMeetsTheInvariant := by
  refine ⟨State.isReset_reset.inv (by decide), vectorsOk_reset, ?_⟩
  constructor <;> simp [State.reset, Phase.kernel]

end Sys2Proof.Machine
end

section
/-! Who writes what, over one engine step and over every step of the whole machine (10_state.md R24, R25, R28, R30, R31,
R37; 43_dispatcher.md R225; 70_reset_and_hazards.md R282). -/

namespace Sys2Proof.Machine

/-! ### One engine step -/

/-- The frame of the engine as an equation: the listed fields are all that may differ. -/
theorem EngineFrame.eq_update {s t : State} (h : EngineFrame s t) :
    t = { s with
      tier := t.tier, phase := t.phase, ipos := t.ipos, opos := t.opos, acc := t.acc, vec := t.vec
      outMem := t.outMem, err := t.err, rlen := t.rlen, draws := t.draws } := by
  obtain ⟨hcfg, hcmd, hilen, hocap, hop, hurl, hpad, hn, hcap, hin, hrace, hepoch, hev, hobs⟩ := h
  rw [← hcfg, ← hcmd, ← hilen, ← hocap, ← hop, ← hurl, ← hpad, ← hn, ← hcap, ← hin, ← hrace, ← hepoch, ← hev, ← hobs]

/-- Settles O36: the frame of the engine, and what its rows may change. -/
theorem engineStepChangesOnlyItsRegisters : Obligations.EngineStepChangesOnlyItsRegisters := by
  intro s
  obtain ⟨htier, hacc, hvec, hkern, hfin⟩ := engineStep_changes s
  exact ⟨(EngineFrame.engineStep s).eq_update, htier, hacc, hvec, hkern, hfin, engineStep_not_busy⟩

/-! ### Every step of the whole machine -/

theorem State.launch_status (s : State) (w : BitVec 4) : (s.launch w).status = 0b0001#4 := by
  simp [State.status, errCode, Phase.stateCode]

theorem externalReset_status (s : State) : (externalReset s).status = 0b0000#4 :=
  show State.reset.status = 0b0000#4 from rfl

section Writers
variable {s t : State} (h : StepCase s t)
include h

/-- The parameters never change, at a reset neither (R21). -/
theorem StepCase.cfg_eq : t.cfg = s.cfg := by
  cases h with
  | engine es _ => exact (EngineFrame.engineStep (s.setEvents es)).cfg
  | command _ rest i _ _ _ => exact (EngineFrame.complete ((s.setEvents rest).launch (encode i))).cfg
  | _ => rfl

/-- STATUS and RLEN stay, or one of R282's events takes place. -/
theorem StepCase.status_writers (hi : s.Inv) :
    (t.status = s.status ∧ t.rlen = s.rlen) ∨
      (∃ rest, s.events = .reset :: rest ∧ t.status = 0b0000#4 ∧ t.rlen = 0) ∨
      (s.busy = false ∧ (∃ v rest, s.events = .write 0 v :: rest) ∧ t.status = 0b0001#4 ∧ t.rlen = 0) ∨
      (s.busy = false ∧ (∃ w rest, s.events = .command w :: rest) ∧ t.phase = .done) ∨
      (s.busy = true ∧ t.phase = .done) := by
  cases h with
  | engine es es' =>
    have hi' := hi.setEvents es
    cases hb : s.busy with
    | false =>
      rw [engineStep_not_busy (s := s.setEvents es) hb]
      exact .inl ⟨rfl, rfl⟩
    | true =>
      rcases engineStep_busy_or_done hi' hb with hb' | hdone
      · obtain ⟨hstatus, hrlen⟩ := hi.status_of_busy hb
        obtain ⟨hstatus', hrlen'⟩ := hi'.engineStep.status_of_busy hb'
        exact .inl ⟨hstatus'.trans hstatus.symm, hrlen'.trans hrlen.symm⟩
      · exact .inr (.inr (.inr (.inr ⟨rfl, hdone⟩)))
  | command w rest i hidle hev _ =>
    have hexec := (exec_eq i _).trans (runCommand_idle (s := s.setEvents rest) hidle (encode i))
    have hdone := runCommand_done (s := s.setEvents rest) hidle hi.params hexec
    exact .inr (.inr (.inr (.inl ⟨hidle, ⟨w, rest, hev⟩, hdone⟩)))
  | launch v rest hidle hev => exact .inr (.inr (.inl ⟨hidle, ⟨v, rest, hev⟩, State.launch_status _ _, rfl⟩))
  | reset rest hev => exact .inr (.inl ⟨rest, hev, externalReset_status _, rfl⟩)
  | _ => exact .inl ⟨rfl, rfl⟩

variable (hreset : ∀ rest, s.events ≠ .reset :: rest)
include hreset

theorem StepCase.inMem_writers : t.inMem = s.inMem ∨ ∃ a bytes rest, s.events = .fillIn a bytes :: rest := by
  cases h with
  | engine es _ => exact .inl (EngineFrame.engineStep (s.setEvents es)).inMem
  | command _ rest i _ _ _ => exact .inl (EngineFrame.complete ((s.setEvents rest).launch (encode i))).inMem
  | fill a bytes rest _ hev => exact .inr ⟨a, bytes, rest, hev⟩
  | reset rest hev => exact absurd hev (hreset rest)
  | _ => exact .inl rfl

theorem StepCase.outMem_writers :
    t.outMem = s.outMem ∨ s.busy = true ∨ ∃ w rest, s.events = .command w :: rest := by
  cases h with
  | engine es _ =>
    cases hb : s.busy with
    | false =>
      rw [engineStep_not_busy (s := s.setEvents es) hb]
      exact .inl rfl
    | true => exact .inr (.inl rfl)
  | command w rest _ _ hev _ => exact .inr (.inr ⟨w, rest, hev⟩)
  | reset rest hev => exact absurd hev (hreset rest)
  | _ => exact .inl rfl

theorem StepCase.ilen_writers :
    t.ilen = s.ilen ∨ s.busy = false ∧ ∃ v rest, s.events = .write 2 v :: rest := by
  cases h with
  | engine es _ => exact .inl (EngineFrame.engineStep (s.setEvents es)).ilen
  | command _ rest i _ _ _ => exact .inl (EngineFrame.complete ((s.setEvents rest).launch (encode i))).ilen
  | ilen v rest hidle hev => exact .inr ⟨hidle, v, rest, hev⟩
  | reset rest hev => exact absurd hev (hreset rest)
  | _ => exact .inl rfl

theorem StepCase.ocap_writers :
    t.ocap = s.ocap ∨ s.busy = false ∧ ∃ v rest, s.events = .write 3 v :: rest := by
  cases h with
  | engine es _ => exact .inl (EngineFrame.engineStep (s.setEvents es)).ocap
  | command _ rest i _ _ _ => exact .inl (EngineFrame.complete ((s.setEvents rest).launch (encode i))).ocap
  | ocap v rest hidle hev => exact .inr ⟨hidle, v, rest, hev⟩
  | reset rest hev => exact absurd hev (hreset rest)
  | _ => exact .inl rfl

/-- CMD and the latches (R28, R31). -/
theorem StepCase.latch_writers :
    (t.cmd = s.cmd ∧ t.lOp = s.lOp ∧ t.lUrl = s.lUrl ∧ t.lPad = s.lPad ∧ t.lN = s.lN ∧ t.lCap = s.lCap) ∨
      s.busy = false ∧ ∃ rest, (∃ v, s.events = .write 0 v :: rest) ∨ ∃ w, s.events = .command w :: rest := by
  cases h with
  | engine es _ =>
    have hf := EngineFrame.engineStep (s.setEvents es)
    exact .inl ⟨hf.cmd, hf.lOp, hf.lUrl, hf.lPad, hf.lN, hf.lCap⟩
  | command w rest _ hidle hev _ => exact .inr ⟨hidle, rest, .inr ⟨w, hev⟩⟩
  | launch v rest hidle hev => exact .inr ⟨hidle, rest, .inl ⟨v, hev⟩⟩
  | reset rest hev => exact absurd hev (hreset rest)
  | _ => exact .inl ⟨rfl, rfl, rfl, rfl, rfl, rfl⟩

end Writers

/-- Settles O46, element by element. -/
theorem eachElementHasItsWriters : Obligations.EachElementHasItsWriters := by
  intro s t ht hreset
  have h := step_cases ht
  refine ⟨h.cfg_eq, (h.inMem_writers hreset).resolve_left, (h.outMem_writers hreset).resolve_left,
    (h.ilen_writers hreset).resolve_left, (h.ocap_writers hreset).resolve_left, fun hne => ?_⟩
  refine (h.latch_writers hreset).resolve_left ?_
  rintro ⟨hcmd, hop, hurl, hpad, hn, hcap⟩
  simp [hcmd, hop, hurl, hpad, hn, hcap] at hne

/-- Settles O47: while an operation goes on, STATUS reads busy without error and RLEN 0 before the step and after it. -/
theorem statusChangesAtLaunchAndCompletion : Obligations.StatusChangesAtLaunchAndCompletion := by
  intro s t hi ht hne
  refine ((step_cases ht).status_writers hi).resolve_left ?_
  rintro ⟨hstatus, hrlen⟩
  exact hne.elim (fun h => h hstatus) fun h => h hrlen

end Sys2Proof.Machine
end

section
/-! The host's accesses, the reset values, and commands as functions of their operands (10_state.md R22 to R25, R28,
R30, R37 to R39; 40_engine_ops.md R110). -/

namespace Sys2Proof.Machine

/-! ### STATUS and the command word as numbers -/

/-- STATUS is STATE in bits 1:0 and ERR in bits 3:2 (R24). -/
theorem State.status_toNat (s : State) :
    s.status.toNat = 4 * (errCode s.err).toNat + s.phase.stateCode.toNat := by
  have h := s.phase.stateCode.isLt
  rw [State.status, BitVec.toNat_append, ← Nat.shiftLeft_add_eq_or_of_lt h, Nat.shiftLeft_eq]
  omega

theorem cmdOp_eq (w : BitVec 4) :
    cmdOp w = if w.toNat % 4 = 0 then .enclen else if w.toNat % 4 = 1 then .decest
      else if w.toNat % 4 = 2 then .enc else .dec := by
  revert w; decide

theorem cmdUrl_eq (w : BitVec 4) : cmdUrl w = decide (w.toNat / 4 % 2 = 1) := by
  revert w; decide

theorem cmdPad_eq (w : BitVec 4) : cmdPad w = decide (w.toNat / 8 = 1) := by
  revert w; decide

/-! ### The statements -/

/-- Settles O17: the bytes of IN after a FILL IN are those of `State.inCell_fill`. -/
theorem fillInWritesItsBytesOnly : Obligations.FillInWritesItsBytesOnly := by
  intro s a bytes rest hev
  rw [step_fillIn hev]
  constructor
  · intro hfit hidle
    refine ⟨(s.setEvents rest).fill a bytes, hostFillIn_located (State.located_iff.mpr (.inr hfit)), ?_, ?_, ?_,
      fun _ => rfl⟩
    · rw [State.fill_idle (s := s.setEvents rest) hidle]
      rfl
    · intro i hi
      rw [State.inCell_fill, if_pos (by omega), Nat.add_sub_cancel_left]
    · intro x hx
      rw [State.inCell_fill, if_neg (by omega), State.setEvents_inCell]
  · intro hne hout
    have hlen := List.length_pos_of_ne_nil hne
    have hl : ¬ (s.setEvents rest).located a bytes.length = true := by
      rw [State.located_iff, State.setEvents_cfg]
      omega
    refine ⟨_, hostFillIn_not_located hl, ?_⟩
    rw [State.setEvents_cfg]
    omega

/-- Settles O32: both blocks end with `resultOf` of the same operands. -/
theorem noHiddenState : Obligations.NoHiddenState := by
  intro i s s' hidle hidle' hwf hcfg hilen hocap hinput
  obtain ⟨t, ht, herr, hrlen, hout, -⟩ := runCommand_result i s hidle hwf
  obtain ⟨t', ht', herr', hrlen', hout', -⟩ := runCommand_result i s' hidle' (hcfg ▸ hwf)
  rw [hcfg, hilen, hocap, hinput] at herr' hrlen' hout'
  have he : t'.err = t.err := herr'.trans herr.symm
  exact ⟨t, t', ht, ht', he, hrlen'.trans hrlen.symm,
    fun hok hop => (hout' (he.trans hok) hop).trans (hout hok hop).symm⟩

/-- Settles O11: every value of the table is a field of `State.reset`. -/
theorem resetLeavesTheTableValues : Obligations.ResetLeavesTheTableValues :=
  ⟨rfl, rfl, rfl, rfl, rfl, rfl, rfl, rfl, rfl, rfl, rfl, rfl, rfl, rfl, rfl, rfl, fun _ => rfl, fun _ => rfl⟩

/-- Settles O14, register by register. -/
theorem hostReadsReturnTheRegister : Obligations.HostReadsReturnTheRegister := by
  intro s reg rest hev
  refine ⟨s.regValue reg, step_read hev, ?_, ?_, ?_, ?_, ?_, ?_, ?_⟩
  · rintro rfl; rfl
  · rintro rfl
    refine s.status_toNat.trans ?_
    congr 1
    · rcases s.err with _ | _ | _ | _ <;> rfl
    · cases s.phase <;> rfl
  · rintro rfl; rfl
  · rintro rfl; rfl
  · rintro rfl; rfl
  · rintro rfl; rfl
  · intro h
    obtain ⟨n, rfl⟩ := Nat.exists_eq_add_of_le' h
    rfl

/-- Settles O15, by the equations of `hostWrite`. -/
theorem hostWritesFollowTheAccessTable : Obligations.HostWritesFollowTheAccessTable := by
  intro s reg v rest hev
  rw [step_write hev]
  refine ⟨fun hb => ?_, ?_, ?_, fun hreg => ?_⟩
  · rw [hostWrite_busy (s := s.setEvents rest) hb]
    rfl
  · rintro hidle rfl hv
    rw [hostWrite_ilen (s := s.setEvents rest) hidle, State.setEvents_cfg, Nat.mod_eq_of_lt hv]
    rfl
  · rintro hidle rfl hv
    rw [hostWrite_ocap (s := s.setEvents rest) hidle, State.setEvents_cfg, Nat.mod_eq_of_lt hv]
    rfl
  · rw [hostWrite_ignored (by omega) (by omega) (by omega)]
    rfl

/-- Settles O16: the write is `State.launch`, whose fields are the numbers of the word's bits. -/
theorem writingCmdLaunches : Obligations.WritingCmdLaunches := by
  intro s w rest hev hidle
  rw [step_write hev, hostWrite_cmd (s := s.setEvents rest) hidle, BitVec.ofNat_toNat, BitVec.setWidth_eq,
    ← cmdOp_eq, ← cmdUrl_eq, ← cmdPad_eq]
  rfl

/-- Settles O18, by the equations of `hostReadOut`. -/
theorem readOutReturnsOut : Obligations.ReadOutReturnsOut := by
  intro s a k rest hev
  rw [step_readOut hev]
  refine ⟨fun hfit hidle => ?_, fun hfit hb => ?_, fun hk hout => ?_⟩
  · refine ⟨_, hostReadOut_idle (State.located_iff.mpr (.inr hfit)) hidle, by simp, fun i hi => ?_⟩
    simp [List.getD_eq_getElem?_getD, hi]
  · exact ⟨_, State.freeBytes_length _ a k, hostReadOut_busy (State.located_iff.mpr (.inr hfit)) hb⟩
  · have hl : ¬ (s.setEvents rest).located a k = true := by
      rw [State.located_iff, State.setEvents_cfg]
      omega
    refine ⟨_, hostReadOut_not_located hl, ?_⟩
    rw [State.setEvents_cfg]
    omega

/-- Settles O28: every arm is `runCommand`, which drops the command (log 26). -/
theorem commandWhileBusyIsIgnored : Obligations.CommandWhileBusyIsIgnored := by
  intro i s hb
  rw [exec_eq, runCommand_busy hb]

end Sys2Proof.Machine
end

section
/-! The two buffers (20_memory.md R59 to R62): what a completed ENC or DEC leaves in OUT, and how far one engine step
reads IN and writes OUT. -/

namespace Sys2Proof.Machine

/-! ### ENC -/

/-- ENC of the empty input ends in its first step, whatever the capacity (40_engine_ops.md R122). -/
theorem runCommand_enc_empty {s : State} (hidle : s.busy = false) {w : BitVec 4} (hw : cmdOp w = .enc)
    (hn : s.ilen = 0) : runCommand w s = .next ((s.launch w).ok 0).nextDraw := by
  refine runCommand_of_check hidle w (by simp [stepBound, hw]) ?_ rfl
  have hlen : encodedLen (cmdPad w) 0 = 0 := by cases cmdPad w <;> rfl
  simp [checkRow, State.required, hw, hn, hlen]

/-- ENC leaves ACC as the launch sets it (10_state.md R34). -/
theorem runCommand_enc_acc {s t : State} (hidle : s.busy = false) {w : BitVec 4} (hw : cmdOp w = .enc)
    (ht : runCommand w s = .next t) : t.acc = 0#8 := by
  rw [runCommand_idle hidle] at ht
  cases ht
  exact runEngine_enc_acc _ (s.launch w) hw

/-- Settles O23: the ended run of an ENC, and for the empty input the single step that ends it. -/
theorem encCompletesWithTheEncoding : Obligations.EncCompletesWithTheEncoding := by
  intro i s hop hidle hcap
  obtain ⟨t, ht, hrun, hdone⟩ := runCommand_enc hidle (w := encode i) hop
  obtain ⟨herr, hrlen, hipos, hopos, hout⟩ := hrun.done hdone hcap
  have hacc := runCommand_enc_acc hidle hop ht
  refine ⟨t, (exec_eq i s).trans ht, hrun.frame.command hdone, herr, hrlen, hipos, hopos.trans hrlen.symm, hacc,
    hrlen ▸ hout, fun x hx => hrun.beyond x (hrlen ▸ hx), fun hn => ?_⟩
  rw [runCommand_enc_empty hidle hop hn] at ht
  cases ht
  rfl

/-! ### DEC -/

/-- Settles O26: the ended run of a DEC whose input DEC_REF accepts; the bytes are fewer than the estimate by
`decRef_length_lt`. -/
theorem decCompletesWithTheBytes : Obligations.DecCompletesWithTheBytes := by
  intro i s out hop hidle hwf hcap href
  obtain ⟨t, ht, hrun, hdone⟩ := runCommand_dec hidle (w := encode i) hop hwf
  have hends : EndsAs (decRef s.cfg i.url i.pad (s.input s.ilen)) t := hrun.done hdone hcap
  rw [href] at hends
  obtain ⟨herr, hrlen, hopos, hout⟩ := hends
  have hlt := decRef_length_lt href
  rw [State.input_length] at hlt
  exact ⟨t, (exec_eq i s).trans ht, hrun.frame.command hdone, herr, hrlen, hopos, hrlen.symm ▸ hout,
    hrlen.symm ▸ hlt, hrun.beyond⟩

/-! ### One engine step -/

theorem engineStep_busy {s : State} (hb : s.busy = true) : engineStep s = (engineRow s).nextDraw :=
  if_pos hb

/-- Settles O41: an operation in progress takes one row, and a row reads below L_N (`withIn_engineRow`). -/
theorem engineReadsInsideTheInput : Obligations.EngineReadsInsideTheInput := by
  intro s m hagree
  cases hb : s.busy with
  | true =>
    rw [engineStep_busy hb, engineStep_busy (s := { s with inMem := m }) hb]
    exact congrArg State.nextDraw (withIn_engineRow m hagree)
  | false => rw [engineStep_not_busy hb, engineStep_not_busy (s := { s with inMem := m }) hb]

/-- Outside the kernels an engine step writes no byte of OUT (43_dispatcher.md R225). -/
theorem engineStep_outCell_of_not_kernel {s : State} (hk : ¬ s.phase.kernel = true) :
    (engineStep s).outCell = s.outCell := by
  have hout : (engineStep s).outMem = s.outMem := by
    by_contra hne
    exact hk ((engineStep_changes s).kern (.inr (.inr hne)))
  exact State.outCell_congr hout (EngineFrame.engineStep s).epoch

/-- Settles O42: a row stays below `required`, and a kernel, which alone writes, runs with `required` at most L_CAP. -/
theorem engineWritesInsideTheOutput : Obligations.EngineWritesInsideTheOutput := by
  intro s hi hb
  have hrequired : ∀ x, s.required ≤ x → (engineStep s).outCell x = s.outCell x := by
    rw [engineStep_busy hb]
    exact engineRow_beyond hi
  refine ⟨hrequired, fun x hx => ?_, (EngineFrame.engineStep s).inMem⟩
  by_cases hk : s.phase.kernel = true
  · exact hrequired x ((hi.kernel.room hk).trans hx)
  · rw [engineStep_outCell_of_not_kernel hk]

end Sys2Proof.Machine
end

section
/-! The command word (30_encoding.md R80, R82, R85, R100): decoder and encoder are inverse to each other, the
fields of a decoded word are its bits, and a step whose event is a command byte runs what the byte decodes to. -/

namespace Sys2Proof.Machine

/-! ### Decoder and encoder -/

/-- The facts of `Laws/PerInstr.lean`, for every command. -/
theorem commandFields_statement : ∀ i : Instr, Laws.CommandFields.Statement i
  | .enclenSN => Laws.CommandFields.enclenSN
  | .decestSN => Laws.CommandFields.decestSN
  | .encSN => Laws.CommandFields.encSN
  | .decSN => Laws.CommandFields.decSN
  | .enclenUN => Laws.CommandFields.enclenUN
  | .decestUN => Laws.CommandFields.decestUN
  | .encUN => Laws.CommandFields.encUN
  | .decUN => Laws.CommandFields.decUN
  | .enclenSP => Laws.CommandFields.enclenSP
  | .decestSP => Laws.CommandFields.decestSP
  | .encSP => Laws.CommandFields.encSP
  | .decSP => Laws.CommandFields.decSP
  | .enclenUP => Laws.CommandFields.enclenUP
  | .decestUP => Laws.CommandFields.decestUP
  | .encUP => Laws.CommandFields.encUP
  | .decUP => Laws.CommandFields.decUP

@[simp] theorem decode_encode (i : Instr) : decode (encode i) = i := by
  obtain ⟨-, hdecode, -⟩ := commandFields_statement i
  exact hdecode

/-- A word is the only one that decodes to its command. -/
@[simp] theorem encode_decode (w : BitVec 4) : encode (decode w) = w := by
  obtain ⟨-, -, honly, -⟩ := commandFields_statement (decode w)
  exact (honly w rfl).symm

@[simp] theorem decodeByte_byte (i : Instr) : decodeByte i.byte = .ok i := by
  obtain ⟨-, -, -, -, hbyte, -⟩ := commandFields_statement i
  exact hbyte

/-- A byte with a bit above bit 3 is no command word (log 22). -/
theorem decodeByte_wide {b : Byte} (h : 16 ≤ b.toNat) : decodeByte b = .error (.widerThanCmd4 b) :=
  if_neg (Nat.not_lt.mpr h)

/-- Settles O3: both round trips, the byte that carries a command, and the bytes that carry none. -/
theorem decodeAndEncodeAgree : Obligations.DecodeAndEncodeAgree :=
  ⟨decode_encode, encode_decode, decodeByte_byte, fun _ => decodeByte_wide⟩

/-! ### The fields of a decoded word -/

@[simp] theorem decode_op (w : BitVec 4) : (decode w).op = cmdOp w := by rw [Instr.op, encode_decode]

@[simp] theorem decode_url (w : BitVec 4) : (decode w).url = cmdUrl w := by rw [Instr.url, encode_decode]

@[simp] theorem decode_pad (w : BitVec 4) : (decode w).pad = cmdPad w := by rw [Instr.pad, encode_decode]

/-- Settles O1: the sixteen rows and their mnemonics, evaluated. -/
theorem opcodeMapOfAllWords : Obligations.OpcodeMapOfAllWords := by
  unfold Obligations.OpcodeMapOfAllWords
  decide

/-- `OP` is the number of the bits 1:0 (R80, R81). -/
theorem cmdOp_eq_iff (w : BitVec 4) (op : Op) : cmdOp w = op ↔ w.toNat % 4 = (opCode op).toNat := by
  revert w
  cases op <;> decide

/-- Settles O2: the fields as numbers, by `cmdOp_eq_iff`, `cmdUrl_eq` and `cmdPad_eq`. -/
theorem commandFieldsAreTheBits : Obligations.CommandFieldsAreTheBits := by
  intro w
  rw [decode_op, decode_url, decode_pad, cmdUrl_eq, cmdPad_eq]
  exact ⟨cmdOp_eq_iff w .enclen, cmdOp_eq_iff w .decest, cmdOp_eq_iff w .enc, cmdOp_eq_iff w .dec,
    decide_eq_true_iff, decide_eq_true_iff⟩

/-! ### The step that runs a command byte -/

theorem runFetched_ok {w : Byte} {i : Instr} (h : decodeByte w = .ok i) (s : State) : runFetched w s = exec i s := by
  simp only [runFetched, h]

theorem runFetched_error {w : Byte} {e : DecodeReject} (h : decodeByte w = .error e) (s : State) :
    runFetched w s = .refused (.notACommand w) := by
  simp only [runFetched, h]

/-- The byte that `withFetchWord` places for a command's word is the command's byte. -/
theorem byte_of_word (i : Instr) : BitVec.ofNat 8 ((encode i).toNat % 2 ^ 8) = i.byte := by
  rw [Nat.mod_eq_of_lt (by omega), BitVec.ofNat_toNat]
  rfl

/-- A word placed in a block that is not BUSY stands before the events, and nothing else changes (log 20). -/
theorem State.withFetchWord_idle {s : State} (hidle : s.busy = false) (i : Instr) :
    s.withFetchWord 8 (encode i).toNat = s.setEvents (.command i.byte :: s.events) := by
  rw [State.withFetchWord, byte_of_word, hidle]
  rfl

/-- Settles O4: the event's equation `step_command`, then what the byte decodes to. -/
theorem stepRunsTheDecodedCommand : Obligations.StepRunsTheDecodedCommand := by
  refine ⟨fun s w rest hev => ?_, fun s i hidle => ?_⟩
  · rw [step_command hev]
    exact ⟨fun i hi => runFetched_ok hi _, fun e he => runFetched_error he _⟩
  · rw [State.withFetchWord_idle hidle, step_command (State.setEvents_events _ _), runFetched_ok (decodeByte_byte i)]
    rfl

end Sys2Proof.Machine
end

section
/-! The data tables (30_encoding.md R88 to R93): the alphabets in closed form, and the decode tables as their inverse. -/

namespace Sys2Proof.Machine

/-! ### The alphabets -/

theorem alpha_toNat (url : Bool) (i : Sextet) : (alpha url i).toNat
    = if i.toNat ≤ 25 then i.toNat + 65 else if i.toNat ≤ 51 then i.toNat + 71
      else if i.toNat ≤ 61 then i.toNat - 4
      else if i.toNat = 62 then (if url then 0x2D else 0x2B) else (if url then 0x5F else 0x2F) := by
  revert i url; decide

/-- The decode table reads the index back, so no two indices have one character. -/
theorem alpha_injective (url : Bool) : Function.Injective (alpha url) := by
  intro i j h
  have hdt := congrArg (dt 0xFF#8 url) h
  rw [dt_alpha, dt_alpha] at hdt
  rw [← sextet_setWidth i, hdt, sextet_setWidth]

theorem alpha_lt (url : Bool) (i : Sextet) : (alpha url i).toNat < 0x80 := by
  rw [alpha_toNat]
  split_ifs <;> omega

/-- Settles O5: the closed form, and what follows from it and from the decode table. -/
theorem alphabetClosedForm : Obligations.AlphabetClosedForm :=
  ⟨alpha_toNat, fun url _ _ h => alpha_injective url h, fun url i => ⟨alpha_lt url i, alpha_ne_padChar url i⟩⟩

/-! ### The decode tables -/

theorem dt_of_not_inAlphabet {url : Bool} {c : Byte} (h : ¬ InAlphabet url c) (invalid : Byte) :
    dt invalid url c = invalid := by
  rw [dt_eq, if_neg (mt (inAlphabet_iff url c).mpr h)]

theorem not_inAlphabet_of_ge {url : Bool} {c : Byte} (h : 0x80 ≤ c.toNat) : ¬ InAlphabet url c := by
  rintro ⟨i, rfl⟩
  exact absurd (alpha_lt url i) (Nat.not_lt.mpr h)

/-- 64 bytes are symbols, one for each index. -/
theorem countP_classified (url : Bool) :
    (List.range 256).countP (fun c => (classify url (BitVec.ofNat 8 c)).isSome) = 64 := by
  have himage : {c ∈ Finset.range 256 | (classify url (BitVec.ofNat 8 c)).isSome = true}
      = Finset.univ.image fun i => (alpha url i).toNat := by
    ext c
    simp only [Finset.mem_filter, Finset.mem_range, Finset.mem_image, Finset.mem_univ, true_and, ← inAlphabet_iff]
    constructor
    · rintro ⟨hc, i, hi⟩
      exact ⟨i, by rw [hi, BitVec.toNat_ofNat, Nat.mod_eq_of_lt hc]⟩
    · rintro ⟨i, rfl⟩
      exact ⟨(alpha url i).isLt, i, by rw [BitVec.ofNat_toNat, BitVec.setWidth_eq]⟩
  calc (List.range 256).countP (fun c => (classify url (BitVec.ofNat 8 c)).isSome)
      = Nat.count (fun c => (classify url (BitVec.ofNat 8 c)).isSome = true) 256 := by simp [Nat.count]
    _ = (Finset.univ.image fun i => (alpha url i).toNat).card := by rw [Nat.count_eq_card_filter_range, himage]
    _ = 64 := Finset.card_image_of_injective _ fun _ _ h => alpha_injective url (BitVec.eq_of_toNat_eq h)

section Marked
variable {p : Params} (hp : p.invalidMarked = true)
include hp

/-- The sentinel has bits 7 and 6 set and an index has neither, so it marks exactly the bytes that are no symbols. -/
theorem dt_eq_invalid_iff (url : Bool) (c : Byte) : dt p.invalid url c = p.invalid ↔ ¬ InAlphabet url c := by
  refine ⟨fun hdt hin => ?_, fun h => dt_of_not_inAlphabet h p.invalid⟩
  have hvalid := (dt_valid_iff hp url c).mpr ((inAlphabet_iff url c).mp hin)
  exact invalidMarked_ne hp (hdt ▸ hvalid)

theorem countP_dt_valid (url : Bool) :
    (List.range 256).countP (fun c => decide (dt p.invalid url (BitVec.ofNat 8 c) &&& 0xC0#8 = 0#8)) = 64 := by
  simp only [dt_valid_iff hp, Bool.decide_eq_true, countP_classified]

theorem countP_dt_invalid (url : Bool) :
    (List.range 256).countP (fun c => decide (dt p.invalid url (BitVec.ofNat 8 c) = p.invalid)) = 192 := by
  have hsum := List.length_eq_countP_add_countP (fun c => (classify url (BitVec.ofNat 8 c)).isSome)
    (l := List.range 256)
  rw [List.length_range, countP_classified] at hsum
  simp only [dt_eq_invalid_iff hp, InAlphabet, inAlphabet_iff]
  omega

/-- The OR of a set of lookups is marked exactly when one of them is the sentinel. -/
theorem bad_lookups_iff_exists_invalid (url : Bool) (cs : List Byte) :
    bad (cs.map (dt p.invalid url)) = true ↔ ∃ c ∈ cs, dt p.invalid url c = p.invalid := by
  rw [← Bool.not_eq_false, bad_lookups_iff hp]
  simp only [dt_eq_invalid_iff hp, not_forall, exists_prop]

end Marked

/-- Settles O6, clause by clause; the bytes from 0x80 on are no symbols. -/
theorem decodeTableInvertsAlphabet : Obligations.DecodeTableInvertsAlphabet := by
  intro p url hp
  refine ⟨?_, fun c hc => ?_, countP_dt_invalid hp url, countP_dt_valid hp url, fun c hc => ?_,
    bad_lookups_iff_exists_invalid hp url⟩
  · rintro _ i rfl
    exact dt_alpha p.invalid url i
  · exact dt_of_not_inAlphabet (fun ⟨i, hi⟩ => hc i hi) p.invalid
  · exact dt_of_not_inAlphabet (not_inAlphabet_of_ge hc) p.invalid

end Sys2Proof.Machine
end

section
/-! Hosts that wait (30_encoding.md R101 to R105; 70_reset_and_hazards.md R296): an operation in progress ends within the
bound, so WAIT sees DONE, and a host call returns the result of the operation it waited for. -/

namespace Sys2Proof.Machine

/-! ### The operation in progress ends -/

/-- What every engine step of an ENC or DEC keeps on the way to DONE. -/
structure State.InProgress (op : Op) (s : State) : Prop where
  inv : s.Inv
  op : s.lOp = op
  notIdle : s.phase ≠ .idle

/-- A step of an operation in progress does not lead back to P_IDLE. -/
theorem State.InProgress.engineStep {op : Op} {s : State} (h : s.InProgress op) (hb : s.busy = true) :
    (engineStep s).InProgress op where
  inv := h.inv.engineStep
  op := (EngineFrame.engineStep s).lOp.trans h.op
  notIdle hidle := by
    rcases engineStep_busy_or_done h.inv hb with hbusy | hdone
    · simp [State.busy, hidle, Phase.busy, Phase.stateCode] at hbusy
    · rw [hidle] at hdone
      cases hdone

/-- Fuel for the steps left runs an ENC or DEC to its end: every row lowers their number (R296). -/
theorem State.InProgress.runEngine_idle {op : Op} {u : Nat} (hu : u = 6 ∧ op = .enc ∨ u = 8 ∧ op = .dec) {s : State}
    (h : s.InProgress op) {fuel : Nat} (hf : s.lN / u + 4 ≤ fuel) :
    (runEngine fuel s).InProgress op ∧ (runEngine fuel s).busy = false := by
  refine runEngine_reaches (P := State.InProgress op) (μ := stepsLeft u) (fun t ht hb => ⟨ht.engineStep hb, ?_⟩)
    fuel s h ((stepsLeft_le u s).trans hf)
  rw [engineStep_busy hb]
  exact engineRow_stepsLeft ht.inv hb u (ht.op ▸ hu)

/-- An ENCLEN or DECEST in progress is in P_CHECK: no kernel runs for it (43_dispatcher.md R225). -/
theorem State.Inv.check_of_length {s : State} (h : s.Inv) (hb : s.busy = true) (henc : s.lOp ≠ .enc)
    (hdec : s.lOp ≠ .dec) : s.phase = .check := by
  have hk : ¬ s.phase.kernel = true := fun hk => (h.kernel.op hk).elim henc hdec
  cases hp : s.phase <;> simp_all [Phase.kernel, State.busy, Phase.busy, Phase.stateCode]

/-- The one step of an ENCLEN or DECEST in progress ends it (R225). -/
theorem State.Inv.engineStep_length_done {s : State} (h : s.Inv) (hb : s.busy = true) (henc : s.lOp ≠ .enc)
    (hdec : s.lOp ≠ .dec) : (Machine.engineStep s).phase = .done := by
  rw [engineStep_busy hb, State.nextDraw_phase, engineRow, h.check_of_length hb henc hdec]
  cases hop : s.lOp <;> simp_all [Machine.checkRow]

/-- The fuel of `complete` is enough from any state of the invariant (R296). -/
theorem State.Inv.complete_done {s : State} (h : s.Inv) (hb : s.busy = true) : s.complete.phase = .done := by
  have hne : s.phase ≠ .idle := by
    intro hp
    simp [State.busy, hp, Phase.busy, Phase.stateCode] at hb
  have hkernel {u : Nat} (hu : u = 6 ∧ s.lOp = .enc ∨ u = 8 ∧ s.lOp = .dec) (hf : s.lN / u + 4 ≤ stepBound s.lOp s.lN) :
      s.complete.phase = .done := by
    obtain ⟨hrun, hidle⟩ := State.InProgress.runEngine_idle hu ⟨h, rfl, hne⟩ hf
    exact (State.phase_of_not_busy hidle).resolve_left hrun.notIdle
  have hlength (henc : s.lOp ≠ .enc) (hdec : s.lOp ≠ .dec) (hf : 1 ≤ stepBound s.lOp s.lN) :
      s.complete.phase = .done := by
    have hdone := h.engineStep_length_done hb henc hdec
    rwa [complete_of_one hb (State.busy_of_done hdone) rfl hf]
  cases hop : s.lOp with
  | enc => exact hkernel (.inl ⟨rfl, hop⟩) (by rw [hop]; show s.lN / 6 + 4 ≤ s.lN / 6 + 6; omega)
  | dec => exact hkernel (.inr ⟨rfl, hop⟩) (by rw [hop]; show s.lN / 8 + 4 ≤ s.lN / 8 + 6; omega)
  | enclen => exact hlength (by simp [hop]) (by simp [hop]) (by rw [hop]; exact le_rfl)
  | decest => exact hlength (by simp [hop]) (by simp [hop]) (by rw [hop]; exact le_rfl)

theorem stepBound_le (op : Op) (n : Nat) : stepBound op n ≤ n / 6 + 6 := by
  cases op <;> simp only [stepBound] <;> omega

/-! ### WAIT -/

/-- While the host waits each step of the machine is a step of the engine, and the step after DONE takes the WAIT off
(R101; log 8). -/
theorem stepMany_wait {rest : List Event} : ∀ (k : Nat) {s : State}, s.events = .wait :: rest →
    (∀ j, j < k → (engineStep^[j] s).phase ≠ .done) → (engineStep^[k] s).phase = .done →
    stepMany (k + 1) s = some ((engineStep^[k] s).setEvents rest)
  | 0, s, hev, _, hdone => by
    have hwait : hostWait rest s = s.setEvents rest := if_pos hdone
    simp only [stepMany, step_wait hev, hwait, Function.iterate_zero, id]
  | k + 1, s, hev, hbefore, hdone => by
    have hnow : s.phase ≠ .done := hbefore 0 k.succ_pos
    have hframe : (engineStep s).events = .wait :: rest := (EngineFrame.engineStep s).events.trans hev
    have hwait : hostWait rest s = engineStep s := by
      rw [hostWait, if_neg hnow, ← hframe]
      rfl
    have ih := stepMany_wait k hframe (fun j hj => hbefore (j + 1) (Nat.succ_lt_succ hj)) hdone
    rw [stepMany, step_wait hev, hwait]
    exact ih

/-- A host that waits takes the operation's steps and one more. -/
theorem stepMany_wait_complete {s : State} {rest : List Event} (hev : s.events = .wait :: rest)
    (hdone : s.complete.phase = .done) :
    ∃ k, k ≤ stepBound s.lOp s.lN ∧ stepMany (k + 1) s = some (s.complete.setEvents rest) := by
  obtain ⟨k, hk, hrun, hbusy⟩ := s.complete_eq_iterate
  rw [hrun] at hdone ⊢
  refine ⟨k, hk, stepMany_wait k hev (fun j hj hd => ?_) hdone⟩
  have := hbusy j hj
  rw [State.busy_of_done hd] at this
  cases this

/-- Settles O44: the operation, if one is in progress, runs to its end under the WAIT. -/
theorem waitSeesDone : Obligations.WaitSeesDone := by
  intro s rest hi hne hev
  have hdone : s.complete.phase = .done := by
    cases hb : s.busy with
    | true => exact hi.complete_done hb
    | false =>
      rw [State.complete_of_not_busy hb]
      exact (State.phase_of_not_busy hb).resolve_left hne
  obtain ⟨k, hk, hsteps⟩ := stepMany_wait_complete hev hdone
  exact ⟨k + 1, s.complete.setEvents rest, Nat.succ_le_succ (hk.trans (stepBound_le _ _)), hsteps, hdone, rfl,
    (EngineFrame.complete s).obs⟩

/-! ### Host calls on a block that is not BUSY (R102 to R105) -/

/-- Settles O53: the length call gives the exact capacity, with which the second call gives the function's value. -/
theorem hostCallsReturnTheFunctions : Obligations.HostCallsReturnTheFunctions := by
  intro url pad x n s hidle hwf
  refine ⟨fun hn => ⟨?_, ?_⟩, fun hx he => ?_, fun hx he => ?_⟩
  · obtain ⟨t, ht, -⟩ := callLength_result .enclen url pad n s hidle (.inl rfl) hn
    exact ⟨t, ht⟩
  · obtain ⟨t, ht, -⟩ := callLength_result .decest url pad n s hidle (.inr rfl) hn
    exact ⟨t, ht⟩
  · obtain ⟨s1, hlen, hidle1, hcfg⟩ := callLength_result .enclen url pad x.length s hidle (.inl rfl) hx
    rw [← hcfg] at hwf hx he
    obtain ⟨⟨r, t⟩, ht, rfl : r = _⟩ := Option.map_eq_some_iff.mp (chunkResult_enc url pad x s1 hidle1 hwf hx he)
    refine ⟨t, ?_⟩
    rw [callEncode, hlen]
    exact ht
  · obtain ⟨s1, hlen, hidle1, hcfg⟩ := callLength_result .decest url pad x.length s hidle (.inr rfl) hx
    rw [← hcfg] at hwf hx he
    obtain ⟨⟨r, t⟩, ht, rfl : r = _⟩ := Option.map_eq_some_iff.mp (chunkResult_dec url pad x s1 hidle1 hwf hx he)
    refine ⟨t, ?_⟩
    rw [callDecode, hlen, ← hcfg]
    exact ht

/-! ### Host calls on a BUSY block (logs 33, 34) -/

/-- The WAIT of a call on a BUSY block runs the operation in progress to its end. -/
theorem State.Inv.commandAndWait_busy {s : State} (h : s.Inv) (hb : s.busy = true) (i : Instr) :
    ∃ k t, k ≤ stepBound s.lOp s.lN ∧ t = Machine.engineStep^[k] s ∧ t.phase = .done ∧
      (∀ j, j < k → (Machine.engineStep^[j] s).busy = true) ∧ commandAndWait i s = some t := by
  obtain ⟨k, hk, hrun, hbusy⟩ := s.complete_eq_iterate
  have hdone := h.complete_done hb
  refine ⟨k, s.complete, hk, hrun, hdone, hbusy, ?_⟩
  rw [Machine.commandAndWait_busy i hb]
  exact if_pos hdone

/-- Settles O60: the writes and the command are ignored, and the FILL IN keeps the invariant and the latches. -/
theorem hostCallsWaitForTheOperationInProgress : Obligations.HostCallsWaitForTheOperationInProgress := by
  intro op url pad s hi hb
  refine ⟨fun n => ?_, fun x cap hx => ?_⟩
  · obtain ⟨k, t, hk, ht, hdone, hbusy, hwait⟩ := hi.commandAndWait_busy hb (Instr.ofFields op url pad)
    refine ⟨k, t, hk, ht, hdone, hbusy, ?_⟩
    rw [callLength, hostWrite_busy hb, hwait]
    rfl
  · have hloc : s.located 0 x.length = true := State.located_iff.mpr (.inr (by rwa [Nat.zero_add]))
    have hfill := hostFillIn_located hloc
    have hbu : (s.fill 0 x).busy = true := hb
    obtain ⟨k, t, hk, ht, hdone, hbusy, hwait⟩ := (hi.fill hloc).commandAndWait_busy hbu (Instr.ofFields op url pad)
    refine ⟨s.fill 0 x, k, t, hfill, hk, ht, hdone, hbusy, ?_⟩
    have hcall : callInto op url pad x cap s = some (t.result, t) := by
      rw [callInto, hfill]
      simp only [nextState, Option.bind_eq_bind, Option.bind_some, hostWrite_busy hbu, hwait]
      rfl
    rw [hcall, State.result]
    cases t.err <;> rfl

end Sys2Proof.Machine
end

section
/-! The engine's operations as whole commands (40_engine_ops.md R113 to R132): the length functions, the commands that
end in P_CHECK, and the round trip of ENC and DEC. -/

namespace Sys2Proof.Machine

/-! ### The encoded length (R113) -/

theorem encodedLen_padded (n : Nat) : encodedLen true n = (n + 2) / 3 * 4 := rfl

theorem encodedLen_unpadded (n : Nat) : encodedLen false n = (4 * n + 2) / 3 := rfl

/-- Four characters for each whole group, and four for what is left over. -/
theorem encodedLen_padded_groups (n : Nat) :
    encodedLen true n = 4 * (n / 3) + (if n % 3 = 0 then 0 else 4) := by
  rw [encodedLen_padded]
  split_ifs <;> omega

/-- Four characters for each whole group, and two or three for one or two bytes left over. -/
theorem encodedLen_unpadded_groups (n : Nat) :
    encodedLen false n = 4 * (n / 3) + (if n % 3 = 0 then 0 else if n % 3 = 1 then 2 else 3) := by
  rw [encodedLen_unpadded]
  split_ifs <;> omega

/-- Settles O10: by groups of three bytes the policies differ in the last, incomplete group only. -/
theorem encodedLengthForms : Obligations.EncodedLengthForms := by
  refine ⟨fun n => ⟨encodedLen_padded n, encodedLen_unpadded n, encodedLen_padded_groups n,
    encodedLen_unpadded_groups n⟩, fun pad _ _ h => encodedLen_mono pad h, fun n => ?_⟩
  rw [encodedLen_padded_groups, encodedLen_unpadded_groups]
  split_ifs <;> omega

/-! ### Commands that end in P_CHECK (R114, R117, R121, R122) -/

/-- The launch of a command, its latches by the command's fields (10_state.md R28). -/
theorem State.launch_encode {i : Instr} {op : Op} (hop : i.op = op) (s : State) :
    s.launch (encode i) =
      { s with
        cmd := encode i, lOp := op, lUrl := i.url, lPad := i.pad, lN := s.ilen, lCap := s.ocap
        ipos := 0, opos := 0, acc := 0#8, phase := .check, err := none, rlen := 0, inRace := [] } := by
  subst hop
  rfl

/-- Settles O21: the one step of an ENCLEN ends it Ok with the encoded length. -/
theorem enclenLeavesTheLength : Obligations.EnclenLeavesTheLength := by
  intro i s hop hidle
  rw [exec_eq, runCommand_enclen hidle hop, State.launch_encode hop]
  rfl

/-- Settles O22: the one step of a DECEST ends it Ok with the estimate, which depends on ILEN alone. -/
theorem decestLeavesTheEstimate : Obligations.DecestLeavesTheEstimate := by
  intro i s hop hidle
  rw [exec_eq, runCommand_decest hidle hop, State.launch_encode hop]
  rfl

/-- ENC with a capacity below the encoded length ends in its first step, before a byte of IN is read (R121). -/
theorem runCommand_enc_short {s : State} (hidle : s.busy = false) {w : BitVec 4} (hw : cmdOp w = .enc)
    (hcap : s.ocap < encodedLen (cmdPad w) s.ilen) :
    runCommand w s = .next ((s.launch w).raise .bufferTooSmall).nextDraw := by
  refine runCommand_of_check hidle w (by simp [stepBound, hw]) ?_ rfl
  simp [checkRow, State.required, hw, hcap]

/-- Settles O24: the size check comes before the dispatch to a kernel, so nothing but the launch's registers changes. -/
theorem encWithShortCapacityIsRefused : Obligations.EncWithShortCapacityIsRefused := by
  intro i s hop hidle hcap
  rw [exec_eq, runCommand_enc_short hidle hop hcap, State.launch_encode hop]
  rfl

/-- Settles O25: the empty input needs no capacity and is answered before the dispatch to a kernel. -/
theorem encOfNothingWritesNothing : Obligations.EncOfNothingWritesNothing := by
  intro i s hop hidle hn
  rw [exec_eq, runCommand_enc_empty hidle hop hn, State.launch_encode hop, hn]
  rfl

/-! ### Decoding (R116, R130, R132) -/

/-- Settles O51: the exact bound, and from it the estimate. -/
theorem decodedLengthIsBelowTheEstimate : Obligations.DecodedLengthIsBelowTheEstimate :=
  fun _ _ _ _ _ h => ⟨decRef_length h, decRef_length_lt h⟩

/-- The block with an input filled in from address 0, its length in ILEN and a capacity in OCAP. -/
def State.withInput (s : State) (x : List Byte) (cap : Nat) : State :=
  { s.fill 0 x with ilen := x.length, ocap := cap }

/-- Two host writes after a FILL IN lead there, when the values fit the registers (10_state.md R30). -/
theorem hostWrite_fill {s : State} (hidle : s.busy = false) {x : List Byte} {cap : Nat} (hx : x.length < 2 ^ s.cfg.lenw)
    (hcap : cap < 2 ^ s.cfg.lenw) :
    hostWrite 3 cap (hostWrite 2 x.length (s.fill 0 x)) = s.withInput x cap := by
  have hilen : hostWrite 2 x.length (s.fill 0 x) = { s.fill 0 x with ilen := x.length } := by
    rw [hostWrite_ilen (s := s.fill 0 x) hidle, Nat.mod_eq_of_lt (show x.length < 2 ^ (s.fill 0 x).cfg.lenw from hx)]
  have hocap : cap % 2 ^ ({ s.fill 0 x with ilen := x.length } : State).cfg.lenw = cap := Nat.mod_eq_of_lt hcap
  rw [hilen, hostWrite_ocap (s := { s.fill 0 x with ilen := x.length }) hidle, hocap]
  rfl

/-- The operation's input is then the one filled in (20_memory.md R57). -/
theorem State.withInput_input (s : State) (x : List Byte) (cap : Nat) :
    (s.withInput x cap).input (s.withInput x cap).ilen = x := by
  refine List.ext_getElem (State.input_length _ _) fun k _ hk => ?_
  have hcell : (s.withInput x cap).inCell k = x[k] := by
    show (s.fill 0 x).inCell k = x[k]
    rw [State.inCell_fill, if_pos (by omega), Nat.sub_zero, List.getD_eq_getElem _ _ hk]
  simpa [State.input] using hcell

/-- FILL IN, the operands and a DEC: an input that DEC_REF accepts is decoded (R126, 30_encoding.md R103). -/
theorem fillIn_then_dec {j : Instr} {s : State} {x out : List Byte} {cap : Nat} (hj : j.op = .dec)
    (hidle : s.busy = false) (hwf : s.cfg.wf = true) (hx : x.length < 2 ^ s.cfg.lenw) (hcap : cap < 2 ^ s.cfg.lenw)
    (hest : estimateDecodedLen x.length ≤ cap) (href : decRef s.cfg j.url j.pad x = .ok out) :
    ∃ u v, hostFillIn 0 x s = .next u ∧ exec j (hostWrite 3 cap (hostWrite 2 x.length u)) = .next v ∧
      v.err = none ∧ v.rlen = out.length ∧ v.output v.rlen = out := by
  have hloc : s.located 0 x.length = true := State.located_iff.mpr (.inr (by omega))
  have hinput : decRef s.cfg j.url j.pad ((s.withInput x cap).input (s.withInput x cap).ilen) = .ok out := by
    rw [State.withInput_input, href]
  obtain ⟨v, hv, -, herr, hrlen, -, hout, -⟩ :=
    decCompletesWithTheBytes j (s.withInput x cap) out hj hidle hwf hest hinput
  refine ⟨s.fill 0 x, v, hostFillIn_located hloc, ?_, herr, hrlen, hout⟩
  rw [hostWrite_fill hidle hx hcap, hv]

/-- Settles O34: the DEC finds in IN the bytes the ENC left in OUT, and DEC_REF inverts ENC_REF. -/
theorem decodeOfEncodeIsTheInput : Obligations.DecodeOfEncodeIsTheInput := by
  refine ⟨fun p url pad x _ => decRef_encRef p url pad x, ?_⟩
  intro i j s cap hi hj hurl hpad hidle hwf _ hlen hroom hcap hest
  obtain ⟨t, ht, hframe, -, hrlen, -, -, -, hout, -⟩ := encCompletesWithTheEncoding i s hi hidle hroom
  have hl : (t.output t.rlen).length = t.rlen := State.output_length t t.rlen
  have href : decRef t.cfg j.url j.pad (t.output t.rlen) = .ok (s.input s.ilen) := by
    rw [hout, hurl, hpad, decRef_encRef]
  rw [← hframe.cfg] at hwf hlen hcap
  rw [← hrlen, ← hl] at hlen hest
  obtain ⟨u, v, hu, hv, hverr, hvrlen, hvout⟩ :=
    fillIn_then_dec hj (State.busy_of_done hframe.done) hwf hlen hcap hest href
  rw [hl] at hv
  exact ⟨t, u, v, ht, hu, hv, hverr, hvrlen.trans (State.input_length s s.ilen), hvout⟩

end Sys2Proof.Machine
end

section
/-! The 6-bit shuffle by numbers and by shifts (41_scalar_kernel.md R141, R152, R153): the 24-bit number of a group cut
into four indices and into three bytes, and each index and byte as a shift formula. -/

namespace Sys2Proof.Machine

/-! ### The 24-bit number -/

/-- Concatenation as a number, the first part most significant (R141). -/
theorem toNat_append_add {m n : Nat} (x : BitVec m) (y : BitVec n) : (x ++ y).toNat = x.toNat * 2 ^ n + y.toNat := by
  rw [BitVec.toNat_append, ← Nat.shiftLeft_add_eq_or_of_lt y.isLt, Nat.shiftLeft_eq]

theorem toNat_threeBytes (b0 b1 b2 : Byte) :
    (b0 ++ b1 ++ b2).toNat = b0.toNat * 65536 + b1.toNat * 256 + b2.toNat := by
  simp only [toNat_append_add]
  omega

theorem toNat_fourSextets (v0 v1 v2 v3 : Sextet) :
    (v0 ++ v1 ++ v2 ++ v3).toNat = v0.toNat * 262144 + v1.toNat * 4096 + v2.toNat * 64 + v3.toNat := by
  simp only [toNat_append_add]
  omega

/-- The three bytes cut from a 24-bit number give it back. -/
theorem append_bytes24 (t : BitVec 24) : t.extractLsb' 16 8 ++ t.extractLsb' 8 8 ++ t.extractLsb' 0 8 = t := by
  rw [BitVec.extractLsb'_append_extractLsb'_eq_extractLsb' (by rfl),
    BitVec.extractLsb'_append_extractLsb'_eq_extractLsb' (by rfl)]
  exact BitVec.extractLsb'_eq_self

/-- The four indices cut from a 24-bit number give it back. -/
theorem append_sextets24 (t : BitVec 24) :
    t.extractLsb' 18 6 ++ t.extractLsb' 12 6 ++ t.extractLsb' 6 6 ++ t.extractLsb' 0 6 = t := by
  rw [BitVec.extractLsb'_append_extractLsb'_eq_extractLsb' (by rfl),
    BitVec.extractLsb'_append_extractLsb'_eq_extractLsb' (by rfl),
    BitVec.extractLsb'_append_extractLsb'_eq_extractLsb' (by rfl)]
  exact BitVec.extractLsb'_eq_self

/-! ### The indices and the bytes by shifts -/

/-- The four indices by their shift formulas (R141). -/
theorem split3_shifts (b0 b1 b2 : Byte) :
    (split3 b0 b1 b2).1.setWidth 8 = b0 >>> 2 ∧
      (split3 b0 b1 b2).2.1.setWidth 8 = ((b0 &&& 0x03#8) <<< 4) ||| (b1 >>> 4) ∧
      (split3 b0 b1 b2).2.2.1.setWidth 8 = ((b1 &&& 0x0F#8) <<< 2) ||| (b2 >>> 6) ∧
      (split3 b0 b1 b2).2.2.2.setWidth 8 = b2 &&& 0x3F#8 := by
  refine ⟨?_, ?_, ?_, ?_⟩ <;>
  · refine BitVec.eq_of_getLsbD_eq fun i hi => ?_
    interval_cases i <;>
      simp only [split3, BitVec.getLsbD_setWidth, BitVec.getLsbD_extractLsb', BitVec.getLsbD_append, -Nat.reduceAdd] <;>
      simp

/-- The first byte of a group of characters, by shifts (R152, R153). -/
def joinByte0 (v0 v1 : Sextet) : Byte := (v0.setWidth 8 <<< 2) ||| (v1.setWidth 8 >>> 4)

/-- The second byte of a group of characters, by shifts (R152, R153). -/
def joinByte1 (v1 v2 : Sextet) : Byte := ((v1.setWidth 8 &&& 0x0F#8) <<< 4) ||| (v2.setWidth 8 >>> 2)

/-- The third byte of a group of characters, by shifts (R152). -/
def joinByte2 (v2 v3 : Sextet) : Byte := ((v2.setWidth 8 &&& 0x03#8) <<< 6) ||| v3.setWidth 8

section Join
variable (v0 v1 v2 v3 : Sextet)

theorem extract_joinByte0 : (v0 ++ v1).extractLsb' 4 8 = joinByte0 v0 v1 := by
  refine BitVec.eq_of_getLsbD_eq fun i hi => ?_
  interval_cases i <;>
    simp only [joinByte0, BitVec.getLsbD_extractLsb', BitVec.getLsbD_append, -Nat.reduceAdd] <;> simp

theorem extract_joinByte1 : (v0 ++ v1 ++ v2).extractLsb' 2 8 = joinByte1 v1 v2 := by
  refine BitVec.eq_of_getLsbD_eq fun i hi => ?_
  interval_cases i <;>
    simp only [joinByte1, BitVec.getLsbD_extractLsb', BitVec.getLsbD_append, -Nat.reduceAdd] <;> simp

theorem extract_joinByte2 : (v0 ++ v1 ++ v2 ++ v3).extractLsb' 0 8 = joinByte2 v2 v3 := by
  refine BitVec.eq_of_getLsbD_eq fun i hi => ?_
  interval_cases i <;>
    simp only [joinByte2, BitVec.getLsbD_extractLsb', BitVec.getLsbD_append, -Nat.reduceAdd] <;> simp

/-- One byte from two values (R153). -/
theorem join2_shifts : join2 v0 v1 = [joinByte0 v0 v1] := by
  rw [join2, extract_joinByte0]

/-- Two bytes from three values (R153). -/
theorem join3_shifts : join3 v0 v1 v2 = [joinByte0 v0 v1, joinByte1 v1 v2] := by
  rw [join3, extract_joinByte1, BitVec.extractLsb'_append_eq_of_le (by decide), extract_joinByte0]

/-- The three bytes of the 24-bit number of four values. -/
theorem extract_joinBytes :
    (v0 ++ v1 ++ v2 ++ v3).extractLsb' 16 8 = joinByte0 v0 v1 ∧
      (v0 ++ v1 ++ v2 ++ v3).extractLsb' 8 8 = joinByte1 v1 v2 ∧
      (v0 ++ v1 ++ v2 ++ v3).extractLsb' 0 8 = joinByte2 v2 v3 := by
  refine ⟨?_, ?_, extract_joinByte2 v0 v1 v2 v3⟩
  · rw [BitVec.extractLsb'_append_eq_of_le (by decide), BitVec.extractLsb'_append_eq_of_le (by decide),
      extract_joinByte0]
  · rw [BitVec.extractLsb'_append_eq_of_le (by decide), extract_joinByte1]

/-- Three bytes from four values (R152). -/
theorem join4_shifts : join4 v0 v1 v2 v3 = [joinByte0 v0 v1, joinByte1 v1 v2, joinByte2 v2 v3] := by
  obtain ⟨h0, h1, h2⟩ := extract_joinBytes v0 v1 v2 v3
  rw [join4, h0, h1, h2]

/-- The three bytes of four values make up the 24-bit number of the values. -/
theorem append_joinBytes : joinByte0 v0 v1 ++ joinByte1 v1 v2 ++ joinByte2 v2 v3 = v0 ++ v1 ++ v2 ++ v3 := by
  obtain ⟨h0, h1, h2⟩ := extract_joinBytes v0 v1 v2 v3
  rw [← h0, ← h1, ← h2]
  exact append_bytes24 _

/-- Splitting the bytes of four values gives the values (R152). -/
theorem split3_joinBytes : split3 (joinByte0 v0 v1) (joinByte1 v1 v2) (joinByte2 v2 v3) = (v0, v1, v2, v3) := by
  simp only [split3, append_joinBytes, Prod.mk.injEq]
  refine ⟨?_, ?_, ?_, BitVec.extractLsb'_append_eq_right⟩
  · rw [BitVec.extractLsb'_append_eq_of_le (by decide), BitVec.extractLsb'_append_eq_of_le (by decide),
      BitVec.extractLsb'_append_eq_left]
  · rw [BitVec.extractLsb'_append_eq_of_le (by decide), BitVec.extractLsb'_append_eq_of_le (by decide),
      BitVec.extractLsb'_append_eq_right]
  · rw [BitVec.extractLsb'_append_eq_of_le (by decide), BitVec.extractLsb'_append_eq_right]

end Join

/-- Settles O7: the indices concatenated are the three bytes concatenated. -/
theorem splitGivesTheFourIndices : Obligations.SplitGivesTheFourIndices := by
  intro b0 b1 b2
  refine ⟨_, _, _, _, rfl, ?_, split3_shifts b0 b1 b2⟩
  rw [← toNat_threeBytes, ← toNat_fourSextets]
  exact congrArg BitVec.toNat (append_sextets24 (b0 ++ b1 ++ b2)).symm

/-- Settles O8: the bytes of four values concatenated are the values concatenated. -/
theorem joinInvertsSplit : Obligations.JoinInvertsSplit := by
  refine ⟨join4_split3, fun v0 v1 v2 v3 =>
    ⟨_, _, _, join4_shifts v0 v1 v2 v3, split3_joinBytes v0 v1 v2 v3, ?_, rfl, rfl, rfl⟩⟩
  rw [← toNat_threeBytes, ← toNat_fourSextets]
  exact congrArg BitVec.toNat (append_joinBytes v0 v1 v2 v3)

end Sys2Proof.Machine
end

section
/-! One group and the remainders (41_scalar_kernel.md R141 to R147, R152 to R159): the characters of one, two and three
bytes, the bytes of two, three and four characters, and encodings that compose. -/

namespace Sys2Proof.Machine

/-! ### Encoding -/

/-- The characters of a group are symbols (R142). -/
theorem inAlphabet_of_mem_encGroup {url : Bool} {b0 b1 b2 c : Byte} (h : c ∈ encGroup url b0 b1 b2) :
    InAlphabet url c := by
  simp only [encGroup, List.mem_cons, List.not_mem_nil, or_false] at h
  rcases h with rfl | rfl | rfl | rfl <;> exact ⟨_, rfl⟩

/-- The encoding of whole groups holds symbols only (R147). -/
theorem inAlphabet_of_mem_encRef {url pad : Bool} {c : Byte} :
    ∀ x : List Byte, x.length % 3 = 0 → c ∈ encRef url pad x → InAlphabet url c
  | x, hx, hc => by
    rcases group3_cases hx with rfl | ⟨b0, b1, b2, rest, rfl, hrest⟩
    · rw [encRef_nil] at hc
      cases hc
    · rw [encRef_group, List.mem_append] at hc
      exact hc.elim inAlphabet_of_mem_encGroup (inAlphabet_of_mem_encRef rest hrest)
termination_by x => x.length
decreasing_by subst_vars; simp; omega

/-- Settles O9: the encoding goes group by group, and only a remainder is padded. -/
theorem encodingsComposeAtGroups : Obligations.EncodingsComposeAtGroups :=
  fun url pad x y hx => ⟨encRef_append url pad y x hx,
    fun hpad => padChar_not_inAlphabet (inAlphabet_of_mem_encRef x hx hpad), (encRef_whole url true false x hx).1⟩

/-- A 6-bit value is determined by its byte. -/
theorem setWidth8_injective : Function.Injective fun v : Sextet => v.setWidth 8 :=
  Function.LeftInverse.injective sextet_setWidth

theorem toNat_low4_shifted (b : Byte) : ((b &&& 0x03#8) <<< 4).toNat % 16 = 0 := by revert b; decide

theorem toNat_low2_shifted (b : Byte) : ((b &&& 0x0F#8) <<< 2).toNat % 4 = 0 := by revert b; decide

/-- Settles O56: a remainder is a group whose missing bytes are zero, so the shift formulas are those of the group. -/
theorem encodedGroupsByTheShiftFormulas : Obligations.EncodedGroupsByTheShiftFormulas := by
  intro url pad b0 b1 b2
  obtain ⟨hi0, hi1, hi2, hi3⟩ := split3_shifts b0 b1 b2
  obtain ⟨hf0, hf1, -, -⟩ := split3_shifts b0 0#8 0#8
  obtain ⟨hg0, hg1, hg2, -⟩ := split3_shifts b0 b1 0#8
  have hr1 : (split3 b0 0#8 0#8).2.1.setWidth 8 = (b0 &&& 0x03#8) <<< 4 := by simpa using hf1
  have hr2 : (split3 b0 b1 0#8).2.2.1.setWidth 8 = (b1 &&& 0x0F#8) <<< 2 := by simpa using hg2
  have e0 : (split3 b0 0#8 0#8).1 = (split3 b0 b1 b2).1 := setWidth8_injective (hf0.trans hi0.symm)
  have e0' : (split3 b0 b1 0#8).1 = (split3 b0 b1 b2).1 := setWidth8_injective (hg0.trans hi0.symm)
  have e1' : (split3 b0 b1 0#8).2.1 = (split3 b0 b1 b2).2.1 := setWidth8_injective (hg1.trans hi1.symm)
  refine ⟨_, _, _, _, _, _, hi0, hi1, hi2, hi3, hr1, ?_, hr2, ?_, ?_, ?_, rfl, rfl, ?_⟩
  · rw [← BitVec.toNat_setWidth_of_le (show 6 ≤ 8 by decide), hr1, toNat_low4_shifted]
  · rw [← BitVec.toNat_setWidth_of_le (show 6 ≤ 8 by decide), hr2, toNat_low2_shifted]
  · rw [← e0]; rfl
  · rw [← e0', ← e1']; rfl
  · rw [encRef_group, encRef_nil, List.append_nil]; rfl

/-! ### Decoding -/

/-- An input of less than twelve characters is all tail (R155, R160). -/
theorem decRef_of_length_lt {p : Params} {url pad : Bool} {x : List Byte} (hx : x.length < 12) :
    decRef p url pad x = decTail p url pad x := by
  have ht : tailStart x.length = 0 := by
    unfold tailStart
    split_ifs <;> omega
  rw [decRef, decRefAt, ht, List.take_zero, decBulk_nil, List.drop_zero]
  cases decTail p url pad x <;> rfl

/-- The low four bits of the second value are discarded (R153). -/
theorem joinByte0_congr (v0 : Sextet) {v1 w : Sextet} (h : w >>> 4 = v1 >>> 4) : joinByte0 v0 w = joinByte0 v0 v1 := by
  have hs : ∀ v : Sextet, v.setWidth 8 >>> 4 = (v >>> 4).setWidth 8 := fun v =>
    (BitVec.setWidth_ushiftRight (by decide)).symm
  rw [joinByte0, joinByte0, hs, hs, h]

/-- The low two bits of the third value are discarded (R153). -/
theorem joinByte1_congr (v1 : Sextet) {v2 w : Sextet} (h : w >>> 2 = v2 >>> 2) : joinByte1 v1 w = joinByte1 v1 v2 := by
  have hs : ∀ v : Sextet, v.setWidth 8 >>> 2 = (v >>> 2).setWidth 8 := fun v =>
    (BitVec.setWidth_ushiftRight (by decide)).symm
  rw [joinByte1, joinByte1, hs, hs, h]

section Groups
variable (p : Params) (url pad : Bool) (v0 v1 v2 v3 : Sextet)

/-- A strict group of symbols (R156). -/
theorem decRef_four : decRef p url pad [alpha url v0, alpha url v1, alpha url v2, alpha url v3]
    = .ok (join4 v0 v1 v2 v3) := by
  rw [decRef_of_length_lt (by simp), decTail_group, if_neg (alpha_ne_padChar url v3), decStrictGroup_alpha,
    decTail_nil]
  rfl

/-- A group `xxx=` (R157). -/
theorem decRef_three_padded : decRef p url pad [alpha url v0, alpha url v1, alpha url v2, padChar]
    = .ok (join3 v0 v1 v2) := by
  rw [decRef_of_length_lt (by simp), decTail_group, if_pos rfl, decPaddedGroup, if_neg (alpha_ne_padChar url v2),
    decTriple_alpha]
  rfl

/-- A group `xx==` (R157). -/
theorem decRef_two_padded : decRef p url pad [alpha url v0, alpha url v1, padChar, padChar] = .ok (join2 v0 v1) := by
  rw [decRef_of_length_lt (by simp), decTail_group, if_pos rfl, decPaddedGroup, if_pos rfl, decPair_alpha]
  rfl

/-- A remainder of three symbols (R159). -/
theorem decRef_three : decRef p url pad [alpha url v0, alpha url v1, alpha url v2]
    = if pad then .error .invalidLength else .ok (join3 v0 v1 v2) := by
  rw [decRef_of_length_lt (by simp), decTail, decTriple_alpha]

/-- A remainder of two symbols (R159). -/
theorem decRef_two : decRef p url pad [alpha url v0, alpha url v1]
    = if pad then .error .invalidLength else .ok (join2 v0 v1) := by
  rw [decRef_of_length_lt (by simp), decTail, decPair_alpha]

/-- A remainder of one character (R159). -/
theorem decRef_one (c : Byte) : decRef p url pad [c] = .error .invalidLength := by
  rw [decRef_of_length_lt (by simp), decTail]

end Groups

/-- Settles O57: DEC_REF of one group is its tail, whose bytes are the joins of the values. -/
theorem decodedGroupsByTheShiftFormulas : Obligations.DecodedGroupsByTheShiftFormulas := by
  intro p url pad v0 v1 v2 v3 _
  refine ⟨join2_shifts v0 v1, join3_shifts v0 v1 v2, fun w hw => ?_, fun w hw => ?_, ?_, ?_, ?_, ?_, ?_, ?_⟩
  · rw [join2_shifts, join2_shifts, joinByte0_congr v0 hw]
  · rw [join3_shifts, join3_shifts, joinByte1_congr v1 hw]
  · exact (decRef_four p url pad v0 v1 v2 v3).trans (congrArg _ (join4_shifts v0 v1 v2 v3))
  · exact (decRef_three_padded p url pad v0 v1 v2).trans (congrArg _ (join3_shifts v0 v1 v2))
  · exact (decRef_two_padded p url pad v0 v1).trans (congrArg _ (join2_shifts v0 v1))
  · rw [decRef_three, join3_shifts]; rfl
  · rw [decRef_two, join2_shifts]; rfl
  · exact decRef_one p url pad _

end Sys2Proof.Machine
end

section
/-! What DEC_REF accepts, case by case, and how decodings compose (41_scalar_kernel.md R155 to R162). -/

namespace Sys2Proof.Machine

/-! ### The acceptance set (R161 (a)) -/

/-- A padded group `xx==` or `xxx=`: symbols before the padding (R157). -/
def PaddedGroup (url : Bool) (g : List Byte) : Prop :=
  ∃ c0 c1 c2, g = [c0, c1, c2, padChar] ∧ InAlphabet url c0 ∧ InAlphabet url c1 ∧
    (c2 = padChar ∨ InAlphabet url c2)

/-- Symbols only, in whole groups or, where padding is not required, with a remainder of two or three (R156, R159). -/
def Unpadded (url pad : Bool) (x : List Byte) : Prop :=
  (∀ c ∈ x, InAlphabet url c) ∧ (x.length % 4 = 0 ∨ pad = false ∧ (x.length % 4 = 2 ∨ x.length % 4 = 3))

/-- A padded group at or after `t`, symbols only before it, and after it nothing or, under TERMINATE_OK, anything
(R157, R158). -/
def PaddedFrom (p : Params) (url : Bool) (t : Nat) (x : List Byte) : Prop :=
  ∃ q, t ≤ q ∧ q % 4 = 0 ∧ q + 4 ≤ x.length ∧ PaddedGroup url ((x.drop q).take 4) ∧
    (∀ c ∈ x.take q, InAlphabet url c) ∧ (q + 4 = x.length ∨ p.postPad = .terminateOk)

/-- A padded group after `t` whole groups is one of what follows them. -/
theorem paddedFrom_iff_drop {p : Params} {url : Bool} {t : Nat} {x : List Byte} (ht : t % 4 = 0) (hx : t ≤ x.length) :
    PaddedFrom p url t x ↔ (∀ c ∈ x.take t, InAlphabet url c) ∧ PaddedFrom p url 0 (x.drop t) := by
  have hsplit (q : Nat) : (∀ c ∈ x.take (t + q), InAlphabet url c) ↔
      (∀ c ∈ x.take t, InAlphabet url c) ∧ ∀ c ∈ (x.drop t).take q, InAlphabet url c := by
    rw [List.take_add, List.forall_mem_append]
  constructor
  · rintro ⟨q, hq, hq4, hlen, hg, hv, hend⟩
    obtain ⟨q, rfl⟩ := Nat.exists_eq_add_of_le hq
    obtain ⟨hv1, hv2⟩ := (hsplit q).mp hv
    refine ⟨hv1, q, Nat.zero_le q, by omega, ?_, by rwa [List.drop_drop], hv2, hend.imp_left fun h => ?_⟩ <;>
      rw [List.length_drop] <;> omega
  · rintro ⟨hv1, q, -, hq4, hlen, hg, hv2, hend⟩
    rw [List.length_drop] at hlen hend
    exact ⟨t + q, Nat.le_add_right t q, by omega, by omega, by rwa [← List.drop_drop],
      (hsplit q).mpr ⟨hv1, hv2⟩, hend.imp_left fun h => by omega⟩

/-- Whole groups of symbols do not change whether the rest is unpadded. -/
theorem unpadded_iff_drop {url pad : Bool} {t : Nat} {x : List Byte} (ht : t % 4 = 0) (hx : t ≤ x.length) :
    Unpadded url pad x ↔ (∀ c ∈ x.take t, InAlphabet url c) ∧ Unpadded url pad (x.drop t) := by
  have hmod : (x.drop t).length % 4 = x.length % 4 := by rw [List.length_drop]; omega
  rw [Unpadded, Unpadded, hmod, ← and_assoc, ← List.forall_mem_append, List.take_append_drop]

/-- A padded group somewhere is one at the front or one after the first group. -/
theorem paddedFrom_zero_iff {p : Params} {url : Bool} {a b c d : Byte} {rest : List Byte} :
    PaddedFrom p url 0 (a :: b :: c :: d :: rest) ↔
      (PaddedGroup url [a, b, c, d] ∧ (rest = [] ∨ p.postPad = .terminateOk)) ∨
      PaddedFrom p url 4 (a :: b :: c :: d :: rest) := by
  constructor
  · rintro ⟨q, -, hq4, hlen, hg, hv, hend⟩
    rcases Nat.eq_zero_or_pos q with rfl | hpos
    · refine .inl ⟨hg, hend.imp_left fun h => List.eq_nil_of_length_eq_zero ?_⟩
      simp only [List.length_cons] at h
      omega
    · exact .inr ⟨q, by omega, hq4, hlen, hg, hv, hend⟩
  · rintro (⟨hg, hend⟩ | ⟨q, -, h⟩)
    · exact ⟨0, le_rfl, rfl, by simp, hg, by simp, hend.imp_left fun h => by simp [h]⟩
    · exact ⟨q, Nat.zero_le q, h⟩

theorem paddedGroup_iff {url : Bool} {a b c d : Byte} : PaddedGroup url [a, b, c, d] ↔
    d = padChar ∧ InAlphabet url a ∧ InAlphabet url b ∧ (c = padChar ∨ InAlphabet url c) := by
  constructor
  · rintro ⟨_, _, _, ⟨⟩, h⟩
    exact ⟨rfl, h⟩
  · rintro ⟨rfl, h⟩
    exact ⟨a, b, c, rfl, h⟩

/-- Less than a group holds no padded group. -/
theorem not_paddedFrom_of_lt {p : Params} {url : Bool} {t : Nat} {x : List Byte} (hx : x.length < 4) :
    ¬ PaddedFrom p url t x := by
  rintro ⟨q, -, -, hlen, -⟩
  omega

/-- The tail accepts symbols only, or a padded group that ends it (R157 to R160). -/
theorem tailAccepts_iff {p : Params} {url pad : Bool} :
    ∀ x : List Byte, TailAccepts p url pad x ↔ Unpadded url pad x ∨ PaddedFrom p url 0 x
  | [] => by simp [TailAccepts, Unpadded]
  | [a] => by simp [TailAccepts, Unpadded, not_paddedFrom_of_lt]
  | [a, b] => by simp [TailAccepts, Unpadded, not_paddedFrom_of_lt, and_comm]
  | [a, b, c] => by simp [TailAccepts, Unpadded, not_paddedFrom_of_lt, and_comm]
  | a :: b :: c :: d :: rest => by
    have hlen : 4 ≤ (a :: b :: c :: d :: rest).length := by simp
    have hgroup : (∀ x ∈ (a :: b :: c :: d :: rest).take 4, InAlphabet url x) ↔
        InAlphabet url a ∧ InAlphabet url b ∧ InAlphabet url c ∧ InAlphabet url d := by simp
    rw [TailAccepts, tailAccepts_iff rest, paddedFrom_zero_iff, paddedGroup_iff, unpadded_iff_drop rfl hlen,
      paddedFrom_iff_drop rfl hlen, hgroup]
    constructor
    · rintro (⟨hd, ha, hb, hc, hend⟩ | ⟨ha, hb, hc, hd, hrest | hrest⟩)
      · exact .inr (.inl ⟨⟨hd, ha, hb, hc⟩, hend⟩)
      · exact .inl ⟨⟨ha, hb, hc, hd⟩, hrest⟩
      · exact .inr (.inr ⟨⟨ha, hb, hc, hd⟩, hrest⟩)
    · rintro (⟨⟨ha, hb, hc, hd⟩, hrest⟩ | ⟨⟨hd, ha, hb, hc⟩, hend⟩ | ⟨⟨ha, hb, hc, hd⟩, hrest⟩)
      · exact .inr ⟨ha, hb, hc, hd, .inl hrest⟩
      · exact .inl ⟨hd, ha, hb, hc, hend⟩
      · exact .inr ⟨ha, hb, hc, hd, .inr hrest⟩

/-- DEC_REF accepts exactly symbols only, or a padded group inside the tail window that ends it (R161 (a)). -/
theorem decRef_ok_iff {p : Params} (hp : p.invalidMarked = true) {url pad : Bool} {x : List Byte} :
    (∃ out, decRef p url pad x = .ok out) ↔ Unpadded url pad x ∨ PaddedFrom p url (tailStart x.length) x := by
  have ht : tailStart x.length % 4 = 0 := by have := tailStart_mod x.length; omega
  have hle := tailStart_le x.length
  have hparts : (∃ out, decRef p url pad x = .ok out) ↔
      (∃ a, decBulk p url (x.take (tailStart x.length)) = .ok a) ∧
        ∃ b, decTail p url pad (x.drop (tailStart x.length)) = .ok b := by
    simp only [decRef, decRefAt_ok_iff]
    exact ⟨fun ⟨_, a, b, ha, hb, _⟩ => ⟨⟨a, ha⟩, b, hb⟩, fun ⟨⟨a, ha⟩, b, hb⟩ => ⟨_, a, b, ha, hb, rfl⟩⟩
  rw [hparts, decBulk_ok_iff hp (by rw [List.length_take]; omega), decTail_ok_iff hp, tailAccepts_iff,
    unpadded_iff_drop ht hle, paddedFrom_iff_drop ht hle, and_or_left]

/-- A padded group inside the window ends the input, or stands before more characters under TERMINATE_OK. -/
theorem paddedFrom_tailStart_iff {p : Params} {url : Bool} {x : List Byte} :
    PaddedFrom p url (tailStart x.length) x ↔
      (x.length % 4 = 0 ∧ 4 ≤ x.length ∧ PaddedGroup url (x.drop (x.length - 4)) ∧
        ∀ c ∈ x.take (x.length - 4), InAlphabet url c) ∨
      (p.postPad = .terminateOk ∧ ∃ q, tailStart x.length ≤ q ∧ q % 4 = 0 ∧ q + 4 < x.length ∧
        PaddedGroup url ((x.drop q).take 4) ∧ ∀ c ∈ x.take q, InAlphabet url c) := by
  have hlast : (x.drop (x.length - 4)).take 4 = x.drop (x.length - 4) :=
    List.take_of_length_le (by rw [List.length_drop]; omega)
  constructor
  · rintro ⟨q, htq, hq4, hlen, hg, hv, hend⟩
    rcases hlen.eq_or_lt with heq | hlt
    · obtain rfl : q = x.length - 4 := by omega
      exact .inl ⟨by omega, by omega, hlast ▸ hg, hv⟩
    · exact .inr ⟨hend.resolve_left hlt.ne, q, htq, hq4, hlt, hg, hv⟩
  · rintro (⟨h4, hle, hg, hv⟩ | ⟨hpol, q, htq, hq4, hlt, hg, hv⟩)
    · have ht := tailStart_cases x.length
      exact ⟨x.length - 4, by omega, by omega, by omega, hlast.symm ▸ hg, hv, .inl (by omega)⟩
    · exact ⟨q, htq, hq4, hlt.le, hg, hv, .inr hpol⟩

/-- Settles O48: the four cases are those of `decRef_ok_iff`, each by what ends the input. -/
theorem decodeAcceptsExactlyTheseInputs : Obligations.DecodeAcceptsExactlyTheseInputs := by
  intro p url pad x hp
  refine (decRef_ok_iff hp).trans ?_
  rw [paddedFrom_tailStart_iff]
  constructor
  · rintro (⟨hv, hwhole | ⟨hpad, hrem⟩⟩ | hlast | hbefore)
    · exact .inl ⟨hwhole, hv⟩
    · exact .inr (.inr (.inl ⟨hpad, hrem, hv⟩))
    · exact .inr (.inl hlast)
    · exact .inr (.inr (.inr hbefore))
  · rintro (⟨hwhole, hv⟩ | hlast | ⟨hpad, hrem, hv⟩ | hbefore)
    · exact .inl ⟨hv, .inl hwhole⟩
    · exact .inr (.inl hlast)
    · exact .inl ⟨hv, .inr ⟨hpad, hrem⟩⟩
    · exact .inr (.inr hbefore)

/-! ### The window under REJECT (R161 (b)) -/

theorem tailStart_le_sub (n : Nat) : tailStart n ≤ n - 4 := by have := tailStart_cases n; omega

/-- Under REJECT DEC_REF is its tail from the first character on. -/
theorem decRef_reject {p : Params} (hp : p.invalidMarked = true) (hrej : p.postPad = .reject) (url pad : Bool)
    (x : List Byte) : decRef p url pad x = decTail p url pad x :=
  decRefAt_eq_decTail hp hrej _ x (by have := tailStart_mod x.length; omega) (tailStart_le_sub x.length)

/-- Settles O49: under REJECT each window gives what a tail from the first character on gives. -/
theorem windowDoesNotMatterUnderReject : Obligations.WindowDoesNotMatterUnderReject := by
  intro p url pad x t hp hrej ht hle
  rw [decRef_reject hp hrej, decRefAt_eq_decTail hp hrej t x ht hle]

/-! ### Composition (R162) -/

/-- Strict decoding of whole groups at the front of the bulk. -/
theorem decRefAt_append_right {p : Params} {url pad : Bool} {x y : List Byte} (hx : x.length % 4 = 0) (t : Nat) :
    decRefAt p url pad (x.length + t) (x ++ y)
      = (decBulk p url x).bind fun a => (decRefAt p url pad t y).bind fun b => .ok (a ++ b) := by
  have htake : (x ++ y).take (x.length + t) = x ++ y.take t := List.take_length_add_append t
  have hdrop : (x ++ y).drop (x.length + t) = y.drop t := List.drop_length_add_append t
  simp only [decRefAt, htake, hdrop, decBulk_append p url (y.take t) x hx, bind]
  cases decBulk p url x with
  | error e => rfl
  | ok a =>
    cases decBulk p url (y.take t) with
    | error e => rfl
    | ok b =>
      cases decTail p url pad (y.drop t) with
      | error e => rfl
      | ok c => simp [Except.bind, pure, Except.pure]

/-- After a multiple of eight characters the window starts as it would without them, or inside them (R155). -/
theorem tailStart_add {m n : Nat} (hm : m % 8 = 0) :
    tailStart (m + n) = m + tailStart n ∨ (n < 12 ∧ tailStart (m + n) ≤ m) := by
  unfold tailStart
  split_ifs <;> omega

/-- Symbols at the front, a multiple of eight of them or of four under REJECT, decode by themselves. -/
theorem decRef_append {p : Params} (hp : p.invalidMarked = true) {url pad : Bool} {x y : List Byte}
    (hv : ∀ c ∈ x, InAlphabet url c) (hx : x.length % 8 = 0 ∨ (x.length % 4 = 0 ∧ p.postPad = .reject)) :
    decRef p url pad (x ++ y)
      = (decBulk p url x).bind fun a => (decRef p url pad y).bind fun b => .ok (a ++ b) := by
  rcases hx with h8 | ⟨h4, hrej⟩
  · rw [decRef, List.length_append]
    rcases tailStart_add (n := y.length) h8 with ht | ⟨hy, ht⟩
    · rw [ht, decRefAt_append_right (by omega)]
      rfl
    · have hmod := tailStart_mod (x.length + y.length)
      rw [decRefAt_append (by omega) hv (by omega) ht, decRef_of_length_lt hy]
  · rw [decRef_reject hp hrej, decRef_reject hp hrej, decTail_append x h4 hv]

/-- Settles O50: the groups of symbols decode, so their bytes stand before what DEC_REF of the rest gives. -/
theorem decodingsComposeAtMultiplesOfEight : Obligations.DecodingsComposeAtMultiplesOfEight := by
  intro p url pad x y hp hv hx
  have h4 : x.length % 4 = 0 := by omega
  obtain ⟨a, ha⟩ := (decBulk_ok_iff hp h4).mpr hv
  obtain ⟨_, hout, hlen⟩ := (decBulk_cases p url x h4).resolve_left (by simp [ha])
  cases ha.symm.trans hout
  refine ⟨a, ha, hlen, ?_⟩
  rw [decRef_append hp hv hx, ha]
  cases decRef p url pad y <;> rfl

end Sys2Proof.Machine
end

section
/-! The scalar fast steps (41_scalar_kernel.md R170, R171): six bytes to eight characters, eight characters to six
bytes. -/

namespace Sys2Proof.Machine

/-- A write to OUT read back: its bytes at its addresses (20_memory.md R57). -/
theorem State.map_outCell_writeOut (s : State) (a : Nat) {bs : List Byte} {n : Nat} (hn : bs.length = n) :
    ((List.range n).map fun k => (s.writeOut a bs).outCell (a + k)) = bs := by
  refine List.ext_getElem (by simp [hn]) fun k _ hk => ?_
  simp [State.outCell_writeOut, hk]

/-- In P_SLOOP an engine step is the row of P_SLOOP (43_dispatcher.md R225). -/
theorem engineStep_sloop {s : State} (hp : s.phase = .sloop) : engineStep s = (sloopRow s).nextDraw := by
  have hb : s.busy = true := by simp [State.busy, hp, Phase.busy, Phase.stateCode]
  rw [engineStep_busy hb, engineRow, hp]

theorem engineStep_scalarEncode {s : State} (hp : s.phase = .sloop) (hop : s.lOp = .enc) (hn : s.ipos + 6 ≤ s.lN) :
    engineStep s = (scalarEncodeStep s).nextDraw := by
  rw [engineStep_sloop hp, sloopRow, hop]
  exact congrArg State.nextDraw (if_pos hn)

theorem engineStep_scalarDecode {s : State} (hp : s.phase = .sloop) (hop : s.lOp = .dec) (hn : s.ipos + 12 ≤ s.lN) :
    engineStep s = (scalarDecodeStep s).nextDraw := by
  rw [engineStep_sloop hp, sloopRow, hop]
  exact congrArg State.nextDraw (if_pos hn)

/-- The scalar encode fast step without host writes while BUSY: one write and the positions (R170). -/
theorem scalarEncodeStep_quiet {s : State} (hq : s.inRace = []) :
    scalarEncodeStep s =
      (s.writeOut s.opos (encGroup s.lUrl (s.inCell s.ipos) (s.inCell (s.ipos + 1)) (s.inCell (s.ipos + 2))
        ++ encGroup s.lUrl (s.inCell (s.ipos + 3)) (s.inCell (s.ipos + 4)) (s.inCell (s.ipos + 5)))).advance 6 8 := by
  simp only [scalarEncodeStep, State.inByte_quiet hq, Nat.add_zero]

/-! ### The scalar decode fast step (R171) -/

/-- The OR of the lookups, taken from the left (10_state.md R34). -/
theorem foldl_or_eq_orAll (vs : List Byte) (a : Byte) : vs.foldl (fun a v => a ||| v) a = a ||| orAll vs := by
  induction vs generalizing a with
  | nil => simp [orAll]
  | cons v vs ih => rw [List.foldl_cons, ih, orAll, BitVec.or_assoc]

section Decode
variable (s : State)

/-- The eight lookups of a scalar decode fast step. -/
def State.lookups : List Byte := (s.readIn s.ipos 8).map (dt s.cfg.invalid s.lUrl)

/-- ACC is the OR of the eight lookups, whether one is INVALID or not (R34, R150). -/
theorem scalarDecodeStep_acc : (scalarDecodeStep s).acc = orAll s.lookups := by
  rw [scalarDecodeStep_eq]
  split_ifs <;> rfl

theorem scalarDecodeStep_bad (hb : bad s.lookups = true) :
    scalarDecodeStep s = (s.setAcc (orAll s.lookups)).decRaise .invalidCharacter :=
  (scalarDecodeStep_eq s).trans (if_pos hb)

theorem scalarDecodeStep_good (hb : bad s.lookups = false) :
    scalarDecodeStep s = storeEight (s.setAcc (orAll s.lookups)) s.lookups :=
  (scalarDecodeStep_eq s).trans (if_neg (by rw [← State.lookups, hb]; decide))

/-- Eight valid characters decode to the two groups of their lookups (R156, R171). -/
theorem decBulk_of_lookups (hb : bad s.lookups = false) :
    decBulk s.cfg s.lUrl (s.readIn s.ipos 8) = .ok
      (join4 (sextet (s.lookups.getD 0 0#8)) (sextet (s.lookups.getD 1 0#8)) (sextet (s.lookups.getD 2 0#8))
          (sextet (s.lookups.getD 3 0#8)) ++
        join4 (sextet (s.lookups.getD 4 0#8)) (sextet (s.lookups.getD 5 0#8)) (sextet (s.lookups.getD 6 0#8))
          (sextet (s.lookups.getD 7 0#8))) :=
  (decBulk_eight s.cfg s.lUrl (s.inByte s.ipos) (s.inByte (s.ipos + 1)) (s.inByte (s.ipos + 2))
    (s.inByte (s.ipos + 3)) (s.inByte (s.ipos + 4)) (s.inByte (s.ipos + 5)) (s.inByte (s.ipos + 6))
    (s.inByte (s.ipos + 7))).trans (if_neg (Bool.eq_false_iff.mp hb))

/-- Eight valid characters: the six bytes stored are the strict decoding of the two groups, and after them at most one
byte of OUT changes (R171). -/
theorem scalarDecodeStep_out (hb : bad s.lookups = false) :
    .ok ((List.range 6).map fun k => (scalarDecodeStep s).outCell (s.opos + k))
        = decBulk s.cfg s.lUrl (s.readIn s.ipos 8) ∧
      ∀ x, x < s.opos ∨ s.opos + 7 ≤ x → (scalarDecodeStep s).outCell x = s.outCell x := by
  obtain ⟨hbytes, hframe⟩ := storeEight_outCell (s.setAcc (orAll s.lookups)) s.lookups
  simp only [← scalarDecodeStep_good s hb, State.setAcc_opos, State.setAcc_outCell] at hbytes hframe
  refine ⟨?_, hframe⟩
  rw [decBulk_of_lookups s hb]
  refine congrArg Except.ok (List.ext_getElem (by simp) fun k hk hk' => ?_)
  rw [List.length_map, List.length_range] at hk
  rw [List.getElem_map, List.getElem_range, hbytes k hk, List.getD_eq_getElem _ _ hk']

end Decode

theorem Params.wf_invalidMarked {p : Params} (h : p.wf = true) : p.invalidMarked = true := by
  simp only [Params.wf, Bool.and_eq_true] at h
  exact h.2

/-- Settles O39: the encode step is one write; the decode step raises or stores, by one test of its eight lookups. -/
theorem scalarFastStepsMoveSixAndEight : Obligations.ScalarFastStepsMoveSixAndEight := by
  intro s hp hq hwf
  refine ⟨fun hop hn => ?_, fun hop hn => ?_⟩
  · rw [engineStep_scalarEncode hp hop hn, scalarEncodeStep_quiet hq]
    simp only [State.nextDraw_phase, State.nextDraw_ipos, State.nextDraw_opos, State.nextDraw_outCell,
      State.advance_phase, State.advance_ipos, State.advance_opos, State.advance_outCell, State.writeOut_phase,
      State.writeOut_ipos, State.writeOut_opos]
    exact ⟨hp, trivial, trivial, State.map_outCell_writeOut s s.opos (by simp),
      fun x hx => State.outCell_writeOut_outside s hx⟩
  · rw [engineStep_scalarDecode hp hop hn]
    simp only [State.nextDraw_phase, State.nextDraw_ipos, State.nextDraw_opos, State.nextDraw_outCell,
      State.nextDraw_acc, State.nextDraw_err, State.nextDraw_rlen]
    have hiff := bad_lookups_iff_exists_invalid (Params.wf_invalidMarked hwf) s.lUrl (s.readIn s.ipos 8)
    refine ⟨?_, ?_, fun hvalid => ?_⟩
    · rw [foldl_or_eq_orAll, BitVec.zero_or]
      exact scalarDecodeStep_acc s
    · rw [← hiff]
      constructor
      · intro hb
        rw [scalarDecodeStep_bad s hb]
        exact ⟨rfl, rfl, rfl⟩
      · rintro ⟨hdone, -⟩
        by_contra hb
        rw [scalarDecodeStep_good s (Bool.eq_false_iff.mpr hb), storeEight_phase, State.setAcc_phase, hp] at hdone
        cases hdone
    · have hb : bad s.lookups = false := Bool.eq_false_iff.mpr fun hb =>
        let ⟨x, hx, hxi⟩ := hiff.mp hb
        hvalid x hx hxi
      obtain ⟨hbytes, hframe⟩ := scalarDecodeStep_out s hb
      refine ⟨?_, ?_, ?_, hbytes, hframe⟩
      · rw [scalarDecodeStep_good s hb, storeEight_phase, State.setAcc_phase, hp]
      · rw [scalarDecodeStep_good s hb, storeEight_ipos, State.setAcc_ipos]
      · rw [scalarDecodeStep_good s hb, storeEight_opos, State.setAcc_opos]

end Sys2Proof.Machine
end

section
/-! The vector chunk steps (42_vector_kernels.md R181 to R204): what a tier owes on one chunk, and what each stage leaves
in the registers of the tier, sub-lane by sub-lane and group by group. -/

namespace Sys2Proof.Machine

/-! ### The step -/

section Step
variable {s : State} (hp : s.phase = .vloop) (ht : s.tier ≠ .scalar)
include hp

/-- In P_VLOOP an engine step is the row of P_VLOOP (43_dispatcher.md R225). -/
theorem engineStep_vloop : engineStep s = (vloopRow s).nextDraw := by
  have hb : s.busy = true := by simp [State.busy, hp, Phase.busy, Phase.stateCode]
  rw [engineStep_busy hb, engineRow, hp]

include ht

theorem engineStep_vectorEncode (hop : s.lOp = .enc) (hn : s.ipos + s.tier.chunkIn ≤ s.lN) :
    engineStep s = (vectorEncodeChunk s).nextDraw := by
  rw [engineStep_vloop hp, vloopRow_enc ht hop, if_pos hn]

theorem engineStep_vectorDecode (hop : s.lOp = .dec) (hn : s.ipos + s.tier.bytes + s.cfg.vdecMargin ≤ s.lN) :
    engineStep s = (vectorDecodeChunk s).nextDraw := by
  rw [engineStep_vloop hp, vloopRow_dec ht hop, if_pos hn]

end Step

section Chunk
variable (s : State)

theorem State.readIn_chunkIn_length (a : Nat) : (s.readIn a s.tier.chunkIn).length = 12 * s.tier.subs :=
  s.readIn_length a _

theorem State.readIn_bytes_length (a : Nat) : (s.readIn a s.tier.bytes).length = 16 * s.tier.subs :=
  s.readIn_length a _

/-- What an encode chunk step computes, register by register, from its bytes at IPOS. -/
def State.encRegs : VecRegs := encChunk s.lUrl s.tier.subs s.freeLane (s.readIn s.ipos s.tier.chunkIn)

/-- What a decode chunk step computes, register by register, from its characters at IPOS. -/
def State.decRegs : VecRegs := decChunk s.lUrl s.tier.subs s.freeLane (s.readIn s.ipos s.tier.bytes)

/-- The result register of an encode chunk is the encoding of its bytes (R181). -/
theorem State.encRegs_result : s.encRegs.result = encRef s.lUrl s.lPad (s.readIn s.ipos s.tier.chunkIn) :=
  encChunk_result s.lUrl s.lPad s.tier.subs s.freeLane _ (s.readIn_chunkIn_length _)

theorem State.encRegs_result_length : s.encRegs.result.length = s.tier.bytes :=
  encChunk_result_length s.lUrl s.tier.subs s.freeLane _ (s.readIn_chunkIn_length _)

theorem State.decRegs_result_length : s.decRegs.result.length = s.tier.bytes :=
  decChunk_result_length s.lUrl s.tier.subs s.freeLane _ (s.readIn_bytes_length _)

theorem vectorEncodeChunk_eq :
    vectorEncodeChunk s = ((s.setVec (s.vec.update s.tier s.encRegs)).writeOut s.opos s.encRegs.result).advance
      s.tier.chunkIn s.tier.bytes := rfl

theorem vectorDecodeChunk_bad (hb : chunkFails s.decRegs = true) :
    vectorDecodeChunk s = (s.setVec (s.vec.update s.tier (s.decRegs.failed s.freeLane s.tier.bytes))).decRaise
      .invalidCharacter :=
  if_pos hb

theorem vectorDecodeChunk_good (hb : chunkFails s.decRegs = false) :
    vectorDecodeChunk s = (storeSubLanes (s.setVec (s.vec.update s.tier s.decRegs)) s.opos s.tier.subs
      s.decRegs.result).advance s.tier.bytes s.tier.chunkIn :=
  if_neg (Bool.eq_false_iff.mp hb)

/-- A decode chunk fails exactly when one of its lookups is INVALID (R181, R199). -/
theorem chunkFails_iff_exists_invalid (hi : s.cfg.invalidMarked = true) :
    chunkFails s.decRegs = true ↔ ∃ x ∈ s.readIn s.ipos s.tier.bytes, dt s.cfg.invalid s.lUrl x = s.cfg.invalid := by
  rw [← bad_lookups_iff_exists_invalid hi, bad_map_dt hi, State.decRegs,
    decChunk_fails _ _ _ _ (s.readIn_bytes_length _)]

/-- A chunk that does not fail packs the strict decoding of its characters into lanes 0 to 11 of its sub-lanes (R181,
R201). -/
theorem decBulk_of_decRegs (hi : s.cfg.invalidMarked = true) (hb : chunkFails s.decRegs = false) :
    decBulk s.cfg s.lUrl (s.readIn s.ipos s.tier.bytes) = .ok (packedLanes s.tier.subs s.decRegs.result) :=
  decChunk_result hi s.lUrl s.tier.subs s.freeLane _ (s.readIn_bytes_length _)
    ((decChunk_fails _ _ _ _ (s.readIn_bytes_length _)).symm.trans hb)

/-- A chunk that does not fail: the bytes stored are the strict decoding of its characters, and after them at most four
bytes of OUT change (R205). -/
theorem vectorDecodeChunk_out (hi : s.cfg.invalidMarked = true) (hb : chunkFails s.decRegs = false) :
    .ok ((List.range s.tier.chunkIn).map fun k => (vectorDecodeChunk s).outCell (s.opos + k))
        = decBulk s.cfg s.lUrl (s.readIn s.ipos s.tier.bytes) ∧
      ∀ x, x < s.opos ∨ s.opos + s.tier.chunkIn + 4 ≤ x → (vectorDecodeChunk s).outCell x = s.outCell x := by
  have hl : s.decRegs.result.length = 16 * s.tier.subs := s.decRegs_result_length
  obtain ⟨hbelow, hbytes, habove⟩ := storeSubLanes_outCell s.tier.subs (s.setVec (s.vec.update s.tier s.decRegs))
    s.opos s.decRegs.result hl
  rw [vectorDecodeChunk_good s hb, State.advance_outCell]
  refine ⟨?_, fun x hx => hx.elim (hbelow x) (habove x)⟩
  rw [decBulk_of_decRegs s hi hb]
  have hpacked : (packedLanes s.tier.subs s.decRegs.result).length = s.tier.chunkIn := packedLanes_length _ _ hl
  refine congrArg Except.ok (List.ext_getElem (by simp [hpacked]) fun k hk hk' => ?_)
  rw [List.length_map, List.length_range] at hk
  rw [List.getElem_map, List.getElem_range, hbytes k hk, List.getD_eq_getElem _ _ hk']

end Chunk

/-- Settles O37: the encode chunk is one write of its result register; the decode chunk raises or stores, by the OR of
its class masks. -/
theorem vectorChunkDoesWhatATierOwes : Obligations.VectorChunkDoesWhatATierOwes := by
  refine ⟨by decide, fun s hp ht _ hwf => ⟨fun hop hn => ?_, fun hop hn => ?_⟩⟩
  · rw [engineStep_vectorEncode hp ht hop hn, vectorEncodeChunk_eq, ← s.encRegs_result, ← s.encRegs_result_length]
    exact ⟨hp, rfl, rfl, State.map_outCell_writeOut _ s.opos rfl, fun x hx => State.outCell_writeOut_outside _ hx⟩
  · have hi := Params.wf_invalidMarked hwf
    have hiff := chunkFails_iff_exists_invalid s hi
    rw [engineStep_vectorDecode hp ht hop hn]
    simp only [State.nextDraw_phase, State.nextDraw_ipos, State.nextDraw_opos, State.nextDraw_outCell,
      State.nextDraw_err, State.nextDraw_rlen]
    cases hb : chunkFails s.decRegs with
    | true =>
      obtain ⟨x, hx, hxi⟩ := hiff.mp hb
      rw [vectorDecodeChunk_bad s hb]
      exact ⟨⟨fun _ => ⟨rfl, rfl, rfl⟩, fun _ => ⟨x, hx, hxi⟩⟩, fun hvalid => absurd hxi (hvalid x hx)⟩
    | false =>
      have hout := vectorDecodeChunk_out s hi hb
      obtain ⟨hphase, -, hipos, hopos, -⟩ := storeSubLanes_fields s.tier.subs
        (s.setVec (s.vec.update s.tier s.decRegs)) s.opos s.decRegs.result
      have hvloop : (vectorDecodeChunk s).phase = .vloop := by
        rw [vectorDecodeChunk_good s hb, State.advance_phase, hphase, State.setVec_phase, hp]
      refine ⟨⟨fun hx => ?_, fun ⟨hdone, _⟩ => ?_⟩, fun _ => ⟨hvloop, ?_, ?_, hout⟩⟩
      · rw [hiff.mpr hx] at hb
        cases hb
      · rw [hvloop] at hdone
        cases hdone
      · rw [vectorDecodeChunk_good s hb, State.advance_ipos, hipos, State.setVec_ipos]
      · rw [vectorDecodeChunk_good s hb, State.advance_opos, hopos, State.setVec_opos]

/-! ### Groups of a register -/

theorem getD_take_drop (x : List Byte) {a b i : Nat} (hi : i < b) :
    ((x.drop a).take b).getD i 0#8 = x.getD (a + i) 0#8 := by
  simp [List.getD_eq_getElem?_getD, hi]

theorem getD_map_of_lt {x : List Byte} (f : Byte → Byte) {k : Nat} (hk : k < x.length) :
    (x.map f).getD k 0#8 = f (x.getD k 0#8) := by
  simp [List.getD_eq_getElem?_getD, hk]

/-- A working register of a tier: its lanes are those of the sub-lanes, one after the other (R207). -/
structure IsRegister (q : VecRegs → List Byte) : Prop where
  empty : q VecRegs.empty = []
  append : ∀ a b, q (a.append b) = q a ++ q b
  mem : ∀ v : VecRegs, q v ∈ v.registers

theorem isRegister_loaded : IsRegister VecRegs.loaded := ⟨rfl, fun _ _ => rfl, fun _ => by simp [VecRegs.registers]⟩
theorem isRegister_shuffled : IsRegister VecRegs.shuffled := ⟨rfl, fun _ _ => rfl, fun _ => by simp [VecRegs.registers]⟩
theorem isRegister_product1 : IsRegister VecRegs.product1 := ⟨rfl, fun _ _ => rfl, fun _ => by simp [VecRegs.registers]⟩
theorem isRegister_product2 : IsRegister VecRegs.product2 := ⟨rfl, fun _ _ => rfl, fun _ => by simp [VecRegs.registers]⟩
theorem isRegister_index : IsRegister VecRegs.index := ⟨rfl, fun _ _ => rfl, fun _ => by simp [VecRegs.registers]⟩

section SubLanes
variable {f : (Nat → Nat → Byte) → List Byte → VecRegs} {sub : Nat} (hf : ∀ g x, x.length = sub → (f g x).Lanes 16)
  {k : Nat} (g : Nat → Nat → Byte) {x : List Byte} (hx : x.length = sub * k)
include hf hx

/-- Sub-lane `j` of a register of a chunk is that register of the sub-lane's own input (R207). -/
theorem IsRegister.subLane {q : VecRegs → List Byte} (hq : IsRegister q) {j : Nat} (hj : j < k) :
    ((q (onSubLanes f sub k g x)).drop (16 * j)).take 16
      = q (f (fun r i => g r (16 * j + i)) ((x.drop (sub * j)).take sub)) :=
  (onSubLanes_subLane hq.empty hq.append (fun g x h => hf g x h _ (hq.mem _)) k g x hx).2 j hj

/-- Group `n` of a register of a chunk, lanes `4 n` to `4 n + 3`, is a group of its sub-lane's register (R207). -/
theorem IsRegister.group {q : VecRegs → List Byte} (hq : IsRegister q) {n : Nat} (hn : n / 4 < k) :
    ((q (onSubLanes f sub k g x)).drop (4 * n)).take 4
      = ((q (f (fun r i => g r (16 * (n / 4) + i)) ((x.drop (sub * (n / 4))).take sub))).drop (4 * (n % 4))).take
        4 := by
  rw [← hq.subLane hf g hx hn, List.drop_take, List.take_take, List.drop_drop,
    show min 4 (16 - 4 * (n % 4)) = 4 by omega, show 16 * (n / 4) + 4 * (n % 4) = 4 * n by omega]

end SubLanes

/-- What every sub-lane has and concatenation keeps, a chunk has (R207). -/
theorem onSubLanes_induction {P : VecRegs → Prop} (h0 : P VecRegs.empty)
    (happ : ∀ a b, P a → P b → P (a.append b)) {f : (Nat → Nat → Byte) → List Byte → VecRegs} {sub : Nat}
    (hf : ∀ g x, x.length = sub → P (f g x)) :
    ∀ (k : Nat) (g : Nat → Nat → Byte) (x : List Byte), x.length = sub * k → P (onSubLanes f sub k g x)
  | 0, _, _, _ => h0
  | k + 1, g, x, h => by
    rw [Nat.mul_succ] at h
    exact happ _ _ (hf g _ (by simp; omega)) (onSubLanes_induction h0 happ hf k _ _ (by simp; omega))

/-! ### The stages of an encode chunk -/

/-- At group `n`, the registers hold the shuffle, the products and the indices of the bytes `b0`, `b1`, `b2` (R182 to
R186). -/
def VecRegs.EncGroup (v : VecRegs) (n : Nat) (b0 b1 b2 : Byte) : Prop :=
  let i := split3 b0 b1 b2
  (v.shuffled.drop (4 * n)).take 4 = [b1, b0, b2, b1] ∧
  (v.product1.drop (4 * n)).take 4 = [i.1.setWidth 8, 0#8, i.2.2.1.setWidth 8, 0#8] ∧
  (v.product2.drop (4 * n)).take 4 = [0#8, i.2.1.setWidth 8, 0#8, i.2.2.2.setWidth 8] ∧
  (v.index.drop (4 * n)).take 4
    = [i.1.setWidth 8, i.2.1.setWidth 8, i.2.2.1.setWidth 8, i.2.2.2.setWidth 8]

section EncStages
variable (url : Bool) {k : Nat} (g : Nat → Nat → Byte) {x : List Byte} (hx : x.length = 12 * k)
include hx

theorem encChunk_encGroup {n : Nat} (hn : n / 4 < k) :
    (encChunk url k g x).EncGroup n (x.getD (3 * n) 0#8) (x.getD (3 * n + 1) 0#8) (x.getD (3 * n + 2) 0#8) := by
  have hsub : ((x.drop (12 * (n / 4))).take 12).length = 12 := by simp; omega
  obtain ⟨-, hgroup, -⟩ := encSubLane_stages url (fun r i => g r (16 * (n / 4) + i)) _ hsub
  have h := hgroup (n % 4) (by omega)
  have hb : ∀ i < 3, ((x.drop (12 * (n / 4))).take 12).getD (3 * (n % 4) + i) 0#8 = x.getD (3 * n + i) 0#8 := by
    intro i hi
    rw [getD_take_drop x (by omega)]
    congr 1
    omega
  simp only [hb 0 (by omega), hb 1 (by omega), hb 2 (by omega)] at h
  have hlanes := encSubLane_lanes url
  rw [VecRegs.EncGroup, encChunk, isRegister_shuffled.group hlanes g hx hn, isRegister_product1.group hlanes g hx hn,
    isRegister_product2.group hlanes g hx hn, isRegister_index.group hlanes g hx hn]
  exact h

/-- The load of an encode chunk: 12 bytes a sub-lane (R182). -/
theorem encChunk_loaded {j : Nat} (hj : j < k) :
    ((encChunk url k g x).loaded.drop (16 * j)).take 12 = (x.drop (12 * j)).take 12 := by
  have hsub : ((x.drop (12 * j)).take 12).length = 12 := by simp; omega
  obtain ⟨hload, -, -⟩ := encSubLane_stages url (fun r i => g r (16 * j + i)) _ hsub
  rw [← hload, ← isRegister_loaded.subLane (encSubLane_lanes url) g hx hj, List.take_take]
  rfl

/-- The characters of an encode chunk are those of its indices (R187). -/
theorem encChunk_characters :
    (encChunk url k g x).result = (encChunk url k g x).index.map fun i => alpha url (i.setWidth 6) := by
  refine onSubLanes_induction (P := fun v => v.result = v.index.map fun i => alpha url (i.setWidth 6)) rfl
    (fun a b ha hb => ?_) (fun g x h => (encSubLane_stages url g x h).2.2) k g x hx
  simp only [VecRegs.append, ha, hb, List.map_append]

end EncStages

/-! ### The stages of a decode chunk -/

/-- At group `n`, the registers hold the two multiply-add products of the indices `i0` to `i3` (R203, R204). -/
def VecRegs.DecGroup (v : VecRegs) (n : Nat) (i0 i1 i2 i3 : Sextet) : Prop :=
  (v.product1.drop (4 * n)).take 4
    = bytes16 (BitVec.ofNat 16 (64 * i0.toNat + i1.toNat)) ++ bytes16 (BitVec.ofNat 16 (64 * i2.toNat + i3.toNat)) ∧
  ∃ o0 o1 o2, join4 i0 i1 i2 i3 = [o0, o1, o2] ∧ (v.product2.drop (4 * n)).take 4 = [o2, o1, o0, 0#8]

/-- The class masks are the comparisons of the classes (R198). -/
theorem classMask_eq (url : Bool) (c : Byte) :
    classMask url .upper c = (if 0x41 ≤ c.toNat ∧ c.toNat ≤ 0x5A then 0xFF#8 else 0x00#8) ∧
    classMask url .lower c = (if 0x61 ≤ c.toNat ∧ c.toNat ≤ 0x7A then 0xFF#8 else 0x00#8) ∧
    classMask url .digit c = (if 0x30 ≤ c.toNat ∧ c.toNat ≤ 0x39 then 0xFF#8 else 0x00#8) ∧
    classMask url .sym62 c = (if c = alpha url 62#6 then 0xFF#8 else 0x00#8) ∧
    classMask url .sym63 c = (if c = alpha url 63#6 then 0xFF#8 else 0x00#8) := by
  revert c url; decide

section DecStages
variable (url : Bool) {k : Nat} (g : Nat → Nat → Byte) {x : List Byte} (hx : x.length = 16 * k)
include hx

theorem decChunk_decGroup {n : Nat} (hn : n / 4 < k) :
    let i := fun m => sextet ((decChunk url k g x).index.getD (4 * n + m) 0#8)
    (decChunk url k g x).DecGroup n (i 0) (i 1) (i 2) (i 3) := by
  have hsub : ((x.drop (16 * (n / 4))).take 16).length = 16 := by simp; omega
  have h := decSubLane_products url (fun r i => g r (16 * (n / 4) + i)) _ hsub (n % 4) (by omega)
  have hb : ∀ i < 4, charIndex url (((x.drop (16 * (n / 4))).take 16).getD (4 * (n % 4) + i) 0#8)
      = (decChunk url k g x).index.getD (4 * n + i) 0#8 := by
    intro i hi
    rw [getD_take_drop x (by omega), (decChunk_lanes url k g x hx).2, getD_map_of_lt _ (by omega)]
    congr 2
    omega
  simp only [hb 0 (by omega), hb 1 (by omega), hb 2 (by omega), hb 3 (by omega)] at h
  rw [← isRegister_product1.group (decSubLane_lanes url) g hx hn,
    ← isRegister_product2.group (decSubLane_lanes url) g hx hn] at h
  exact h

end DecStages

/-! ### The registers after the step -/

section Left
variable (s : State)

/-- What a decode chunk step leaves in the registers of its tier: free lanes in the later stages if it fails (R199). -/
def State.decLeft : VecRegs :=
  if chunkFails s.decRegs then s.decRegs.failed s.freeLane s.tier.bytes else s.decRegs

theorem State.decLeft_lanes : s.decLeft.Lanes s.tier.bytes := by
  have h : s.decRegs.Lanes s.tier.bytes := decChunk_lanes_bytes s.lUrl s.freeLane s.tier (s.readIn_length _ _)
  unfold State.decLeft
  split_ifs
  · exact h.failed s.freeLane
  · exact h

/-- The load and the class masks of a decode chunk, whether it fails or not (R195, R198). -/
theorem State.decLeft_classification :
    let c := s.readIn s.ipos s.tier.bytes
    s.decLeft.loaded = c ∧
    s.decLeft.maskUpper = c.map (classMask s.lUrl .upper) ∧
    s.decLeft.maskLower = c.map (classMask s.lUrl .lower) ∧
    s.decLeft.maskDigit = c.map (classMask s.lUrl .digit) ∧
    s.decLeft.maskSym62 = c.map (classMask s.lUrl .sym62) ∧
    s.decLeft.maskSym63 = c.map (classMask s.lUrl .sym63) := by
  obtain ⟨hload, -⟩ := decChunk_lanes s.lUrl s.tier.subs s.freeLane _ (s.readIn_bytes_length s.ipos)
  have hmasks := decChunk_masks s.lUrl s.tier.subs s.freeLane _ (s.readIn_bytes_length s.ipos)
  unfold State.decLeft
  split_ifs
  · exact ⟨hload, hmasks⟩
  · exact ⟨hload, hmasks⟩

/-- A chunk of symbols does not fail (R199). -/
theorem chunkFails_of_inAlphabet (hi : s.cfg.invalidMarked = true)
    (h : ∀ x ∈ s.readIn s.ipos s.tier.bytes, InAlphabet s.lUrl x) : chunkFails s.decRegs = false := by
  rw [Bool.eq_false_iff]
  intro hb
  obtain ⟨x, hx, hxi⟩ := (chunkFails_iff_exists_invalid s hi).mp hb
  exact (dt_eq_invalid_iff hi s.lUrl x).mp hxi (h x hx)

theorem State.decLeft_of_not_fails (hb : chunkFails s.decRegs = false) : s.decLeft = s.decRegs :=
  if_neg (Bool.eq_false_iff.mp hb)

/-- The indices of a chunk of symbols are their decode-table values (R200). -/
theorem State.decRegs_index (h : ∀ x ∈ s.readIn s.ipos s.tier.bytes, InAlphabet s.lUrl x) :
    s.decRegs.index = (s.readIn s.ipos s.tier.bytes).map (dt s.cfg.invalid s.lUrl) := by
  obtain ⟨-, hindex⟩ := decChunk_lanes s.lUrl s.tier.subs s.freeLane _ (s.readIn_bytes_length s.ipos)
  rw [State.decRegs, hindex]
  exact List.map_congr_left fun x hx => (dt_of_classified ((inAlphabet_iff s.lUrl x).mp (h x hx)) s.cfg.invalid).symm

end Left

section Registers
variable {s : State} (hp : s.phase = .vloop) (ht : s.tier ≠ .scalar)
include hp ht

theorem engineStep_regs_enc (hop : s.lOp = .enc) (hn : s.ipos + s.tier.chunkIn ≤ s.lN) :
    (engineStep s).vec.regs s.tier = s.encRegs ∧ ∀ t, t ≠ s.tier → (engineStep s).vec.regs t = s.vec.regs t := by
  rw [engineStep_vec_enc hp ht hop hn]
  exact ⟨VecUnits.regs_update _ _ ht, fun t h => VecUnits.regs_update_ne _ _ h⟩

theorem engineStep_regs_dec (hop : s.lOp = .dec) (hn : s.ipos + s.tier.bytes + s.cfg.vdecMargin ≤ s.lN) :
    (engineStep s).vec.regs s.tier = s.decLeft ∧ ∀ t, t ≠ s.tier → (engineStep s).vec.regs t = s.vec.regs t := by
  rw [engineStep_vec_dec hp ht hop hn]
  exact ⟨VecUnits.regs_update _ _ ht, fun t h => VecUnits.regs_update_ne _ _ h⟩

end Registers

/-- Settles O38: the stages of the chunk's sub-lanes (R207), read off the registers the step leaves in the tier. -/
theorem vectorStagesComputeTheirFunctions : Obligations.VectorStagesComputeTheirFunctions := by
  refine fun s hp ht hwf => ⟨fun hop hn => ?_, fun hop hn => ?_⟩
  · obtain ⟨hregs, hothers⟩ := engineStep_regs_enc hp ht hop hn
    have hx := s.readIn_chunkIn_length s.ipos
    rw [hregs]
    refine ⟨encChunk_lanes s.lUrl s.freeLane s.tier hx, hothers, fun j hj => encChunk_loaded s.lUrl s.freeLane hx hj,
      fun n hn => ?_, encChunk_characters s.lUrl s.freeLane hx⟩
    exact encChunk_encGroup s.lUrl s.freeLane hx (by rw [Tier.bytes] at hn; omega)
  · obtain ⟨hregs, hothers⟩ := engineStep_regs_dec hp ht hop hn
    rw [hregs]
    obtain ⟨hload, hupper, hlower, hdigit, h62, h63⟩ := s.decLeft_classification
    refine ⟨s.decLeft_lanes, hothers, hload, fun k hk => ?_, fun hvalid => ?_⟩
    · rw [← s.readIn_length s.ipos s.tier.bytes] at hk
      rw [hupper, hlower, hdigit, h62, h63, getD_map_of_lt _ hk, getD_map_of_lt _ hk, getD_map_of_lt _ hk,
        getD_map_of_lt _ hk, getD_map_of_lt _ hk]
      exact classMask_eq s.lUrl _
    · have hi := Params.wf_invalidMarked hwf
      have hb := chunkFails_of_inAlphabet s hi hvalid
      rw [s.decLeft_of_not_fails hb, decBulk_of_decRegs s hi hb, packedLanes_eq_flatMap]
      refine ⟨s.decRegs_index hvalid, fun n hn => ?_, rfl⟩
      exact decChunk_decGroup s.lUrl s.freeLane (s.readIn_bytes_length _) (by rw [Tier.bytes] at hn; omega)

end Sys2Proof.Machine
end

section
/-! What R227 says of the output so far, from the launch on and over every step of the whole machine
(43_dispatcher.md R225 to R227): a BUSY state of the invariant with good data is the start of a run of its own, so
`EncRun.step` and `DecRun.step` speak of it. -/

namespace Sys2Proof.Machine

/-! ### The data of a run -/

/-- An operation in progress is in P_CHECK or in a kernel (R33). -/
theorem State.check_or_kernel {s : State} (hb : s.busy = true) : s.phase = .check ∨ s.phase.kernel = true := by
  cases hp : s.phase <;> simp_all [State.busy, Phase.busy, Phase.stateCode, Phase.kernel]

theorem State.phase_of_busy {s : State} (hb : s.busy = true) : s.phase ≠ .idle ∧ s.phase ≠ .done := by
  constructor <;> intro hp <;> simp [State.busy, hp, Phase.busy, Phase.stateCode] at hb

/-- The data invariants speak of the kernels only. -/
theorem State.DataOk.of_not_kernel {s : State} (hk : ¬ s.phase.kernel = true) : s.DataOk where
  enc h := absurd h hk
  encTail h := by simp [h, Phase.kernel] at hk
  dec h := absurd h hk
  decValid h := absurd h hk

theorem State.DataOk.of_not_busy {s : State} (hidle : s.busy = false) : s.DataOk :=
  .of_not_kernel fun hk => Bool.false_ne_true (hidle.symm.trans (Phase.kernel_busy hk))

theorem State.DataOk.of_check {s : State} (hp : s.phase = .check) : s.DataOk :=
  .of_not_kernel (by simp [hp, Phase.kernel])

/-- Every state of an ENC run has the data of R227. -/
theorem EncRun.dataOk {s0 s : State} (h : EncRun s0 s) (hop : s0.lOp = .enc) : s.DataOk where
  enc hk _ := by rw [h.frame.lUrl, h.frame.lPad, h.frame.lN, h.frame.input]; exact h.output hk
  encTail hp _ := by rw [h.frame.lN]; exact h.tail hp
  dec _ hd := by rw [h.frame.lOp, hop] at hd; cases hd
  decValid _ hd := by rw [h.frame.lOp, hop] at hd; cases hd

/-- The input that a DEC run has consumed in its kernels is symbols of the alphabet (R156). -/
theorem DecRun.inAlphabet {s0 s : State} (h : DecRun s0 s) (hi : s0.cfg.invalidMarked = true)
    (hk : s.phase.kernel = true) : ∀ c ∈ (s0.input s0.lN).take s.ipos, InAlphabet s0.lUrl c := by
  obtain ⟨hmod, hle⟩ := h.aligned hk
  have hn := tailStart_le s0.lN
  exact decBulk_valid hi (by simp; omega) (h.output hk)

/-- Every state of a DEC run has the data of R227. -/
theorem DecRun.dataOk {s0 s : State} (h : DecRun s0 s) (hop : s0.lOp = .dec) (hi : s0.cfg.invalidMarked = true) :
    s.DataOk where
  enc _ he := by rw [h.frame.lOp, hop] at he; cases he
  encTail _ he := by rw [h.frame.lOp, hop] at he; cases he
  dec hk _ := by rw [h.frame.cfg, h.frame.lUrl, h.frame.lN, h.frame.input]; exact h.output hk
  decValid hk _ := by rw [h.frame.lUrl, h.frame.lN, h.frame.input]; exact h.inAlphabet hi hk

/-! ### A state of the invariant with its data starts a run -/

section Restart
variable {s : State} (hinv : s.Inv) (hdata : s.DataOk) (hb : s.busy = true)
include hinv hdata hb

theorem EncRun.ofDataOk (hop : s.lOp = .enc) : EncRun s s where
  frame := .refl s
  beyond _ _ := rfl
  notIdle := (State.phase_of_busy hb).1
  check hp := by obtain ⟨hi, ho⟩ := hinv.positions.check hp; exact ⟨hi, ho, rfl⟩
  vloop := hinv.kernel.vloopTier
  room hk := by have hroom := hinv.kernel.room hk; rwa [State.required, hop] at hroom
  aligned hk := by obtain ⟨hmod, -, hle⟩ := hinv.positions.enc hk hop; exact ⟨hmod, hle⟩
  output hk := hdata.enc hk hop
  tail hp := hdata.encTail hp hop
  short hp := absurd hp (State.phase_of_busy hb).2
  done hp := absurd hp (State.phase_of_busy hb).2

theorem DecRun.ofDataOk (hop : s.lOp = .dec) : DecRun s s where
  frame := .refl s
  beyond _ _ := rfl
  notIdle := (State.phase_of_busy hb).1
  check hp := by obtain ⟨hi, ho⟩ := hinv.positions.check hp; exact ⟨hi, ho, rfl⟩
  vloop := hinv.kernel.vloopTier
  room hk := by have hroom := hinv.kernel.room hk; rwa [State.required, hop] at hroom
  aligned hk := by obtain ⟨hmod, -, hle⟩ := hinv.positions.dec hk hop; exact ⟨hmod, hle⟩
  output hk := hdata.dec hk hop
  tail hp := hinv.positions.tail hp hop
  short hp := absurd hp (State.phase_of_busy hb).2
  done hp := absurd hp (State.phase_of_busy hb).2

end Restart

/-! ### Every step of the whole machine -/

/-- An engine step keeps the data, when no input byte was overwritten (R227, R291). -/
theorem State.DataOk.engineStep {s : State} (h : s.DataOk) (hinv : s.Inv) (hq : s.inRace = []) :
    (engineStep s).DataOk := by
  cases hb : s.busy with
  | false => rwa [engineStep_not_busy hb]
  | true =>
    have hi := Params.wf_invalidMarked hinv.params
    have hlength (henc : s.lOp ≠ .enc) (hdec : s.lOp ≠ .dec) : (Machine.engineStep s).DataOk :=
      .of_not_busy (State.busy_of_done (hinv.engineStep_length_done hb henc hdec))
    cases hop : s.lOp with
    | enc => exact ((EncRun.ofDataOk hinv h hb hop).step hop hq hb).1.dataOk hop
    | dec =>
      exact ((DecRun.ofDataOk hinv h hb hop).step hop hq hi (Params.wf_margin hinv.params) hb).1.dataOk hop hi
    | enclen => exact hlength (by simp [hop]) (by simp [hop])
    | decest => exact hlength (by simp [hop]) (by simp [hop])

theorem State.DataOk.setEvents {s : State} (h : s.DataOk) (es : List Event) : (s.setEvents es).DataOk :=
  ⟨h.enc, h.encTail, h.dec, h.decValid⟩

theorem State.DataOk.observe {s : State} (h : s.DataOk) (o : Obs) : (s.observe o).DataOk :=
  ⟨h.enc, h.encTail, h.dec, h.decValid⟩

theorem State.DataOk.nextDraw {s : State} (h : s.DataOk) : s.nextDraw.DataOk :=
  ⟨h.enc, h.encTail, h.dec, h.decValid⟩

/-- A host that meets its obligation fills IN only while not BUSY (R291). -/
theorem State.busy_of_hostObliges_fillIn {s : State} (h : s.hostObliges) {a : Nat} {bytes : List Byte}
    {rest : List Event} (hev : s.events = .fillIn a bytes :: rest) : s.busy = false := by
  rwa [State.hostObliges, hev] at h

/-- Settles O59, case by case of what a step can answer: only an engine step leaves a kernel running with new data. -/
theorem stepKeepsTheData : Obligations.StepKeepsTheData := by
  intro s t hinv hq hhost h ht
  cases step_cases ht with
  | nothing rest => exact h.setEvents rest
  | engine es es' => exact ((h.setEvents es).engineStep (hinv.setEvents es) hq).setEvents es'
  | command _ rest i _ _ _ =>
    have hlaunched := (hinv.setEvents rest).launch (encode i)
    exact .of_not_busy (State.busy_of_done (hlaunched.complete_done (launch_busy _ _)))
  | launch v rest _ _ => exact .of_check rfl
  | ilen v rest hidle _ => exact .of_not_busy hidle
  | ocap v rest hidle _ => exact .of_not_busy hidle
  | observe rest o => exact (h.setEvents rest).observe o
  | observeFree rest o => exact ((h.setEvents rest).observe o).nextDraw
  | fill a bytes rest _ hev =>
    have hidle := State.busy_of_hostObliges_fillIn hhost hev
    exact .of_not_busy hidle
  | reset rest _ => exact .of_not_busy rfl

/-! ### After any number of engine steps from a launch -/

section Launched
variable {s : State} {w : BitVec 4} (k : Nat)

theorem EncRun.iterate (hop : cmdOp w = .enc) : EncRun (s.launch w) (engineStep^[k] (s.launch w)) := by
  refine Function.Iterate.rec (EncRun (s.launch w)) (.start rfl rfl rfl) (fun u hu => ?_) k
  cases hb : u.busy with
  | true => exact (hu.step hop rfl hb).1
  | false => rwa [engineStep_not_busy hb]

theorem DecRun.iterate (hop : cmdOp w = .dec) (hwf : s.cfg.wf = true) :
    DecRun (s.launch w) (engineStep^[k] (s.launch w)) := by
  refine Function.Iterate.rec (DecRun (s.launch w)) (.start rfl rfl rfl) (fun u hu => ?_) k
  cases hb : u.busy with
  | true => exact (hu.step hop rfl (Params.wf_invalidMarked hwf) (Params.wf_margin hwf) hb).1
  | false => rwa [engineStep_not_busy hb]

end Launched

/-- The positions and the output of an ENC in progress, P_CHECK included (R227). -/
theorem EncRun.positions {s0 s : State} (h : EncRun s0 s) (hb : s.busy = true) :
    s.ipos % 3 = 0 ∧ 3 * s.opos = 4 * s.ipos ∧ s.ipos ≤ s0.lN ∧
      s.output s.opos = encRef s0.lUrl s0.lPad ((s0.input s0.lN).take s.ipos) := by
  rcases State.check_or_kernel hb with hp | hk
  · obtain ⟨hi, ho, -⟩ := h.check hp
    simp [hi, ho, State.output]
  · obtain ⟨hmod, hle⟩ := h.aligned hk
    exact ⟨hmod, h.opos_eq hk, hle, h.output hk⟩

/-- A DEC in a kernel that meets the hypotheses of `StepKeepsTheData`, after its first vector chunk. -/
theorem witness_stepKeepsTheData_dec :
    (engineStep^[2] Tests.busyDec).Inv ∧ (engineStep^[2] Tests.busyDec).inRace = [] ∧
      (engineStep^[2] Tests.busyDec).hostObliges ∧ (engineStep^[2] Tests.busyDec).DataOk ∧
      (engineStep^[2] Tests.busyDec).phase = .vloop ∧ (engineStep^[2] Tests.busyDec).ipos = 16 := by
  have hinv : Tests.busyDec.Inv := Tests.witness_inv_dec.launch _
  have hrun : DecRun Tests.busyDec (engineStep^[2] Tests.busyDec) :=
    DecRun.iterate (s := Tests.block Tests.twenty 18) (w := 0xB#4) 2 rfl rfl
  have hhost : (engineStep^[2] Tests.busyDec).hostObliges := by rw [State.hostObliges, hrun.frame.events]; trivial
  exact ⟨hinv.engineStep.engineStep, hrun.frame.inRace, hhost, hrun.dataOk rfl rfl, by decide, by decide⟩

/-- Settles O40: the runs `EncRun` and `DecRun`, iterated from the launch. -/
theorem positionsAndDataAtEveryStep : Obligations.PositionsAndDataAtEveryStep := by
  intro i s k _ hwf u
  refine ⟨fun hop hb => (EncRun.iterate k hop).positions hb, fun hop hk => ?_, fun hop hp => ?_⟩
  · have hrun : DecRun (s.launch (encode i)) u := .iterate k hop hwf
    obtain ⟨hmod, hle⟩ := hrun.aligned hk
    exact ⟨hmod, hrun.opos_eq hk, hle.trans (tailStart_le_sub _), hle,
      hrun.inAlphabet (Params.wf_invalidMarked hwf) hk, hrun.output hk⟩
  · exact (DecRun.iterate k hop hwf).tail hp

end Sys2Proof.Machine
end

section
/-! The choice of a tier (43_dispatcher.md R221, R222), and that no result depends on it (R229). -/

namespace Sys2Proof.Machine

/-! ### Tier selection (R221) -/

/-- The conditions of R221 as propositions, in their order. -/
theorem selectTier_eq (p : Params) (n : Nat) :
    selectTier p n = if p.caps.getLsbD 2 = true ∧ p.minlen512 ≤ n then .v512
      else if p.caps.getLsbD 1 = true ∧ p.minlen256 ≤ n then .v256
      else if p.caps.getLsbD 0 = true ∧ p.minlen128 ≤ n then .v128 else .scalar := by
  simp only [selectTier, Bool.and_eq_true, decide_eq_true_eq]

/-- P_CHECK of an ENC of a non-empty input or of a DEC, after the size check, dispatches (R225). -/
theorem engineStep_dispatch {s : State} (hp : s.phase = .check) (hop : (s.lOp = .enc ∧ s.lN ≠ 0) ∨ s.lOp = .dec)
    (hroom : s.required ≤ s.lCap) : engineStep s = s.dispatch.nextDraw := by
  rw [engineStep_busy (by rw [State.busy, hp]; rfl), engineRow, hp]
  simp only [checkRow]
  rcases hop with ⟨hop, hn⟩ | hop <;> rw [hop]
  · simp only
    rw [if_neg (by omega), if_neg hn]
  · simp only
    rw [if_neg (by omega)]

/-- Settles O35: P_CHECK sets TIER to `selectTier` and PHASE to match; no other row writes TIER. -/
theorem theWidestPresentTierIsSelected : Obligations.TheWidestPresentTierIsSelected := by
  refine ⟨fun s hp hop hroom => ?_, fun s hp => ?_⟩
  · rw [engineStep_dispatch hp hop hroom]
    have hchosen {tier : Tier} (htier : selectTier s.cfg s.lN = tier) : s.dispatch.nextDraw.tier = tier ∧
        s.dispatch.nextDraw.phase = if tier = .scalar then .sloop else .vloop := htier ▸ ⟨rfl, rfl⟩
    refine ⟨rfl, fun h512 => hchosen ?_, fun h512 h256 => hchosen ?_, fun h512 h256 h128 => hchosen ?_,
      fun h512 h256 h128 => hchosen ?_⟩ <;> rw [selectTier_eq]
    · rw [if_pos h512]
    · rw [if_neg h512, if_pos h256]
    · rw [if_neg h512, if_neg h256, if_pos h128]
    · rw [if_neg h512, if_neg h256, if_neg h128]
  · by_contra hne
    exact hp ((engineStep_changes s).tier hne)

/-! ### Tier equivalence (R229) -/

section DecodingParameters
variable {p q : Params} (hi : q.invalid = p.invalid) (hpost : q.postPad = p.postPad)
include hi

theorem decStrictGroup_congr : decStrictGroup q = decStrictGroup p := by
  funext url c0 c1 c2 c3
  simp only [decStrictGroup, hi]

theorem decPaddedGroup_congr : decPaddedGroup q = decPaddedGroup p := by
  funext url c0 c1 c2
  simp only [decPaddedGroup, decPair, decTriple, hi]

theorem decBulk_congr (url : Bool) (x : List Byte) : decBulk q url x = decBulk p url x := by
  induction x using decBulk.induct with
  | case1 c0 c1 c2 c3 rest ih => simp only [decBulk, decStrictGroup_congr hi, ih]
  | case2 x hx => rw [decBulk, decBulk] <;> exact hx

include hpost

theorem decTail_congr (url pad : Bool) : ∀ x : List Byte, decTail q url pad x = decTail p url pad x
  | [] => rfl
  | [_] => rfl
  | [_, _] => by simp only [decTail, decPair, hi]
  | [_, _, _] => by simp only [decTail, decTriple, hi]
  | c0 :: c1 :: c2 :: c3 :: rest => by
    simp only [decTail, decPaddedGroup_congr hi, decStrictGroup_congr hi, afterPad, hpost, decTail_congr url pad rest]

/-- DEC_REF depends on INVALID and POST_PAD_POLICY alone of the parameters. -/
theorem decRef_congr (url pad : Bool) (x : List Byte) : decRef q url pad x = decRef p url pad x := by
  simp only [decRef, decRefAt, decBulk_congr hi, decTail_congr hi hpost]

end DecodingParameters

/-- The result of an operation depends on INVALID and POST_PAD_POLICY alone of the parameters. -/
theorem resultOf_congr {p q : Params} (hi : q.invalid = p.invalid) (hpost : q.postPad = p.postPad) :
    resultOf q = resultOf p := by
  funext op url pad n cap x
  simp only [resultOf, decRef_congr hi hpost]

/-- The block in a build with other tiers present, other MINLEN and another VDEC_MARGIN (R8, R229). -/
def State.withTiers (s : State) (caps : BitVec 3) (m128 m256 m512 margin : Nat) : State :=
  { s with cfg := { s.cfg with
      caps := caps, minlen128 := m128, minlen256 := m256, minlen512 := m512, vdecMargin := margin } }

theorem State.withTiers_wf {s : State} (h : s.cfg.wf = true) (caps : BitVec 3) {m128 m256 m512 margin : Nat}
    (h128 : 16 ≤ m128) (h256 : 32 ≤ m256) (h512 : 64 ≤ m512) (hmargin : 4 ≤ margin) :
    (s.withTiers caps m128 m256 m512 margin).cfg.wf = true := by
  have hlenw := Params.wf_lenw h
  have hmarked := Params.wf_invalidMarked h
  simp only [Params.wf, Bool.and_eq_true, decide_eq_true_eq]
  exact ⟨⟨⟨⟨⟨hlenw, h128⟩, h256⟩, h512⟩, hmargin⟩, hmarked⟩

/-- Settles O33: both builds end with `resultOf` of the same operands, and an ENCLEN or DECEST leaves OUT as it was. -/
theorem tiersAreEquivalent : Obligations.TiersAreEquivalent := by
  intro i s caps m128 m256 m512 margin hidle hwf h128 h256 h512 hmargin
  have hresult : resultOf (s.withTiers caps m128 m256 m512 margin).cfg = resultOf s.cfg := resultOf_congr rfl rfl
  obtain ⟨t, ht, herr, hrlen, hout, hkeep⟩ := runCommand_result i s hidle hwf
  obtain ⟨t', ht', herr', hrlen', hout', hkeep'⟩ :=
    runCommand_result i (s.withTiers caps m128 m256 m512 margin) hidle
      (State.withTiers_wf hwf caps h128 h256 h512 hmargin)
  rw [hresult] at herr' hrlen' hout'
  have he : t'.err = t.err := herr'.trans herr.symm
  have hl : t'.rlen = t.rlen := hrlen'.trans hrlen.symm
  refine ⟨t, t', ht, ht', he, hl, fun hok => ?_⟩
  by_cases hop : i.op = .enc ∨ i.op = .dec
  · exact (hout' (he.trans hok) hop).trans (hout hok hop).symm
  · obtain ⟨henc, hdec⟩ := not_or.mp hop
    have hcell : t'.outCell = t.outCell := (hkeep' henc hdec).trans (hkeep henc hdec).symm
    rw [hl]
    exact State.output_congr fun x _ => congrFun hcell x

end Sys2Proof.Machine
end

section
/-! The parallel chunker (44_parallel_chunker.md): chunked encode and chunked decode give what one operation on the
whole input gives (R247). The two splits answer `[xs]` when their fuel ends, so the inductions over the fuel need no
bound. -/

namespace Sys2Proof.Machine

/-! ### Chunked encode (R242) -/

theorem encodeChunks_eq_splitPlain (q : ParParams) (xs : List Byte) :
    ∃ fuel, encodeChunks q xs = splitPlain q.chunkEnc fuel xs := by
  unfold encodeChunks
  split_ifs
  · exact ⟨0, rfl⟩
  · exact ⟨xs.length, rfl⟩

section Encode

variable {url pad : Bool} {block : Nat → State} {n : Nat}
  (hblock : ∀ k, (block k).busy = false ∧ (block k).cfg.wf = true ∧ n < 2 ^ (block k).cfg.lenw ∧
    encodedLen pad n < 2 ^ (block k).cfg.lenw)

include hblock

/-- A chunk of an encode never fails: its encoding stands before what the later chunks give. -/
theorem combineEncode_cons {x : List Byte} (hx : x.length ≤ n) (k : Nat) (xs : List (List Byte)) :
    combineEncode url pad block k (x :: xs)
      = (combineEncode url pad block (k + 1) xs).map (Except.map (encRef url pad x ++ ·)) := by
  obtain ⟨hidle, hwf, hlen, henc⟩ := hblock k
  have hchunk : chunkResult .enc url pad x (block k) = some (.ok (encRef url pad x)) :=
    chunkResult_enc url pad x _ hidle hwf (hx.trans_lt hlen) ((encodedLen_mono pad hx).trans_lt henc)
  rw [combineEncode, hchunk]
  rcases combineEncode url pad block (k + 1) xs with _ | _ | _ <;> rfl

/-- The chunks of the plain split encode to the encoding of the whole, by its composition at group boundaries (R147). -/
theorem combineEncode_splitPlain {size : Nat} (hsize : size % 3 = 0) :
    ∀ (fuel k : Nat) {xs : List Byte}, xs.length ≤ n →
      combineEncode url pad block k (splitPlain size fuel xs) = some (.ok (encRef url pad xs)) := by
  have hlast (k : Nat) {xs : List Byte} (hn : xs.length ≤ n) :
      combineEncode url pad block k [xs] = some (.ok (encRef url pad xs)) := by
    rw [combineEncode_cons hblock hn, combineEncode]
    simp [Except.map]
  intro fuel
  induction fuel with
  | zero => exact fun k xs hn => hlast k hn
  | succ fuel ih =>
    intro k xs hn
    unfold splitPlain
    split_ifs with hshort
    · exact hlast k hn
    · have htake : (xs.take size).length % 3 = 0 := by rw [List.length_take]; omega
      rw [combineEncode_cons hblock (by rw [List.length_take]; omega), ih _ (by rw [List.length_drop]; omega),
        Option.map_some, Except.map, ← encRef_append url pad _ _ htake, List.take_append_drop]

end Encode

/-- Settles O54: after the capacity check the chunks are a plain split, which encodes to the whole. -/
theorem chunkedEncodeIsSerial : Obligations.ChunkedEncodeIsSerial := by
  intro q url pad block cap x hq hblock
  simp only [ParParams.wf, Bool.and_eq_true, decide_eq_true_eq] at hq
  obtain ⟨⟨⟨-, hsize⟩, -⟩, -⟩ := hq
  obtain ⟨fuel, hfuel⟩ := encodeChunks_eq_splitPlain q x
  rw [chunkedEncode, hfuel, combineEncode_splitPlain hblock hsize fuel 0 le_rfl, apply_ite some]

/-! ### A chunk before the last lies in the bulk (R245, R246) -/

/-- With four or more characters after it, a multiple of eight characters lies in the bulk (R246). -/
theorem tailStart_add_of_four_le {m n : Nat} (hm : m % 8 = 0) (hn : 4 ≤ n) : tailStart (m + n) = m + tailStart n := by
  unfold tailStart
  split_ifs <;> omega

/-- The window of the whole input is the window of its last chunk (R246). -/
theorem decRef_append_of_four_le {p : Params} {url pad : Bool} {x y : List Byte} (hx : x.length % 8 = 0)
    (hy : 4 ≤ y.length) :
    decRef p url pad (x ++ y) = (decBulk p url x).bind fun a => (decRef p url pad y).bind fun b => .ok (a ++ b) := by
  rw [decRef, List.length_append, tailStart_add_of_four_le hx hy, decRefAt_append_right (by omega)]
  rfl

/-- The only error of whole groups is InvalidCharacter (R159, R160). -/
theorem decRef_error_of_whole {p : Params} (hp : p.invalidMarked = true) {url pad : Bool} {x : List Byte}
    {e : ErrorKind} (hx : x.length % 4 = 0) (h : decRef p url pad x = .error e) : e = .invalidCharacter := by
  have ht := tailStart_mod x.length
  have hle := tailStart_le x.length
  have hbulk : (x.take (tailStart x.length)).length % 4 = 0 := by rw [List.length_take]; omega
  rcases decBulk_cases p url _ hbulk with hb | ⟨a, hb, -⟩ <;>
    simp only [decRef, decRefAt, hb, bind, Except.bind] at h
  · injection h with h
    exact h.symm
  · cases htail : decTail p url pad (x.drop (tailStart x.length)) with
    | ok b => rw [htail] at h; cases h
    | error e' =>
      rw [htail] at h
      cases h
      rcases decTail_error_cause hp htail with ⟨-, hlen⟩ | ⟨he, -⟩
      · rw [List.length_drop] at hlen
        omega
      · exact he

/-- Whole groups that decode strictly are symbols only, and DEC_REF gives the same bytes (R161 (a)). -/
theorem decRef_of_decBulk {p : Params} (hp : p.invalidMarked = true) {url pad : Bool} {x a : List Byte}
    (hx : x.length % 4 = 0) (h : decBulk p url x = .ok a) : decRef p url pad x = .ok a := by
  have ht := tailStart_mod x.length
  have happ := decRefAt_append (p := p) (pad := pad) (y := []) hx (decBulk_valid hp hx h)
    (t := tailStart x.length) (by omega) (tailStart_le x.length)
  rw [List.append_nil, h] at happ
  rw [decRef, happ, decTail_nil]
  simp [Except.bind]

/-- A chunk of whole groups that does not decode strictly fails by itself, or shows it by its length (R245). -/
theorem decRef_of_decBulk_error {p : Params} (hp : p.invalidMarked = true) {url pad : Bool} {x : List Byte}
    (hx : x.length % 4 = 0) (h : decBulk p url x = .error .invalidCharacter) :
    decRef p url pad x = .error .invalidCharacter ∨
      ∃ out, decRef p url pad x = .ok out ∧ out.length ≠ 3 * x.length / 4 := by
  cases hd : decRef p url pad x with
  | error e => exact .inl (by rw [decRef_error_of_whole hp hx hd])
  | ok out =>
    refine .inr ⟨out, rfl, fun hfull => ?_⟩
    obtain ⟨a, ha⟩ := (decBulk_ok_iff hp hx).mpr (decRef_full hp hd hx (by omega))
    rw [h] at ha
    cases ha

/-! ### Chunked decode (R243) -/

theorem decodeChunks_eq_splitDecode (q : ParParams) (xs : List Byte) :
    ∃ fuel, decodeChunks q xs = splitDecode q.chunkDec fuel xs := by
  unfold decodeChunks
  split_ifs
  · exact ⟨0, rfl⟩
  · exact ⟨xs.length, rfl⟩

theorem splitDecode_ne_nil (size fuel : Nat) (xs : List Byte) : splitDecode size fuel xs ≠ [] := by
  cases fuel with
  | zero => exact List.cons_ne_nil _ _
  | succ fuel =>
    unfold splitDecode
    split_ifs <;> exact List.cons_ne_nil _ _

section Decode

variable {p : Params} {url pad : Bool} {block : Nat → State} {n : Nat}
  (hblock : ∀ k, (block k).busy = false ∧ (block k).cfg = p) (hwf : p.wf = true) (hlen : n < 2 ^ p.lenw)
  (hest : estimateDecodedLen n < 2 ^ p.lenw)

include hblock hwf hlen hest

theorem chunkResult_dec_of_le {x : List Byte} (hx : x.length ≤ n) (k : Nat) :
    chunkResult .dec url pad x (block k) = some (decRef p url pad x) := by
  obtain ⟨hidle, rfl⟩ := hblock k
  exact chunkResult_dec url pad x _ hidle hwf (hx.trans_lt hlen) ((estimateDecodedLen_mono hx).trans_lt hest)

/-- The last chunk gives what DEC gives, with no test of its length. -/
theorem combineDecode_last {x : List Byte} (hx : x.length ≤ n) (k : Nat) :
    combineDecode url pad block k [x] = some (decRef p url pad x) := by
  rw [combineDecode, chunkResult_dec_of_le hblock hwf hlen hest hx]
  cases decRef p url pad x with
  | error e => rfl
  | ok out => simp [combineDecode]

/-- A chunk before the last counts as its strict decoding: the length test finds the padded groups (R245). -/
theorem combineDecode_cons {x : List Byte} (hx : x.length ≤ n) (hx4 : x.length % 4 = 0) {k : Nat}
    {xs : List (List Byte)} (hxs : xs ≠ []) {r : Except ErrorKind (List Byte)}
    (hrest : combineDecode url pad block (k + 1) xs = some r) :
    combineDecode url pad block k (x :: xs)
      = some ((decBulk p url x).bind fun a => r.bind fun b => .ok (a ++ b)) := by
  have hp := Params.wf_invalidMarked hwf
  have hmore : xs.isEmpty = false := by simpa using hxs
  rw [combineDecode, chunkResult_dec_of_le hblock hwf hlen hest hx, hrest, hmore]
  rcases decBulk_cases p url x hx4 with hbad | ⟨a, ha, halen⟩
  · rw [hbad]
    rcases decRef_of_decBulk_error hp (pad := pad) hx4 hbad with hd | ⟨out, hd, hshort⟩
    · rw [hd]
      rfl
    · simp [hd, hshort, Except.bind]
  · have hfull : a.length = 3 * x.length / 4 := by omega
    rw [ha, decRef_of_decBulk hp hx4 ha]
    cases r <;> simp [hfull, Except.bind]

/-- The chunks of the decode split combine to DEC_REF of the whole: all but the last lie in the bulk (R246). -/
theorem combineDecode_splitDecode {size : Nat} (hsize : size % 8 = 0) :
    ∀ (fuel k : Nat) {xs : List Byte}, xs.length ≤ n →
      combineDecode url pad block k (splitDecode size fuel xs) = some (decRef p url pad xs) := by
  intro fuel
  induction fuel with
  | zero => exact fun k xs hn => combineDecode_last hblock hwf hlen hest hn k
  | succ fuel ih =>
    intro k xs hn
    unfold splitDecode
    split_ifs with hshort
    · exact combineDecode_last hblock hwf hlen hest hn k
    · have htake : (xs.take size).length = size := by rw [List.length_take]; omega
      have hdrop : (xs.drop size).length = xs.length - size := List.length_drop
      rw [combineDecode_cons hblock hwf hlen hest (by omega) (by omega) (splitDecode_ne_nil _ _ _) (ih _ (by omega)),
        ← decRef_append_of_four_le (by omega) (by omega), List.take_append_drop]

end Decode

/-- Settles O55: after the capacity check the chunks are a decode split, which combines to DEC_REF of the whole. -/
theorem chunkedDecodeIsSerial : Obligations.ChunkedDecodeIsSerial := by
  intro q p url pad block cap x hq hblock hwf hlen hest
  simp only [ParParams.wf, Bool.and_eq_true, decide_eq_true_eq] at hq
  obtain ⟨-, hsize⟩ := hq
  obtain ⟨fuel, hfuel⟩ := decodeChunks_eq_splitDecode q x
  rw [chunkedDecode, hfuel, combineDecode_splitDecode hblock hwf hlen hest hsize fuel 0 le_rfl, apply_ite some]

end Sys2Proof.Machine
end

section
/-! The errors (60_exceptions.md R250 to R260): what the two completions write, which errors DEC_REF reports and why,
how a DEC fails, and how each of the sixteen commands ends. -/

namespace Sys2Proof.Machine

/-! ### The two completions -/

/-- STATUS after a completion: STATE reads DONE, beside the error's code (10_state.md R24, R33). -/
theorem State.status_of_done {s : State} (hdone : s.phase = .done) : s.status = errCode s.err ++ 2#2 := by
  rw [State.status, hdone, Phase.stateCode]

/-- Settles O30: the completions write their three registers by definition; STATUS is read off PHASE and ERR. -/
theorem okAndRaiseWriteThreeRegisters : Obligations.OkAndRaiseWriteThreeRegisters := by
  refine ⟨fun s m => ⟨rfl, ?_⟩, fun s e => ⟨rfl, ?_⟩⟩
  · rw [State.status_of_done (State.ok_phase s m), State.ok_err]
    rfl
  · rw [State.status_of_done (State.raise_phase s e), State.raise_err]
    cases e <;> rfl

/-! ### The errors of DEC_REF (R251, R252) -/

/-- DEC_REF fails where its bulk fails, or else where its tail does (R160, R260). -/
theorem decRefAt_error_iff {p : Params} {url pad : Bool} {t : Nat} {x : List Byte} {e : ErrorKind} :
    decRefAt p url pad t x = .error e ↔ decBulk p url (x.take t) = .error e ∨
      (∃ a, decBulk p url (x.take t) = .ok a) ∧ decTail p url pad (x.drop t) = .error e := by
  unfold decRefAt
  cases decBulk p url (x.take t) with
  | error e' => simp [bind, Except.bind]
  | ok a => cases decTail p url pad (x.drop t) <;> simp [bind, Except.bind, pure, Except.pure]

/-- The bulk fails with InvalidCharacter only, for a byte outside the alphabet (R156). -/
theorem decBulk_error_cause {p : Params} (hp : p.invalidMarked = true) {url : Bool} {x : List Byte}
    (hlen : x.length % 4 = 0) {e : ErrorKind} (h : decBulk p url x = .error e) :
    e = .invalidCharacter ∧ ∃ c ∈ x, ∀ j, alpha url j ≠ c := by
  constructor
  · rcases decBulk_cases p url x hlen with hchar | ⟨out, hok, -⟩
    · cases h.symm.trans hchar
      rfl
    · cases h.symm.trans hok
  · by_contra hinside
    push Not at hinside
    obtain ⟨out, hok⟩ := (decBulk_ok_iff hp hlen).mpr hinside
    cases h.symm.trans hok

/-- Settles O52: the tail alone reports InvalidLength, and the bulk is whole groups, so the tail's length is the input's
modulo 4. -/
theorem decodeErrorsHaveTheirCauses : Obligations.DecodeErrorsHaveTheirCauses := by
  intro p url pad x e hp herr
  have hle := tailStart_le x.length
  have hmod := tailStart_mod x.length
  rcases decRefAt_error_iff.mp herr with hbulk | ⟨-, htail⟩
  · have hlen : (x.take (tailStart x.length)).length % 4 = 0 := by rw [List.length_take]; omega
    obtain ⟨he, c, hc, hout⟩ := decBulk_error_cause hp hlen hbulk
    exact .inr ⟨he, c, List.mem_of_mem_take hc, hout⟩
  · have hlen : (x.drop (tailStart x.length)).length % 4 = x.length % 4 := by rw [List.length_drop]; omega
    rcases decTail_error_cause hp htail with ⟨he, hcause⟩ | ⟨he, c, hc, hout⟩
    · exact .inl ⟨he, hlen ▸ hcause⟩
    · exact .inr ⟨he, c, List.mem_of_mem_drop hc, hout⟩

/-- BufferTooSmall is an error of the size check, never of DEC_REF (R253). -/
theorem decRef_ne_bufferTooSmall {p : Params} (hp : p.invalidMarked = true) (url pad : Bool) (x : List Byte) :
    decRef p url pad x ≠ .error .bufferTooSmall := by
  intro h
  rcases decodeErrorsHaveTheirCauses p url pad x _ hp h with ⟨he, -⟩ | ⟨he, -⟩ <;> cases he

/-! ### How a DEC fails (R257) -/

/-- DEC with a capacity below the estimate ends in its first step, before a byte of IN is read (R127, R253). -/
theorem runCommand_dec_short {s : State} (hidle : s.busy = false) {w : BitVec 4} (hw : cmdOp w = .dec)
    (hcap : s.ocap < estimateDecodedLen s.ilen) :
    runCommand w s = .next ((s.launch w).raise .bufferTooSmall).nextDraw := by
  refine runCommand_of_check hidle w (by simp [stepBound, hw]) ?_ rfl
  simp [checkRow, State.required, hw, hcap]

/-- Settles O27: a short capacity is answered in P_CHECK; otherwise the ended run of the DEC, as DEC_REF says. -/
theorem decEndsWithTheError : Obligations.DecEndsWithTheError := by
  constructor
  · intro i s hop hidle hcap
    rw [exec_eq, runCommand_dec_short hidle hop hcap, State.launch_encode hop]
    rfl
  · intro i s e hop hidle hwf hcap href
    obtain ⟨t, ht, hrun, hdone⟩ := runCommand_dec hidle (w := encode i) hop hwf
    have hends : EndsAs (decRef s.cfg i.url i.pad (s.input s.ilen)) t := hrun.done hdone hcap
    rw [href] at hends
    obtain ⟨herr, hrlen⟩ := hends
    exact ⟨t, (exec_eq i s).trans ht, hrun.frame.command hdone, herr, hrlen, hrun.beyond⟩

/-! ### How every command ends (R254) -/

/-- The error of a DEC with room is DEC_REF's, so it is not BufferTooSmall (R254). -/
theorem resultOf_dec_ne_bufferTooSmall {p : Params} (hp : p.invalidMarked = true) {n cap : Nat}
    (hcap : estimateDecodedLen n ≤ cap) (url pad : Bool) (x : List Byte) :
    (resultOf p .dec url pad n cap x).1 ≠ some .bufferTooSmall := by
  have href := decRef_ne_bufferTooSmall hp url pad x
  simp only [resultOf, if_neg (Nat.not_lt.mpr hcap)]
  cases h : decRef p url pad x with
  | ok out => simp
  | error e => simpa [h] using href

/-- Settles O29: every command ends DONE with the error of `resultOf`, read off operation by operation. -/
theorem waysAnOperationEnds : Obligations.WaysAnOperationEnds := by
  intro i s hidle hwf
  obtain ⟨t, ht, herr, -⟩ := runCommand_result i s hidle hwf
  refine ⟨t, ht, runCommand_done hidle hwf ht, ?_, ?_, ?_, ?_⟩
  · rintro (hop | hop) <;> rw [herr, hop] <;> rfl
  · intro hop
    rw [herr, hop, resultOf, apply_ite Prod.fst]
  · intro hop
    rw [herr, hop, resultOf, apply_ite Prod.fst]
    cases decRef s.cfg i.url i.pad (s.input s.ilen) <;> rfl
  · intro hop hcap
    have hmark : s.cfg.invalidMarked = true := (Bool.and_eq_true_iff.mp hwf).2
    rw [herr, hop]
    exact resultOf_dec_ne_bufferTooSmall hmark hcap i.url i.pad _

end Sys2Proof.Machine
end

section
/-! Reset, hazards and the step bound (70_reset_and_hazards.md R280, R291, R296): what a host write to IN while BUSY
does to engine reads, who makes a read ambiguous at all, the end of every operation, and its abandonment by the reset. -/

namespace Sys2Proof.Machine

/-! ### Writes to IN while BUSY (R291; logs 9, 10) -/

/-- The replaced bytes are those of the operation's input that lie in the written range. -/
theorem State.mem_replaced {s : State} {a k x : Nat} {b : Byte} :
    (x, b) ∈ s.replaced a k ↔ (a ≤ x ∧ x < a + k) ∧ x < s.lN ∧ b = s.inCell x := by
  simp only [State.replaced, List.mem_map, List.mem_filter, List.mem_range, decide_eq_true_eq, Prod.mk.injEq]
  constructor
  · rintro ⟨y, ⟨⟨i, hi, rfl⟩, hin⟩, rfl, rfl⟩
    exact ⟨by omega, hin, rfl⟩
  · rintro ⟨⟨hlow, hhigh⟩, hin, rfl⟩
    exact ⟨x, ⟨⟨x - a, by omega, by omega⟩, hin⟩, rfl, rfl⟩

/-- The first write while BUSY leaves the record of what it replaced. -/
theorem State.fill_inRace_first {s : State} (hb : s.busy = true) (hq : s.inRace = []) (a : Nat) (bytes : List Byte) :
    (s.fill a bytes).inRace = s.replaced a bytes.length := by
  simp [State.fill, hb, hq]

/-- After the first write while BUSY an engine read returns the old byte or, in the written range, the new one. -/
theorem State.inByte_fill_first {s : State} (hb : s.busy = true) (hq : s.inRace = []) (a : Nat) (bytes : List Byte)
    (x : Nat) : (s.fill a bytes).inByte x = s.inByte x ∨
      (a ≤ x ∧ x < a + bytes.length) ∧ (s.fill a bytes).inByte x = bytes.getD (x - a) 0#8 := by
  rw [s.inByte_quiet hq]
  rcases State.inByte_cases (s.fill a bytes) x with hcell | hold
  · rw [hcell, State.inCell_fill]
    split_ifs with hx
    · exact .inr ⟨hx, rfl⟩
    · exact .inl rfl
  · rw [State.fill_inRace_first hb hq] at hold
    obtain ⟨-, -, hbyte⟩ := State.mem_replaced.mp hold
    exact .inl hbyte

/-- Settles O19, by `State.inByte_fill_first`: a write wholly at or beyond L_N has no byte of the input in its range. -/
theorem inWriteWhileBusyIsOldOrNew : Obligations.InWriteWhileBusyIsOldOrNew := by
  intro s a bytes rest hev hb hq hfit
  have hread (x : Nat) := State.inByte_fill_first (s := s.setEvents rest) hb hq a bytes x
  have hstep : step s = .next ((s.setEvents rest).fill a bytes) :=
    (step_fillIn hev).trans (hostFillIn_located (State.located_iff.mpr (.inr hfit)))
  refine ⟨_, hstep, rfl, fun x _ => ?_, fun hbeyond x hx => ?_⟩
  · rcases hread x with hold | ⟨hrange, hnew⟩
    · exact .inl hold
    · exact .inr ⟨x - a, by omega, by omega, hnew⟩
  · rcases hread x with hold | ⟨hrange, -⟩
    · exact hold
    · omega

/-- The record of overwritten bytes is cleared by a launch or a reset, and grows by a FILL IN while BUSY alone. -/
theorem StepCase.inRace_writers {s t : State} (h : StepCase s t) :
    t.inRace = s.inRace ∨ t.inRace = [] ∨ s.busy = true ∧ ∃ a bytes rest, s.events = .fillIn a bytes :: rest := by
  cases h with
  | nothing | ilen | ocap | observe | observeFree => exact .inl rfl
  | engine es es' => exact .inl (EngineFrame.engineStep _).inRace
  | command w rest i => exact .inr (.inl (EngineFrame.complete _).inRace)
  | launch | reset => exact .inr (.inl rfl)
  | fill a bytes rest _ hev =>
    cases hb : s.busy with
    | true => exact .inr (.inr ⟨rfl, a, bytes, rest, hev⟩)
    | false =>
      rw [State.fill_idle (s := s.setEvents rest) hb]
      exact .inl rfl

/-- Settles O20: the host's obligation excludes the one writer that lets the record grow. -/
theorem wellBehavedHostNeverRaces : Obligations.WellBehavedHostNeverRaces := by
  intro s t hq hhost ht
  have hquiet : t.inRace = [] := by
    rcases (step_cases ht).inRace_writers with hsame | hclear | ⟨hb, a, bytes, rest, hev⟩
    · exact hsame.trans hq
    · exact hclear
    · cases hb.symm.trans (State.busy_of_hostObliges_fillIn hhost hev)
  exact ⟨hquiet, t.inByte_quiet hquiet⟩

/-! ### The end of an operation (R296) and its abandonment (R280) -/

/-- Settles O43: the run to completion ends DONE within `stepBound`, and a BUSY state is not DONE yet. -/
theorem everyOperationEndsInTime : Obligations.EveryOperationEndsInTime := by
  intro s hinv hb
  obtain ⟨k, hk, hcomplete, -⟩ := s.complete_eq_iterate
  have hdone : (engineStep^[k] s).phase = .done := hcomplete ▸ hinv.complete_done hb
  have hpos : k ≠ 0 := by
    rintro rfl
    exact (State.phase_of_busy hb).2 hdone
  exact ⟨k, Nat.one_le_iff_ne_zero.mpr hpos, hk, hdone⟩

/-- Settles O13: every register of `externalReset` is that of `State.reset`, its buffers list no location, and its phase
is P_IDLE, where the engine takes no step. -/
theorem externalResetAbandonsTheOperation : Obligations.ExternalResetAbandonsTheOperation := by
  intro s rest hev
  have hidle : (externalReset (s.setEvents rest)).busy = false := rfl
  exact ⟨externalReset (s.setEvents rest), step_reset hev,
    rfl, externalReset_status _, rfl, rfl, rfl, rfl, rfl, rfl, rfl, rfl, rfl, rfl, rfl, rfl, rfl, rfl, rfl, rfl, rfl,
    fun _ => rfl, fun _ => rfl, engineStep_not_busy hidle⟩

end Sys2Proof.Machine
end
